-- ==== Sys2Proof/Word.lean ====
section
/-! DEFINITION. The words of the G2C1 CORE: register words, bytes, bus addresses, field slots, bit sequences. -/

namespace Sys2Proof

/-- A register or memory word: 32 bits, bit 0 the least significant (00_scope.md R14). -/
abbrev Word := BitVec 32

/-- One byte of a buffer memory as the model's memory list keeps it. -/
abbrev Byte := BitVec 8

/-- A byte address on the register bus: ADDR_W = 20 (20_memory.md R80). -/
abbrev Addr := BitVec 20

/-- What a field slot holds: the semantic code of one message field, 16 bits (10_state.md R43,
30_encoding.md R108). -/
abbrev Code := BitVec 16

/-- A bit sequence, element 0 first: the first bit transmitted and the most significant
(00_scope.md R12). -/
abbrev Bits := List Bool

end Sys2Proof
end

