-- ==== Sys2Proof/Machine/BitSeq.lean ====
section
/-! DEFINITION. Bit sequences: the primitives of 00_scope.md R12, R13 and the packing of 30_encoding.md R104. -/

namespace Sys2Proof.Machine

/-- `bits_of(v, n)` of 00_scope.md R13: element `i` is `floor(v / 2^(n-1-i)) mod 2`. -/
def bitsOf : Nat → Nat → Bits
  | 0, _ => []
  | n + 1, v => (v / 2 ^ n % 2 == 1) :: bitsOf n v

/-- `uint(s)` of 00_scope.md R13: the unsigned big-endian value of a sequence. -/
def uint (s : Bits) : Nat := s.foldl (fun a b => 2 * a + b.toNat) 0

/-- The word that holds elements 0 to 31 of a sequence: element `j` at bit `31 - j`, bits past its length 0
(30_encoding.md R104). -/
def packWord (s : Bits) : Word :=
  BitVec.ofNat 32 (uint (s.take 32 ++ List.replicate (32 - s.length) false))

/-- The 32 elements a word holds (30_encoding.md R104). -/
def unpackWord (w : Word) : Bits := bitsOf 32 w.toNat

/-- The 64 elements two consecutive words hold. -/
def unpackPair (w0 w1 : Word) : Bits := unpackWord w0 ++ unpackWord w1

end Sys2Proof.Machine
end

