-- ==== Sys2Proof/Machine/Crc5.lean ====
section
/-! DEFINITION. The CRC5 bit-serial generator as a function (41_crc5.md R170-R174). -/

namespace Sys2Proof.Machine

/-- CRC_PRESET: 01001, element 0 first (41_crc5.md R172, 90_conflicts.md C2). -/
def crcPreset : BitVec 5 := 0b01001#5

/-- CRC_MASK: 01001, element 0 first (R172, C2). -/
def crcMask : BitVec 5 := 0b01001#5

/-- One step with a given mask, in register bits (R170): `fb = CRC_REG[4] XOR b`, shift left, XOR the mask
if `fb`. -/
def crcStepWith (mask reg : BitVec 5) (b : Bool) : BitVec 5 :=
  (reg <<< 1) ^^^ (if reg.getLsbD 4 != b then mask else 0#5)

/-- One step of the generator: one input bit (R170). -/
def crcStep (reg : BitVec 5) (b : Bool) : BitVec 5 := crcStepWith crcMask reg b

/-- The same step on the register as a sequence `[r0, r1, r2, r3, r4]`, as R170's pseudocode writes it: compare
the leading bit, shift left and append 0, XOR the mask if the flag is pending. -/
def crcStepSeq (reg : Bits) (b : Bool) : Bits :=
  let pending := reg.headD false != b
  let shifted := reg.drop 1 ++ [false]
  if pending then List.zipWith Bool.xor shifted (bitsOf 5 crcMask.toNat) else shifted

/-- Several steps in order. -/
def crcFeed (reg : BitVec 5) (d : Bits) : BitVec 5 := d.foldl crcStep reg

/-- The register as a sequence, element 0 (bit 4) first (10_state.md R35). -/
def crcBits (reg : BitVec 5) : Bits := bitsOf 5 reg.toNat

/-- The checksum of a data sequence (R171): preset, one step per bit, the register read out element 0 first. -/
def crc5 (d : Bits) : Bits := crcBits (crcFeed crcPreset d)

end Sys2Proof.Machine
end

