-- ==== Sys2Proof/Machine/FieldCodec.lean ====
section
/-! DEFINITION. The error codes (60_exceptions.md R370) and the field codecs Value, LookUp and Constant
(40_bitfield.md). -/

namespace Sys2Proof.Machine

/-- The result code of a command (60_exceptions.md R370). Codes 7 to 15 are never produced, so they are no
constructor. -/
inductive Err where
  /-- 0: success. -/
  | none
  /-- 1: a Value field's integer does not fit its width. -/
  | overflow
  /-- 2: a LookUp pattern or value missing from its table, or no registered message type matches. -/
  | notFound
  /-- 3: a bit buffer shorter than the message's declared width. -/
  | sizeMismatch
  /-- 4: a command operand out of range. -/
  | param
  /-- 5: an output does not fit its buffer. -/
  | capacity
  /-- 6: a reserved OP code. -/
  | illegal
  deriving DecidableEq, Repr

/-- The numeric code of STATUS.ERR and FLAGS.ERR (60_exceptions.md R370). -/
def Err.code : Err → Nat
  | .none => 0
  | .overflow => 1
  | .notFound => 2
  | .sizeMismatch => 3
  | .param => 4
  | .capacity => 5
  | .illegal => 6

/-- A field codec (40_bitfield.md R140). -/
inductive Codec where
  /-- `Value(n)`: the code is the unsigned integer (R141, R142). -/
  | value (n : Nat)
  /-- `LookUp(n)`: a bidirectional table of codes and `n`-bit patterns (R145). -/
  | lookUp (n : Nat) (table : List (Code × Bits))
  /-- `Constant(p)`: one fixed association (R150); here always an opcode, which stands for the message-type code. -/
  | constant (p : Bits) (code : Code)
  deriving DecidableEq, Repr

/-- `nBits` of a field (R140). -/
def Codec.width : Codec → Nat
  | .value n => n
  | .lookUp n _ => n
  | .constant p _ => p.length

/-- The pattern a table gives a code (R146). -/
def findPattern (c : Code) : List (Code × Bits) → Except Err Bits
  | [] => .error .notFound
  | (k, p) :: rest => if k = c then .ok p else findPattern c rest

/-- The code a table gives a pattern (R147). -/
def findCode (s : Bits) : List (Code × Bits) → Except Err Code
  | [] => .error .notFound
  | (k, p) :: rest => if p = s then .ok k else findCode s rest

/-- `toBits` of a field: Value (R141), LookUp (R146), Constant (R151, which never fails). -/
def Codec.toBits : Codec → Code → Except Err Bits
  | .value n, v => if 2 ^ n ≤ v.toNat then .error .overflow else .ok (bitsOf n v.toNat)
  | .lookUp _ t, c => findPattern c t
  | .constant p _, _ => .ok p

/-- `fromBits` of a field on a slice of its width: Value (R142), LookUp (R147), Constant (R151). -/
def Codec.fromBits : Codec → Bits → Except Err Code
  | .value _, s => .ok (BitVec.ofNat 16 (uint s))
  | .lookUp _ t, s => findCode s t
  | .constant p c, s => if s = p then .ok c else .error .notFound

end Sys2Proof.Machine
end

