-- ==== Sys2Proof/Machine/Message.lean ====
section
/-! DEFINITION. The message framework: formats (30_encoding.md R100-R117), `toBits`, `parseAs` and dispatch
(42_message_mux.md R200-R220). -/

namespace Sys2Proof.Machine

/-- The five message types (30_encoding.md R117). -/
inductive MsgType where
  | query | queryAdjust | queryRep | ack | nak
  deriving DecidableEq, Repr

/-- The message-type code of MSG_TYPE, TX_TYPE, RX_TYPE and the result TYPE field (30_encoding.md R117). -/
def MsgType.code : MsgType → Nat
  | .query => 0
  | .queryAdjust => 1
  | .queryRep => 2
  | .ack => 3
  | .nak => 4

/-- The type a code names; 5 to 7 name none (30_encoding.md R117). -/
def MsgType.ofCode : Nat → Option MsgType
  | 0 => some .query
  | 1 => some .queryAdjust
  | 2 => some .queryRep
  | 3 => some .ack
  | 4 => some .nak
  | _ => none

/-- The eight field slots of a message, `FIELD[0..7]` or `RX_FIELD[0..7]` (30_encoding.md R107). -/
structure Slots where
  f0 : Code
  f1 : Code
  f2 : Code
  f3 : Code
  f4 : Code
  f5 : Code
  f6 : Code
  f7 : Code
  deriving DecidableEq, Repr

/-- All slots 0. -/
def Slots.zero : Slots := ⟨0, 0, 0, 0, 0, 0, 0, 0⟩

/-- The slots in order. -/
def Slots.toList (v : Slots) : List Code := [v.f0, v.f1, v.f2, v.f3, v.f4, v.f5, v.f6, v.f7]

/-- Slots from a message's field codes in order; slots the message does not use are 0 (30_encoding.md R107). -/
def Slots.ofList (l : List Code) : Slots :=
  ⟨l.getD 0 0, l.getD 1 0, l.getD 2 0, l.getD 3 0, l.getD 4 0, l.getD 5 0, l.getD 6 0, l.getD 7 0⟩

/-- Slot `k`. -/
def Slots.get (v : Slots) (k : Fin 8) : Code :=
  match k with
  | 0 => v.f0
  | 1 => v.f1
  | 2 => v.f2
  | 3 => v.f3
  | 4 => v.f4
  | 5 => v.f5
  | 6 => v.f6
  | 7 => v.f7

/-- Slot `k` written. -/
def Slots.set (v : Slots) (k : Fin 8) (c : Code) : Slots :=
  match k with
  | 0 => { v with f0 := c }
  | 1 => { v with f1 := c }
  | 2 => { v with f2 := c }
  | 3 => { v with f3 := c }
  | 4 => { v with f4 := c }
  | 5 => { v with f5 := c }
  | 6 => { v with f6 := c }
  | 7 => { v with f7 := c }

/-- DR (30_encoding.md R109): 0 is divide ratio 8, 1 is 64/3. -/
def drField : Codec := .lookUp 1 [(0, [false]), (1, [true])]

/-- M (R110). -/
def mField : Codec :=
  .lookUp 2 [(1, [false, false]), (2, [false, true]), (4, [true, false]), (8, [true, true])]

/-- TRext (R111). -/
def trextField : Codec := .lookUp 1 [(0, [false]), (1, [true])]

/-- Sel (R112): "all", "all1", "~SL", "SL". -/
def selField : Codec :=
  .lookUp 2 [(0, [false, false]), (1, [false, true]), (2, [true, false]), (3, [true, true])]

/-- Session (R113). -/
def sessionField : Codec := .value 2

/-- Target (R114): "a", "b". -/
def targetField : Codec := .lookUp 1 [(0, [false]), (1, [true])]

/-- UpDn (R115): unchanged, +1, -1. -/
def updnField : Codec :=
  .lookUp 3 [(0, [false, false, false]), (1, [true, true, false]), (2, [false, true, true])]

/-- Q (R116). -/
def qField : Codec := .value 4

/-- RN16 (R116). -/
def rn16Field : Codec := .value 16

/-- The opcode pattern of a message type (30_encoding.md R105). -/
def MsgType.opcode : MsgType → Bits
  | .query => [true, false, false, false]
  | .queryAdjust => [true, false, false, true]
  | .queryRep => [false, false]
  | .ack => [false, true]
  | .nak => [true, true, false, false, false, false, false, false]

/-- The Constant opcode field, the first field of every message (30_encoding.md R100, 40_bitfield.md R150). -/
def MsgType.opcodeField (t : MsgType) : Codec := .constant t.opcode (BitVec.ofNat 16 t.code)

/-- The fields after the opcode, in slot order (30_encoding.md R101-R103, R107). -/
def MsgType.fields : MsgType → List Codec
  | .query => [drField, mField, trextField, selField, sessionField, targetField, qField]
  | .queryAdjust => [sessionField, updnField]
  | .queryRep => [sessionField]
  | .ack => [rn16Field]
  | .nak => []

/-- Whether the type has a checksum: Query alone (42_message_mux.md R200). -/
def MsgType.hasCheck : MsgType → Bool
  | .query => true
  | .queryAdjust => false
  | .queryRep => false
  | .ack => false
  | .nak => false

/-- `T.nBits`: the widths of all fields, opcode included, checksum excluded (42_message_mux.md R201). -/
def MsgType.nBits (t : MsgType) : Nat :=
  t.opcodeField.width + (t.fields.map Codec.width).sum

/-- The fields' bits in declared order; the first field that fails gives the error (R202). -/
def encodeFields : List Codec → List Code → Except Err Bits
  | [], _ => .ok []
  | c :: cs, vs =>
      match c.toBits (vs.headD 0) with
      | .error e => .error e
      | .ok b =>
          match encodeFields cs vs.tail with
          | .error e => .error e
          | .ok r => .ok (b ++ r)

/-- `toBits(T, v)` (R202): opcode, fields, then the checksum over all of them if the type has one. -/
def toBits (t : MsgType) (v : Slots) : Except Err Bits :=
  match encodeFields (t.opcodeField :: t.fields) (0 :: v.toList) with
  | .error e => .error e
  | .ok s => .ok (if t.hasCheck then s ++ crc5 s else s)

/-- The fields read from a sequence, each from its own slice (R203). -/
def parseFields : List Codec → Bits → Except Err (List Code)
  | [], _ => .ok []
  | c :: cs, s =>
      match c.fromBits (s.take c.width) with
      | .error e => .error e
      | .ok v =>
          match parseFields cs (s.drop c.width) with
          | .error e => .error e
          | .ok r => .ok (v :: r)

/-- `parseAs(T, s)` (R203): SizeMismatch on a sequence shorter than `nBits`; bits past it are ignored; the opcode's
own value is the type, so only the values after it are kept. -/
def parseAs (t : MsgType) (s : Bits) : Except Err (MsgType × Slots) :=
  if s.length < t.nBits then .error .sizeMismatch
  else
    match parseFields (t.opcodeField :: t.fields) s with
    | .error e => .error e
    | .ok vals => .ok (t, Slots.ofList vals.tail)

/-- The registry, in its fixed order (R205). -/
def registry : List MsgType := [.query, .queryAdjust, .queryRep, .ack, .nak]

/-- Whether the input is at least as long as the candidate's opcode and starts with it (R206). -/
def MsgType.opens (t : MsgType) (s : Bits) : Bool := s.take t.opcode.length == t.opcode

/-- Dispatch over a list of candidates: the first that matches is parsed, and its error, if any, is the result
(R206). -/
def dispatchIn : List MsgType → Bits → Except Err (MsgType × Slots)
  | [], _ => .error .notFound
  | t :: ts, s => if t.opens s then parseAs t s else dispatchIn ts s

/-- Dispatch over the registry (R206). -/
def dispatch (s : Bits) : Except Err (MsgType × Slots) := dispatchIn registry s

/-- The pure assemble function of ASSEMBLE and ENCODE (R220): an invalid type code raises NotFound. -/
def assembleMsg (code : Nat) (field : Slots) : Except Err (MsgType × Bits) :=
  match MsgType.ofCode code with
  | none => .error .notFound
  | some t =>
      match toBits t field with
      | .error e => .error e
      | .ok s => .ok (t, s)

/-- Structural equality of two messages (R204): same type, and the slots the type uses equal pairwise. -/
def sameMessage (a b : MsgType × Slots) : Bool :=
  a.1 == b.1 && a.2.toList.take a.1.fields.length == b.2.toList.take a.1.fields.length

end Sys2Proof.Machine
end

