-- ==== Sys2Proof/Syntax.lean ====
section
/-! DEFINITION. The instructions: one constructor per row of spec/opcode_table.json. -/

namespace Sys2Proof

/-- The rows of the opcode table. The first five are the Gen2 messages the core multiplexes and dispatches,
with the semantic codes of their fields in slot order (30_encoding.md R101-R107); the others are the host
commands that a CMD word starts (30_encoding.md R120). -/
inductive Instr where
  /-- Query (42_message_mux.md R207): DR, M, TRext, Sel, Session, Target, Q. -/
  | query (dr m trext sel session target q : Code)
  /-- QueryAdjust (R208): Session, UpDn. -/
  | queryAdjust (session updn : Code)
  /-- QueryRep (R209): Session. -/
  | queryRep (session : Code)
  /-- ACK (R210): RN16. -/
  | ack (rn16 : Code)
  /-- NAK (R211): no field. -/
  | nak
  /-- OP 0x0 (45_control.md R352). -/
  | nop
  /-- OP 0x1 (41_crc5.md R175). -/
  | crcInit
  /-- OP 0x2 (41_crc5.md R176): ARG, the bit count, as the six bits 13:8 of the CMD word. -/
  | crcFeed (n : BitVec 6)
  /-- OP 0x3 (42_message_mux.md R221). -/
  | assemble
  /-- OP 0x4 (42_message_mux.md R222). -/
  | parse
  /-- OP 0x5 (43_pie_encoder.md R259). -/
  | encode
  /-- OP 0x6 (44_edge_decoder.md R295). -/
  | edges
  /-- OP 0x7 (44_edge_decoder.md R320). -/
  | decode
  /-- OP 0x8 (45_control.md R354). -/
  | reserved8
  /-- OP 0x9 (R354). -/
  | reserved9
  /-- OP 0xA (R354). -/
  | reservedA
  /-- OP 0xB (R354). -/
  | reservedB
  /-- OP 0xC (R354). -/
  | reservedC
  /-- OP 0xD (R354). -/
  | reservedD
  /-- OP 0xE (R354). -/
  | reservedE
  /-- OP 0xF (45_control.md R353). -/
  | softReset
  deriving DecidableEq, Repr

end Sys2Proof
end

