-- ==== Sys2Proof/Decode.lean ====
section
/-! DEFINITION. The decoder of both encodings (the CMD word and the Gen2 messages of 30_encoding.md), the encoder
written from the same tables, and the host's table-word form. -/

namespace Sys2Proof

open Sys2Proof.Machine

/-- An encoded instruction: the core has two encodings (30_encoding.md). -/
inductive Encoded where
  /-- The word written to CMD (R120). -/
  | cmd (w : Word)
  /-- A Gen2 message's bit sequence (R100). -/
  | msg (s : Bits)
  deriving DecidableEq, Repr

/-- OP, bits 3:0 of the CMD word (R120). -/
def cmdOp (w : Word) : BitVec 4 := w.extractLsb' 0 4

/-- ARG, bits 13:8 of the CMD word (R120). -/
def cmdArg (w : Word) : BitVec 6 := w.extractLsb' 8 6

/-- The host command a CMD word selects: every word selects one. Bits 7:4 and 31:14 are ignored, and ARG is
ignored by every OP but CRC_FEED (R120, R121). -/
def decodeCmd (w : Word) : Instr :=
  match (cmdOp w).toNat with
  | 0x0 => .nop
  | 0x1 => .crcInit
  | 0x2 => .crcFeed (cmdArg w)
  | 0x3 => .assemble
  | 0x4 => .parse
  | 0x5 => .encode
  | 0x6 => .edges
  | 0x7 => .decode
  | 0x8 => .reserved8
  | 0x9 => .reserved9
  | 0xA => .reservedA
  | 0xB => .reservedB
  | 0xC => .reservedC
  | 0xD => .reservedD
  | 0xE => .reservedE
  | _ => .softReset

/-- The message instruction of a type and its field codes. -/
def Instr.ofMessage (t : MsgType) (v : Slots) : Instr :=
  match t with
  | .query => .query v.f0 v.f1 v.f2 v.f3 v.f4 v.f5 v.f6
  | .queryAdjust => .queryAdjust v.f0 v.f1
  | .queryRep => .queryRep v.f0
  | .ack => .ack v.f0
  | .nak => .nak

/-- The message a bit sequence spells, by opcode dispatch (42_message_mux.md R206). It rejects by name: NotFound
where no opcode matches or a LookUp pattern is outside its table, SizeMismatch where the sequence is shorter than
the message (30_encoding.md R118). -/
def decodeMsg (s : Bits) : Except Err Instr :=
  match dispatch s with
  | .error e => .error e
  | .ok (t, v) => .ok (Instr.ofMessage t v)

/-- The decoder: total on every encoded form. -/
def decode : Encoded → Except Err Instr
  | .cmd w => .ok (decodeCmd w)
  | .msg s => decodeMsg s

/-- The CMD word of an OP and an ARG, ignored bits 0: `(arg << 8) | OP` (30_encoding.md R132). -/
def cmdWord (op : BitVec 4) (arg : BitVec 6) : Word :=
  (arg.setWidth 32 <<< 8) ||| op.setWidth 32

/-- A message's sequence as an encoded form. -/
def encodeMsg (t : MsgType) (v : Slots) : Except Err Encoded :=
  match toBits t v with
  | .error e => .error e
  | .ok s => .ok (.msg s)

/-- The encoder: a CMD word with its ignored bits 0, or the message's bit sequence, checksum included. A message
whose codes no encoding exists for answers the error its first failing field raises (42_message_mux.md R202). -/
def encode : Instr → Except Err Encoded
  | .query dr m trext sel session target q =>
      encodeMsg .query ⟨dr, m, trext, sel, session, target, q, 0⟩
  | .queryAdjust session updn => encodeMsg .queryAdjust ⟨session, updn, 0, 0, 0, 0, 0, 0⟩
  | .queryRep session => encodeMsg .queryRep ⟨session, 0, 0, 0, 0, 0, 0, 0⟩
  | .ack rn16 => encodeMsg .ack ⟨rn16, 0, 0, 0, 0, 0, 0, 0⟩
  | .nak => encodeMsg .nak Slots.zero
  | .nop => .ok (.cmd (cmdWord 0x0 0))
  | .crcInit => .ok (.cmd (cmdWord 0x1 0))
  | .crcFeed n => .ok (.cmd (cmdWord 0x2 n))
  | .assemble => .ok (.cmd (cmdWord 0x3 0))
  | .parse => .ok (.cmd (cmdWord 0x4 0))
  | .encode => .ok (.cmd (cmdWord 0x5 0))
  | .edges => .ok (.cmd (cmdWord 0x6 0))
  | .decode => .ok (.cmd (cmdWord 0x7 0))
  | .reserved8 => .ok (.cmd (cmdWord 0x8 0))
  | .reserved9 => .ok (.cmd (cmdWord 0x9 0))
  | .reservedA => .ok (.cmd (cmdWord 0xA 0))
  | .reservedB => .ok (.cmd (cmdWord 0xB 0))
  | .reservedC => .ok (.cmd (cmdWord 0xC 0))
  | .reservedD => .ok (.cmd (cmdWord 0xD 0))
  | .reservedE => .ok (.cmd (cmdWord 0xE 0))
  | .softReset => .ok (.cmd (cmdWord 0xF 0))

/-- Whether a table word is read as a message's packed word rather than as a CMD word (log 2). A packed message
has zeros past its at most 22 elements (30_encoding.md R104), so its low four bits are 0. A word whose low four
bits are 0 is a message's if it has bits above the sixteenth or the table gives the row more than sixteen bits:
the CMD word's meaningful bits end at bit 13. -/
def tableWordIsMessage (nbits w : Nat) : Bool :=
  w % 16 == 0 && (decide (16 < nbits) || decide (2 ^ 16 ≤ w))

/-- A table word as an encoded form: the packed word's 32 elements, or the CMD word. -/
def tableWord (nbits w : Nat) : Encoded :=
  if tableWordIsMessage nbits w then .msg (unpackWord (BitVec.ofNat 32 w))
  else .cmd (BitVec.ofNat 32 w)

/-- The instruction the decoder reads from a table word, none where it refuses. -/
def decodeTableWord (nbits w : Nat) : Option Instr :=
  match decode (tableWord nbits w) with
  | .ok i => some i
  | .error _ => none

end Sys2Proof
end

