-- ==== Sys2Proof/Config.lean ====
section
/-! DEFINITION. What an implementation fixes (the parameters of 00_scope.md R10) and the free values: constants
without a body, of which nothing can be proved. -/

namespace Sys2Proof

/-- The implementation parameters of 00_scope.md R10 that are not marked "fixed". The state holds one such
record; no step changes it (log 8). -/
structure Params where
  /-- N_PULSE: entries of PULSE_MEM. -/
  nPulse : Nat
  /-- N_SAMPLE: entries of SAMPLE_MEM. -/
  nSample : Nat
  /-- SAMPLE_W: sample width in bits. -/
  sampleW : Nat
  /-- N_EDGE: entries of EDGE_MEM. -/
  nEdge : Nat
  /-- N_RESULT: decode result records. -/
  nResult : Nat
  /-- CMD_END: the command-end threshold of stage C, as a Q16.16 code. -/
  cmdEnd : Nat
  /-- END_FLUSH: whether EDGES emits a closing edge at the end of the window. -/
  endFlush : Bool
  deriving DecidableEq, Repr

/-- FREE VALUE (log 4). ENGINE_LATENCY as a host program can see it: how many further host steps stand before
the completion of the command that is accepted as number `n`. Any natural number, so every fair interleaving of
host and engine steps (70_reset_and_hazards.md R415, R416) is one choice of this constant. -/
opaque Config.engineDelay : Nat → Nat

/-- FREE VALUE (log 5). What an unwritten byte of a buffer memory reads as: draw number, then address
(20_memory.md R87: "any value: a free draw under no law"). -/
opaque Config.unwrittenByte : Nat → Nat → Byte

/-- FREE VALUE (log 7). What a host read of a word in the running command's output set returns while BUSY: draw
number, then address (70_reset_and_hazards.md R411). -/
opaque Config.busyRead : Nat → Nat → Word

end Sys2Proof
end

