-- ==== Sys2Proof/Machine/Memory.lean ====
section
/-! DEFINITION. The buffer memories as one list of address and byte pairs in one canonical form, and its word
accesses (20_memory.md R80, R86, R87). -/

namespace Sys2Proof.Machine

/-- The bytes written since power-on, addresses strictly rising. -/
abbrev Memory := List Host.Cell

/-- What is listed at an address. An unlisted address holds no value of its own: its contents are unspecified
(20_memory.md R87), and the bus answers a free value there (`byteRead`). -/
def byteAt : Memory → Nat → Option Byte
  | [], _ => none
  | (k, b) :: rest, a => if k = a then some b else byteAt rest a

/-- One byte written. No listed value can equal what an unlisted address holds (no value), so a write never
removes an entry. -/
def writeByte : Memory → Nat → Byte → Memory
  | [], a, b => [(a, b)]
  | (k, c) :: rest, a, b =>
      if a < k then (a, b) :: (k, c) :: rest
      else if a = k then (a, b) :: rest
      else (k, c) :: writeByte rest a b

/-- Every listed address is above `lo`, and they rise strictly. -/
def risingAbove : Nat → Memory → Bool
  | _, [] => true
  | lo, (k, _) :: rest => decide (lo < k) && risingAbove k rest

/-- The canonical form: addresses strictly rising. (The other half, no entry equal to what an unlisted address
reads as, holds of every list, since an unlisted address has no value.) -/
def Memory.wf : Memory → Bool
  | [] => true
  | (k, _) :: rest => risingAbove k rest

/-- A byte as an access finds it: the listed value, or draw number `draw`'s free value (20_memory.md R87, log 5). -/
def byteRead (draw : Nat) (m : Memory) (a : Nat) : Byte :=
  match byteAt m a with
  | some b => b
  | none => Config.unwrittenByte draw a

/-- The 32-bit word at an address, its low byte at the lowest address (log 9). -/
def wordRead (draw : Nat) (m : Memory) (a : Nat) : Word :=
  byteRead draw m (a + 3) ++ byteRead draw m (a + 2) ++ byteRead draw m (a + 1) ++ byteRead draw m a

/-- The 32-bit word written at an address. -/
def wordWrite (m : Memory) (a : Nat) (w : Word) : Memory :=
  writeByte (writeByte (writeByte (writeByte m a (w.extractLsb' 0 8)) (a + 1) (w.extractLsb' 8 8))
    (a + 2) (w.extractLsb' 16 8)) (a + 3) (w.extractLsb' 24 8)

/-- `n` consecutive words from an address upwards. -/
def wordsRead (draw : Nat) (m : Memory) (a : Nat) : Nat → List Word
  | 0 => []
  | n + 1 => wordRead draw m a :: wordsRead draw m (a + 4) n

/-- Consecutive words written from an address upwards. -/
def wordsWrite (m : Memory) (a : Nat) : List Word → Memory
  | [] => m
  | w :: ws => wordsWrite (wordWrite m a w) (a + 4) ws

end Sys2Proof.Machine
end

