-- ==== Sys2Proof/Machine/Parameters.lean ====
section
/-! DEFINITION. The parameters' defaults and legal ranges, and the fixed timing constants (00_scope.md R10). -/

namespace Sys2Proof.Machine

/-- `Q(x)` for `x = n/4` µs: the Q16.16 code `floor(x · 2^16)` (00_scope.md R16). Every fixed duration of R10 is a
multiple of a quarter microsecond. -/
def quarterMicros (n : Nat) : Nat := n * 2 ^ 16 / 4

/-- MIN_TARI = 6.25 µs (R10). -/
def minTari : Nat := quarterMicros 25

/-- MAX_TARI = 25 µs (R10). -/
def maxTari : Nat := quarterMicros 100

/-- DELIM = 12.5 µs (R10, 43_pie_encoder.md R254). -/
def delim : Nat := quarterMicros 50

/-- MAX_SYMBOL = 250 µs (R10, 44_edge_decoder.md R297). -/
def maxSymbol : Nat := quarterMicros 1000

/-- MAX_BITS = 64 (R10). -/
def maxBits : Nat := 64

/-- The defaults of R10. CMD_END is 250 µs (92_eei_decisions.md D13). -/
def defaultParams : Params :=
  { nPulse := 64, nSample := 16384, sampleW := 16, nEdge := 1024, nResult := 8,
    cmdEnd := quarterMicros 1000, endFlush := true }

/-- The legal ranges of R10. For N_PULSE R10 gives none: the window of 20_memory.md R86 holds 64 entries and
PULSE_CNT has seven bits, so 1 to 64 (log 8). -/
def legalParams (p : Params) : Bool :=
  decide (1 ≤ p.nPulse ∧ p.nPulse ≤ 64) && decide (1 ≤ p.nSample ∧ p.nSample ≤ 65536) &&
  decide (1 ≤ p.sampleW ∧ p.sampleW ≤ 32) && decide (1 ≤ p.nEdge ∧ p.nEdge ≤ 4096) &&
  decide (1 ≤ p.nResult ∧ p.nResult ≤ 8)

end Sys2Proof.Machine
end

