-- ==== Sys2Proof/Machine/Regs.lean ====
section
/-! DEFINITION. The registers that hold a value of their own, and their reset values (10_state.md R31-R53).
STATUS, ENG_STATE and ENG_CMD stand in State itself; ID is a constant; CMD keeps nothing. -/

namespace Sys2Proof.Machine

/-- The registers of 10_state.md R53 but for ID, CMD, STATUS and the engine's, each at its own width. -/
structure Regs where
  /-- CTRL.IE (R32). -/
  ie : Bool
  /-- CTRL.TRUNC (R32). -/
  trunc : Bool
  /-- CRC.CRC_REG (R35). -/
  crcReg : BitVec 5
  /-- CRC_DATA (R36). -/
  crcData : Word
  /-- TARI, Q16.16 µs (R37). -/
  tari : Word
  /-- BLF, Q16.16 MHz (R38). -/
  blf : Word
  /-- SAMPLE_PERIOD, Q16.16 µs (R39). -/
  samplePeriod : Word
  /-- SCHMITT_RATIO, Q0.16 (R41). -/
  schmittRatio : BitVec 16
  /-- SCHMITT_HYST, Q0.16 (R41). -/
  schmittHyst : BitVec 16
  /-- RT_TOL, Q16.16 µs (R40). -/
  rtTol : Word
  /-- TR_TOL, Q16.16 µs (R40). -/
  trTol : Word
  /-- MSG_TYPE (R43). -/
  msgType : BitVec 3
  /-- FIELD[0..7] (R43). -/
  field : Slots
  /-- TX_TYPE (R44). -/
  txType : BitVec 3
  /-- TX_LEN (R44). -/
  txLen : BitVec 7
  /-- TX_BITS (R44). -/
  txBits : Word
  /-- RX_LEN (R45). -/
  rxLen : BitVec 7
  /-- RX_BITS0 (R45). -/
  rxBits0 : Word
  /-- RX_BITS1 (R45). -/
  rxBits1 : Word
  /-- RX_TYPE (R46). -/
  rxType : BitVec 3
  /-- RX_FIELD[0..7] (R46). -/
  rxField : Slots
  /-- PULSE_CNT (R47). -/
  pulseCnt : BitVec 7
  /-- SAMPLE_CNT (R48). -/
  sampleCnt : BitVec 17
  /-- EDGE_CNT (R49). -/
  edgeCnt : BitVec 13
  /-- RESULT_CNT (R50). -/
  resultCnt : BitVec 4
  deriving DecidableEq, Repr

/-- The reset values of 10_state.md R53. -/
def resetRegs : Regs :=
  { ie := false, trunc := false, crcReg := 0b01001#5, crcData := 0, tari := 0, blf := 0, samplePeriod := 0,
    schmittRatio := 0x8000#16, schmittHyst := 0x199A#16, rtTol := 0, trTol := 0, msgType := 0, field := Slots.zero,
    txType := 0, txLen := 0, txBits := 0, rxLen := 0, rxBits0 := 0, rxBits1 := 0, rxType := 0,
    rxField := Slots.zero, pulseCnt := 0, sampleCnt := 0, edgeCnt := 0, resultCnt := 0 }

end Sys2Proof.Machine
end

