-- ==== Sys2Proof/Machine/State.lean ====
section
/-! DEFINITION. The state of the machine as plain data, its reasons to stop, and the state after power-on reset. -/

namespace Sys2Proof.Machine

/-- ENG_STATE (10_state.md R30). STATUS.BUSY is this same bit. -/
inductive EngState where
  | idle
  | busy
  deriving DecidableEq, Repr

/-- What comes to the core from outside: the host's operations (30_encoding.md R130, R131) and the level of the
`rst` input (70_reset_and_hazards.md R401). -/
inductive HostOp where
  /-- `WR`: `MemWrite(addr, 4, value)`. -/
  | write (a : Addr) (v : Word)
  /-- `RD`: `MemRead(addr, 4)`. -/
  | read (a : Addr)
  /-- `WAIT`: the host's loop that polls STATUS until BUSY = 0. -/
  | wait
  /-- The `rst` input is driven to a level. -/
  | rst (level : Bool)
  deriving DecidableEq, Repr

/-- The state. `par` is the implementation's parameters; `regs`, `done`, `werr`, `err`, `engState`, `engCmd` and `mem`
are the core's state (10_state.md R30-R53); `rst` is the level of its reset input. The rest is the model's own:
what the host still does and has read, and the counters that select the free values (log 3, 4, 5, 6, 7). -/
structure State where
  /-- The implementation parameters (00_scope.md R10); no step changes them. -/
  par : Params
  /-- The registers of 10_state.md R53 that have storage of their own. -/
  regs : Regs
  /-- STATUS.DONE (R34). -/
  done : Bool
  /-- STATUS.WERR (R34). -/
  werr : Bool
  /-- STATUS.ERR (R34). -/
  err : Err
  /-- ENG_STATE, and STATUS.BUSY with it (R30). -/
  engState : EngState
  /-- ENG_CMD: the CMD word the engine accepted (R30). -/
  engCmd : Word
  /-- PULSE_MEM, RESULT_MEM, EDGE_MEM and SAMPLE_MEM (R47-R50), at their bus addresses. -/
  mem : Memory
  /-- The level of the `rst` input (70_reset_and_hazards.md R401). -/
  rst : Bool
  /-- What the host still does, in its program order (R30). -/
  host : List HostOp
  /-- The values the host's reads returned, newest first. -/
  reads : List Word
  /-- How many host steps stand before the running command's completion. -/
  slack : Nat
  /-- How many commands have been accepted. -/
  accepted : Nat
  /-- The number of the next free draw. -/
  draws : Nat
  deriving DecidableEq, Repr

/-- No step of this machine stops with a fault: the core has no trap (60_exceptions.md R372), every access is
answered (20_memory.md R86), and every error is a code in STATUS.ERR or a result record (R373, R374). The type
has no constructor, which says so. -/
inductive Fault where
  deriving DecidableEq, Repr

/-- Why a step gives an instruction no meaning. -/
inductive Refusal where
  /-- Raised by an arm of `exec` for an instruction that has no meaning yet; no arm does. Safe. -/
  | notModelled (mnemonic : String)
  deriving DecidableEq, Repr

/-- The machine right after power-on reset (70_reset_and_hazards.md R400): every register at its value of 10_state.md
R53, the buffers unspecified (nothing listed), the parameters at their defaults (00_scope.md R10), `rst` released,
and a host that has nothing to do (log 3, 6). -/
def State.reset : State :=
  { par := defaultParams, regs := resetRegs, done := false, werr := false, err := .none, engState := .idle,
    engCmd := 0, mem := [], rst := false, host := [], reads := [], slack := 0, accepted := 0, draws := 0 }

end Sys2Proof.Machine
end

