-- ==== Sys2Proof/Machine/Flags.lean ====
section
/-! DEFINITION. The flags (10_state.md R52): the words STATUS, CRC and CTRL as the bus reads them, the irq output,
and the FLAGS word of a result record. -/

namespace Sys2Proof.Machine

/-- Bit `k` of a word if the flag is set. -/
def flagBit (b : Bool) (k : Nat) : Nat := if b then 2 ^ k else 0

/-- STATUS.BUSY: 1 exactly when ENG_STATE = BUSY (10_state.md R30). -/
def State.busy (s : State) : Bool := s.engState == .busy

/-- The STATUS word: BUSY bit 0, DONE bit 1, WERR bit 2, ERR bits 7:4 (10_state.md R34). -/
def statusWord (s : State) : Word :=
  BitVec.ofNat 32 (flagBit s.busy 0 + flagBit s.done 1 + flagBit s.werr 2 + s.err.code * 2 ^ 4)

/-- CRC.ZERO: 1 exactly when CRC_REG is 0 (10_state.md R35). -/
def crcZero (r : Regs) : Bool := r.crcReg == 0#5

/-- The CRC word: CRC_REG bits 4:0, ZERO bit 8 (10_state.md R35). -/
def crcWord (r : Regs) : Word := BitVec.ofNat 32 (r.crcReg.toNat + flagBit (crcZero r) 8)

/-- The CTRL word: IE bit 0, TRUNC bit 1 (10_state.md R32). -/
def ctrlWord (r : Regs) : Word := BitVec.ofNat 32 (flagBit r.ie 0 + flagBit r.trunc 1)

/-- The irq output, a level: DONE AND IE (60_exceptions.md R378). -/
def State.irq (s : State) : Bool := s.done && s.regs.ie

/-- The FLAGS word of a result record (10_state.md R50): CAL_OK, TRCAL_OK, MSG_OK, BLF_OK, BITOVF, CRC_OK, TERM in
bits 0 to 6, ERR in 11:8, TYPE in 18:16. -/
def recordFlags (calOk trcalOk msgOk blfOk bitovf crcOk term : Bool) (err type : Nat) : Nat :=
  flagBit calOk 0 + flagBit trcalOk 1 + flagBit msgOk 2 + flagBit blfOk 3 + flagBit bitovf 4 +
    flagBit crcOk 5 + flagBit term 6 + err * 2 ^ 8 + type * 2 ^ 16

end Sys2Proof.Machine
end

