-- ==== Sys2Proof/Machine/Operands.lean ====
section
/-! DEFINITION. The operand forms: bus locations (20_memory.md R85, R86), and what the commands read (30_encoding.md
R120's operand column). -/

namespace Sys2Proof.Machine

/-- What a bus address reaches (20_memory.md R86; the register names of 10_state.md). -/
inductive Loc where
  | id | ctrl | cmd | status | crc | crcData
  | tari | blf | samplePeriod | schmittRatio | schmittHyst | rtTol | trTol
  | msgType | field (k : Fin 8)
  | txType | txLen | txBits
  | rxLen | rxBits0 | rxBits1
  | rxType | rxField (k : Fin 8)
  | pulseCnt | sampleCnt | edgeCnt | resultCnt
  /-- PULSE_MEM[i]. -/
  | pulse (i : Nat)
  /-- Word `i` of RESULT_MEM: word `i mod 32` of record `i div 32`. -/
  | result (i : Nat)
  /-- EDGE_MEM[i]. -/
  | edge (i : Nat)
  /-- SAMPLE_MEM[i]. -/
  | sample (i : Nat)
  | unmapped
  deriving DecidableEq, Repr

/-- First address of PULSE_MEM (R86). -/
def pulseBase : Nat := 0x1000

/-- First address of RESULT_MEM (R86). -/
def resultBase : Nat := 0x4000

/-- First address of EDGE_MEM (R86). -/
def edgeBase : Nat := 0x8000

/-- First address of SAMPLE_MEM (R86). -/
def sampleBase : Nat := 0x10000

/-- The control and status registers by address (10_state.md R31-R50, R53). -/
def regAt : Nat → Loc
  | 0x000 => .id
  | 0x004 => .ctrl
  | 0x008 => .cmd
  | 0x00C => .status
  | 0x010 => .crc
  | 0x014 => .crcData
  | 0x020 => .tari
  | 0x024 => .blf
  | 0x028 => .samplePeriod
  | 0x02C => .schmittRatio
  | 0x030 => .schmittHyst
  | 0x034 => .rtTol
  | 0x038 => .trTol
  | 0x040 => .msgType
  | 0x044 => .field 0
  | 0x048 => .field 1
  | 0x04C => .field 2
  | 0x050 => .field 3
  | 0x054 => .field 4
  | 0x058 => .field 5
  | 0x05C => .field 6
  | 0x060 => .field 7
  | 0x070 => .txType
  | 0x074 => .txLen
  | 0x078 => .txBits
  | 0x080 => .rxLen
  | 0x084 => .rxBits0
  | 0x088 => .rxBits1
  | 0x090 => .rxType
  | 0x094 => .rxField 0
  | 0x098 => .rxField 1
  | 0x09C => .rxField 2
  | 0x0A0 => .rxField 3
  | 0x0A4 => .rxField 4
  | 0x0A8 => .rxField 5
  | 0x0AC => .rxField 6
  | 0x0B0 => .rxField 7
  | 0x0C0 => .pulseCnt
  | 0x0C4 => .sampleCnt
  | 0x0C8 => .edgeCnt
  | 0x0CC => .resultCnt
  | _ => .unmapped

/-- Entry `i` of a buffer of `n` entries in a window of `cap`, unmapped at or above either (R86). -/
def entryOr (n cap : Nat) (mk : Nat → Loc) (i : Nat) : Loc :=
  if i < n ∧ i < cap then mk i else .unmapped

/-- What the word at a word-aligned byte address is (R86). -/
def locateAt (p : Params) (a : Nat) : Loc :=
  if a < 0x100 then regAt a
  else if a < pulseBase then .unmapped
  else if a < resultBase then entryOr p.nPulse 64 .pulse ((a - pulseBase) / 4)
  else if a < edgeBase then entryOr (32 * p.nResult) 256 .result ((a - resultBase) / 4)
  else if a < sampleBase then entryOr p.nEdge 4096 .edge ((a - edgeBase) / 4)
  else entryOr p.nSample 65536 .sample ((a - sampleBase) / 4)

/-- The word address an access reaches: address bits 1:0 are ignored (20_memory.md R85). -/
def wordAddr (a : Addr) : Nat := a.toNat - a.toNat % 4

/-- What an access reaches. -/
def locate (p : Params) (a : Addr) : Loc := locateAt p (wordAddr a)

/-- The bits a SAMPLE_MEM word holds: bits SAMPLE_W-1:0, the higher ones RAZ/WI (10_state.md R48). -/
def sampleMask (p : Params) (w : Word) : Word := BitVec.ofNat 32 (w.toNat % 2 ^ p.sampleW)

/-- The word an access to a buffer entry finds, a free value where nothing has written it (20_memory.md R87). -/
def bufferWord (s : State) (a : Nat) : Word := wordRead s.draws s.mem a

/-- `SAMPLE_MEM[0 .. SAMPLE_CNT)` as magnitudes, the window of EDGES (44_edge_decoder.md R290). -/
def sampleWindow (s : State) : List Nat :=
  (wordsRead s.draws s.mem sampleBase s.regs.sampleCnt.toNat).map fun w => (sampleMask s.par w).toNat

/-- `EDGE_MEM[0 .. EDGE_CNT)` as Q16.16 codes, the stream of DECODE (R320). -/
def edgeStream (s : State) : List Nat :=
  (wordsRead s.draws s.mem edgeBase s.regs.edgeCnt.toNat).map BitVec.toNat

/-- The first RX_LEN elements of RX_BITS0, RX_BITS1 (42_message_mux.md R222). -/
def rxSequence (r : Regs) : Bits := (unpackPair r.rxBits0 r.rxBits1).take r.rxLen.toNat

/-- The `n` leading elements of CRC_DATA, bit 31 first (41_crc5.md R176). -/
def crcOperand (r : Regs) (n : Nat) : Bits := (unpackWord r.crcData).take n

end Sys2Proof.Machine
end

