-- ==== Sys2Proof/Machine/Ops.lean ====
section
/-! DEFINITION. The shared operations: acceptance and completion of a command, a received message, the bus
accesses of the host, the reset input. -/

namespace Sys2Proof.Machine

/-- Acceptance of a command (45_control.md R350): ENG_CMD takes the word, ENG_STATE and BUSY are set, DONE and ERR
are cleared, nothing else of the core changes. The free latency of this command is looked up (log 4). -/
def accept (w : Word) (s : State) : State :=
  { s with engCmd := w, engState := .busy, done := false, err := .none,
           slack := Config.engineDelay s.accepted, accepted := s.accepted + 1 }

/-- Completion with a result code (45_control.md R351, 60_exceptions.md R373): the core's only form of trap entry.
ERR takes the code, ENG_STATE and BUSY are cleared, DONE is set, whether or not the command failed. -/
def complete (e : Err) (s : State) : State :=
  { s with err := e, engState := .idle, done := true }

/-- Power-on reset of the core, as the `rst` input applies it (70_reset_and_hazards.md R400, R401): every register
at its reset value, the engine IDLE (a running command is abandoned, none of its writes happen), the buffer contents
unspecified. The host's own state and the parameters are not the core's. -/
def powerOn (s : State) : State :=
  { s with regs := resetRegs, done := false, werr := false, err := .none, engState := .idle, engCmd := 0,
           mem := [], slack := 0, draws := s.draws + 1 }

/-- A message received by dispatch: RX_TYPE and every RX_FIELD slot written, unused slots 0, and the command
completed (42_message_mux.md R222). The five messages' meanings and PARSE share it. -/
def receive (t : MsgType) (v : Slots) (s : State) : State :=
  complete .none { s with regs := { s.regs with rxType := BitVec.ofNat 3 t.code, rxField := v } }

/-- The transmit buffer written by ASSEMBLE and ENCODE (42_message_mux.md R221). -/
def writeTx (t : MsgType) (b : Bits) (r : Regs) : Regs :=
  { r with txType := BitVec.ofNat 3 t.code, txLen := BitVec.ofNat 7 b.length, txBits := packWord b }

/-- Whether a location is in the output set of the command in ENG_CMD (45_control.md R355, the table). For
SOFT_RESET: every register of 10_state.md R53 except ID and, as for every command, STATUS (log 7). -/
def inOutputSet (i : Instr) (l : Loc) : Bool :=
  match i with
  | .crcInit => l == .crc
  | .crcFeed _ => l == .crc
  | .assemble => l == .txType || l == .txLen || l == .txBits
  | .parse => match l with
    | .rxType => true
    | .rxField _ => true
    | _ => false
  | .encode => match l with
    | .txType => true
    | .txLen => true
    | .txBits => true
    | .pulseCnt => true
    | .pulse _ => true
    | _ => false
  | .edges => match l with
    | .edgeCnt => true
    | .edge _ => true
    | _ => false
  | .decode => match l with
    | .resultCnt => true
    | .result _ => true
    | _ => false
  | .softReset => match l with
    | .id => false
    | .status => false
    | .pulse _ => false
    | .result _ => false
    | .edge _ => false
    | .sample _ => false
    | .unmapped => false
    | _ => true
  | .nop => false
  | .reserved8 => false
  | .reserved9 => false
  | .reservedA => false
  | .reservedB => false
  | .reservedC => false
  | .reservedD => false
  | .reservedE => false
  | .query _ _ _ _ _ _ _ => false
  | .queryAdjust _ _ => false
  | .queryRep _ => false
  | .ack _ => false
  | .nak => false

/-- The value a location holds, each register's defined bits zero-extended (00_scope.md R14, 10_state.md R31-R50).
CMD reads 0 (R33); an unmapped word reads 0 (20_memory.md R86). -/
def locValue (s : State) : Loc → Word
  | .id => 0x47324331#32
  | .ctrl => ctrlWord s.regs
  | .cmd => 0
  | .status => statusWord s
  | .crc => crcWord s.regs
  | .crcData => s.regs.crcData
  | .tari => s.regs.tari
  | .blf => s.regs.blf
  | .samplePeriod => s.regs.samplePeriod
  | .schmittRatio => s.regs.schmittRatio.setWidth 32
  | .schmittHyst => s.regs.schmittHyst.setWidth 32
  | .rtTol => s.regs.rtTol
  | .trTol => s.regs.trTol
  | .msgType => s.regs.msgType.setWidth 32
  | .field k => (s.regs.field.get k).setWidth 32
  | .txType => s.regs.txType.setWidth 32
  | .txLen => s.regs.txLen.setWidth 32
  | .txBits => s.regs.txBits
  | .rxLen => s.regs.rxLen.setWidth 32
  | .rxBits0 => s.regs.rxBits0
  | .rxBits1 => s.regs.rxBits1
  | .rxType => s.regs.rxType.setWidth 32
  | .rxField k => (s.regs.rxField.get k).setWidth 32
  | .pulseCnt => s.regs.pulseCnt.setWidth 32
  | .sampleCnt => s.regs.sampleCnt.setWidth 32
  | .edgeCnt => s.regs.edgeCnt.setWidth 32
  | .resultCnt => s.regs.resultCnt.setWidth 32
  | .pulse i => bufferWord s (pulseBase + 4 * i)
  | .result i => bufferWord s (resultBase + 4 * i)
  | .edge i => bufferWord s (edgeBase + 4 * i)
  | .sample i => sampleMask s.par (bufferWord s (sampleBase + 4 * i))
  | .unmapped => 0

/-- `MemRead(addr, 4)` (20_memory.md R80, R82, R89). While BUSY, a word of the running command's output set reads as
a free value (70_reset_and_hazards.md R411); every other word reads as it stands. -/
def busRead (a : Addr) (s : State) : Word :=
  if s.busy && inOutputSet (decodeCmd s.engCmd) (locate s.par a) then Config.busyRead s.draws (wordAddr a)
  else locValue s (locate s.par a)

/-- A write to STATUS: DONE and WERR are cleared by a 1, nothing else is writable (10_state.md R34). -/
def writeStatus (v : Word) (s : State) : State :=
  { s with done := s.done && !v.getLsbD 1, werr := s.werr && !v.getLsbD 2 }

/-- A write to a location of an IDLE core: a register's defined bits, a buffer entry, an acceptance for CMD; a
read-only register or memory and an unmapped word ignore it (20_memory.md R82, R86). -/
def locWrite (v : Word) (s : State) : Loc → State
  | .id => s
  | .ctrl => { s with regs := { s.regs with ie := v.getLsbD 0, trunc := v.getLsbD 1 } }
  | .cmd => accept v s
  | .status => writeStatus v s
  | .crc => s
  | .crcData => { s with regs := { s.regs with crcData := v } }
  | .tari => { s with regs := { s.regs with tari := v } }
  | .blf => { s with regs := { s.regs with blf := v } }
  | .samplePeriod => { s with regs := { s.regs with samplePeriod := v } }
  | .schmittRatio => { s with regs := { s.regs with schmittRatio := v.setWidth 16 } }
  | .schmittHyst => { s with regs := { s.regs with schmittHyst := v.setWidth 16 } }
  | .rtTol => { s with regs := { s.regs with rtTol := v } }
  | .trTol => { s with regs := { s.regs with trTol := v } }
  | .msgType => { s with regs := { s.regs with msgType := v.setWidth 3 } }
  | .field k => { s with regs := { s.regs with field := s.regs.field.set k (v.setWidth 16) } }
  | .txType => s
  | .txLen => s
  | .txBits => s
  | .rxLen => { s with regs := { s.regs with rxLen := v.setWidth 7 } }
  | .rxBits0 => { s with regs := { s.regs with rxBits0 := v } }
  | .rxBits1 => { s with regs := { s.regs with rxBits1 := v } }
  | .rxType => s
  | .rxField _ => s
  | .pulseCnt => s
  | .sampleCnt => { s with regs := { s.regs with sampleCnt := v.setWidth 17 } }
  | .edgeCnt => { s with regs := { s.regs with edgeCnt := v.setWidth 13 } }
  | .resultCnt => s
  | .pulse _ => s
  | .result _ => s
  | .edge i => { s with mem := wordWrite s.mem (edgeBase + 4 * i) v }
  | .sample i => { s with mem := wordWrite s.mem (sampleBase + 4 * i) (sampleMask s.par v) }
  | .unmapped => s

/-- `MemWrite(addr, 4, v)`. While `rst` is asserted the core is held in its reset state and the write has no effect
(70_reset_and_hazards.md R401, log 10). While BUSY, a write to any address but STATUS is ignored and sets WERR
(R410, R412); a write to STATUS acts as in IDLE. -/
def busWrite (a : Addr) (v : Word) (s : State) : State :=
  if s.rst then s
  else if s.busy then
    if locate s.par a = .status then writeStatus v s else { s with werr := true }
  else locWrite v s (locate s.par a)

/-- The host's program has moved past its first operation. -/
def popHost (s : State) : State := { s with host := s.host.tail }

/-- One operation from outside. A read's value goes to the front of `reads`, and the next draw is a fresh one
(log 5, 7). WAIT polls STATUS: it stays at the head while BUSY = 1 and is done when BUSY = 0 (30_encoding.md
R131). Asserting `rst` resets the core at once (70_reset_and_hazards.md R401). -/
def hostOp (op : HostOp) (s : State) : State :=
  match op with
  | .write a v => busWrite a v (popHost s)
  | .read a => { popHost s with reads := busRead a s :: s.reads, draws := s.draws + 1 }
  | .wait => if s.busy then s else popHost s
  | .rst level => if level then { powerOn (popHost s) with rst := true } else { popHost s with rst := false }

/-- The host's next step, none if it has nothing to do: the core keeps every value (60_exceptions.md R384). -/
def hostStep (s : State) : State :=
  match s.host with
  | [] => s
  | op :: _ => hostOp op s

/-- A step while `rst` is asserted: the core is held in the state of power-on reset (70_reset_and_hazards.md R401),
and the outside goes on. -/
def heldStep (s : State) : State := hostStep (powerOn s)

/-- A host step while a command runs: one fewer stands before its completion (log 4). -/
def busyHostStep (s : State) : State := hostStep { s with slack := s.slack - 1 }

/-- Whether the engine moves next: it is BUSY, and either the host has nothing to do or the free latency is used up
(45_control.md R351: the steps interleave in any fair order). -/
def engineTurn (s : State) : Bool := s.busy && (s.host.isEmpty || s.slack == 0)

/-- The instruction the engine runs at completion (45_control.md R351). -/
def fetch (s : State) : Instr := decodeCmd s.engCmd

/-- The message in the receive buffer, as PARSE's dispatch reads it (42_message_mux.md R222). -/
def fetchMessage (s : State) : Except Err Instr := decodeMsg (rxSequence s.regs)

/-- `s` with a CMD word accepted and due to complete at the very next step (45_control.md R350). -/
def placeCmd (w : Word) (s : State) : State :=
  { s with rst := false, engCmd := w, engState := .busy, done := false, err := .none, slack := 0 }

/-- `s` with a packed message in the receive buffer and an accepted PARSE due to complete at the very next step:
that is how the core comes to dispatch a message (42_message_mux.md R222). -/
def placeMessage (w : Word) (s : State) : State :=
  placeCmd 0x4 { s with regs := { s.regs with rxLen := 32, rxBits0 := w, rxBits1 := 0 } }

/-- `s` with a word of the opcode table where the engine runs it next (log 2, 3). -/
def placeTableWord (s : State) (nbits w : Nat) : State :=
  if tableWordIsMessage nbits w then placeMessage (BitVec.ofNat 32 w) s
  else placeCmd (BitVec.ofNat 32 w) s

end Sys2Proof.Machine
end

