-- ==== Sys2Proof/Machine/Control.lean ====
section
/-! DEFINITION. The control commands: NOP, SOFT_RESET and the reserved OP codes (45_control.md R352-R354). -/

namespace Sys2Proof.Machine

/-- NOP (R352): nothing but the completion bookkeeping. -/
def execNop (s : State) : Host.Outcome State Fault Refusal :=
  .next (complete .none s)

/-- SOFT_RESET (R353): every register of 10_state.md R53 to its reset value, ENG_CMD among them (log 11), WERR
cleared, the buffer memories unchanged (70_reset_and_hazards.md R402); then the completion. -/
def execSoftReset (s : State) : Host.Outcome State Fault Refusal :=
  .next (complete .none { s with regs := resetRegs, werr := false, engCmd := 0 })

/-- A reserved OP code (R354): `raise Err(Illegal)`, no write besides the completion bookkeeping. -/
def illegalOp (s : State) : State := complete .illegal s

/-- OP 0x8 (R354). -/
def execReserved8 (s : State) : Host.Outcome State Fault Refusal := .next (illegalOp s)

/-- OP 0x9 (R354). -/
def execReserved9 (s : State) : Host.Outcome State Fault Refusal := .next (illegalOp s)

/-- OP 0xA (R354). -/
def execReservedA (s : State) : Host.Outcome State Fault Refusal := .next (illegalOp s)

/-- OP 0xB (R354). -/
def execReservedB (s : State) : Host.Outcome State Fault Refusal := .next (illegalOp s)

/-- OP 0xC (R354). -/
def execReservedC (s : State) : Host.Outcome State Fault Refusal := .next (illegalOp s)

/-- OP 0xD (R354). -/
def execReservedD (s : State) : Host.Outcome State Fault Refusal := .next (illegalOp s)

/-- OP 0xE (R354). -/
def execReservedE (s : State) : Host.Outcome State Fault Refusal := .next (illegalOp s)

end Sys2Proof.Machine
end

