-- ==== Sys2Proof/Machine/CrcCommands.lean ====
section
/-! DEFINITION. The host commands of the CRC5 generator (41_crc5.md R175-R177). -/

namespace Sys2Proof.Machine

/-- CRC_INIT (R175): CRC_REG takes the preset. -/
def execCrcInit (s : State) : Host.Outcome State Fault Refusal :=
  .next (complete .none { s with regs := { s.regs with crcReg := crcPreset } })

/-- CRC_FEED (R176): Param and nothing written when ARG is 0 or above 32, else that many bits of CRC_DATA fed, bit
31 first. -/
def execCrcFeed (n : BitVec 6) (s : State) : Host.Outcome State Fault Refusal :=
  if n.toNat = 0 ∨ 32 < n.toNat then .next (complete .param s)
  else
    .next (complete .none
      { s with regs := { s.regs with crcReg := crcFeed s.regs.crcReg (crcOperand s.regs n.toNat) } })

end Sys2Proof.Machine
end

