-- ==== Sys2Proof/Machine/EdgeDetector.lean ====
section
/-! DEFINITION. Stage A: samples to edges, and EDGES (44_edge_decoder.md R290-R296). -/

namespace Sys2Proof.Machine

/-- The Schmitt comparator of a window (R290): `ratio` and `hyst` are Q0.16 codes, `mn` and `rng` the window's minimum
and range. -/
structure Schmitt where
  ratio : Nat
  hyst : Nat
  mn : Nat
  rng : Nat
  deriving DecidableEq, Repr

/-- The comparator of a window of samples (R290). -/
def schmittOf (ratio hyst : Nat) (w : List Nat) : Schmitt :=
  let mn := w.foldl Nat.min (w.headD 0)
  { ratio := ratio, hyst := hyst, mn := mn, rng := w.foldl Nat.max 0 - mn }

/-- `S[i] > thHigh` with `thHigh = mn + (ratio + hyst)·rng`, exactly (R290, R291): both sides times 2^16. -/
def Schmitt.rises (c : Schmitt) (x : Nat) : Bool :=
  decide (2 ^ 16 * c.mn + (c.ratio + c.hyst) * c.rng < 2 ^ 16 * x)

/-- `S[i] < thLow` with `thLow = mn + (ratio - hyst)·rng`, exactly (R290, R291): both sides times 2^16, and the
subtracted term moved over, since thLow may be below `mn` (R293). -/
def Schmitt.falls (c : Schmitt) (x : Nat) : Bool :=
  decide (2 ^ 16 * x + c.hyst * c.rng < 2 ^ 16 * c.mn + c.ratio * c.rng)

/-- `sat32` (R291, R296). -/
def sat32 (x : Nat) : Nat := min x (2 ^ 32 - 1)

/-- The recording loop (R291) from sample `i` on, with the last recorded rising edge and the raised state; the edges
recorded, then the two at the end. -/
def recordEdges (c : Schmitt) (ts : Nat) : List Nat → Nat → Nat → Bool → List Nat × Nat × Bool
  | [], _, last, raised => ([], last, raised)
  | x :: xs, i, last, raised =>
      if !raised && c.rises x then
        let r := recordEdges c ts xs (i + 1) i true
        (sat32 ((i - last) * ts) :: r.1, r.2)
      else if raised && c.falls x then recordEdges c ts xs (i + 1) last false
      else recordEdges c ts xs (i + 1) last raised

/-- Stage A (R290-R292): the edges of a window, with the closing duration when the flush is on, an edge was recorded
and the window ends low. -/
def stageA (flush : Bool) (ratio hyst ts : Nat) (w : List Nat) : List Nat :=
  let r := recordEdges (schmittOf ratio hyst w) ts w 0 0 false
  if flush && !r.1.isEmpty && !r.2.2 then r.1 ++ [sat32 ((w.length - r.2.1) * ts)] else r.1

/-- EDGES (R295): Param and nothing written when SAMPLE_CNT exceeds N_SAMPLE or SAMPLE_PERIOD is 0; else the edges
that fit, their count, and Capacity if some did not (R294). -/
def execEdges (s : State) : Host.Outcome State Fault Refusal :=
  if s.par.nSample < s.regs.sampleCnt.toNat ∨ s.regs.samplePeriod = 0 then .next (complete .param s)
  else
    let e := stageA s.par.endFlush s.regs.schmittRatio.toNat s.regs.schmittHyst.toNat s.regs.samplePeriod.toNat
      (sampleWindow s)
    let kept := e.take s.par.nEdge
    .next (complete (if s.par.nEdge < e.length then .capacity else .none)
      { s with regs := { s.regs with edgeCnt := BitVec.ofNat 13 kept.length },
               mem := wordsWrite s.mem edgeBase (kept.map (BitVec.ofNat 32)), draws := s.draws + 1 })

end Sys2Proof.Machine
end

