-- ==== Sys2Proof/Machine/PieEncoder.lean ====
section
/-! DEFINITION. The PIE pulse encoder (43_pie_encoder.md). Durations are Q16.16 codes, natural numbers until they are
written to a word (00_scope.md R15, R16). `t` is the code in TARI. -/

namespace Sys2Proof.Machine

/-- PW (R252): `floor(T / 2)`. -/
def pulseWidth (t : Nat) : Nat := t / 2

/-- DATA0 (R253). -/
def data0Symbol (t : Nat) : List Nat := [pulseWidth t, pulseWidth t]

/-- DATA1 (R253): a high phase of `floor(3·T / 2)`. -/
def data1Symbol (t : Nat) : List Nat := [3 * t / 2, pulseWidth t]

/-- The symbol of one bit (R257). -/
def dataSymbol (t : Nat) (b : Bool) : List Nat := if b then data1Symbol t else data0Symbol t

/-- RTCAL (R254): totals exactly `3·T`. -/
def rtcalSymbol (t : Nat) : List Nat := [3 * t - pulseWidth t, pulseWidth t]

/-- FRAME_SYNC (R254). -/
def frameSync (t : Nat) : List Nat := delim :: data0Symbol t ++ rtcalSymbol t

/-- `floor(dr · 2^32 / x)` for the divide ratio of a DR code: 8 for 0, 64/3 for 1 (R250, R255, 30_encoding.md R109). -/
def divideRatioOver (dr : Code) (x : Nat) : Nat :=
  if dr = 1 then 64 * 2 ^ 32 / (3 * x) else 8 * 2 ^ 32 / x

/-- TRCAL (R255): totals TRC. -/
def trcalSymbol (t trc : Nat) : List Nat := [trc - pulseWidth t, pulseWidth t]

/-- PREAMBLE (R255). -/
def preamble (t trc : Nat) : List Nat := frameSync t ++ trcalSymbol t trc

/-- The parameter checks of R256, in its order; 2 to 4 for a Query alone. -/
def checkTiming (m : MsgType) (dr : Code) (t blf : Nat) : Except Err Unit :=
  if ¬(minTari ≤ t ∧ t ≤ maxTari) then .error .param
  else if m ≠ .query then .ok ()
  else if blf = 0 then .error .param
  else if ¬(pulseWidth t < divideRatioOver dr blf) then .error .param
  else if ¬(divideRatioOver dr blf < 2 ^ 32) then .error .param
  else .ok ()

/-- The pulse sequence of a message (R257). -/
def toPulses (m : MsgType) (b : Bits) (dr : Code) (t blf : Nat) : List Nat :=
  (if m = .query then preamble t (divideRatioOver dr blf) else frameSync t) ++ b.flatMap (dataSymbol t)

/-- Integer truncation (R258): whole microseconds, per pulse. -/
def truncatePulse (u : Nat) : Nat := u / 2 ^ 16 * 2 ^ 16

/-- The pulses ENCODE writes: synthesised, and truncated when CTRL.TRUNC = 1 (R258). -/
def synthesise (trunc : Bool) (m : MsgType) (b : Bits) (dr : Code) (t blf : Nat) : List Nat :=
  if trunc then (toPulses m b dr t blf).map truncatePulse else toPulses m b dr t blf

/-- ENCODE (R259): assembly, then the checks, then Capacity; on any error nothing is written. -/
def execEncode (s : State) : Host.Outcome State Fault Refusal :=
  match assembleMsg s.regs.msgType.toNat s.regs.field with
  | .error e => .next (complete e s)
  | .ok (m, b) =>
      match checkTiming m s.regs.field.f0 s.regs.tari.toNat s.regs.blf.toNat with
      | .error e => .next (complete e s)
      | .ok () =>
          let p := synthesise s.regs.trunc m b s.regs.field.f0 s.regs.tari.toNat s.regs.blf.toNat
          if s.par.nPulse < p.length then .next (complete .capacity s)
          else
            .next (complete .none
              { s with regs := { writeTx m b s.regs with pulseCnt := BitVec.ofNat 7 p.length },
                       mem := wordsWrite s.mem pulseBase (p.map (BitVec.ofNat 32)) })

end Sys2Proof.Machine
end

