-- ==== Sys2Proof/Machine/EdgeDecoder.lean ====
section
/-! DEFINITION. Stages B to E: split at idle gaps, calibration and bit recovery, dispatch, backscatter derivation, the
result records, and DECODE (44_edge_decoder.md R297-R321). -/

namespace Sys2Proof.Machine

/-- A non-empty sub-sequence with its first index in EDGE_MEM, or nothing (R297). -/
def closeSub (start : Nat) (cur : List Nat) : List (Nat × List Nat) :=
  if cur.isEmpty then [] else [(start, cur)]

/-- The split loop (R297) from edge `i` on. -/
def splitFrom (i start : Nat) (cur : List Nat) : List Nat → List (Nat × List Nat)
  | [] => closeSub start cur
  | e :: es =>
      if maxSymbol < e then closeSub start cur ++ splitFrom (i + 1) start [] es
      else splitFrom (i + 1) (if cur.isEmpty then i else start) (cur ++ [e]) es

/-- Stage B (R297). -/
def splitEdges (es : List Nat) : List (Nat × List Nat) := splitFrom 0 0 [] es

/-- The phases of stage C (R300, 90_conflicts.md C9). -/
inductive Phase where
  | awaitRTcal
  | awaitTRcalOrData
  | data
  deriving DecidableEq, Repr

/-- A decode session (R300), with the number of edges used (R307). -/
structure Session where
  phase : Phase
  tari : Option Nat
  rtCal : Option Nat
  trCal : Option Nat
  bits : Bits
  used : Nat
  term : Bool
  bitovf : Bool
  deriving DecidableEq, Repr

/-- A fresh session (R300). -/
def Session.fresh : Session :=
  { phase := .awaitRTcal, tari := none, rtCal := none, trCal := none, bits := [], used := 0, term := false,
    bitovf := false }

/-- The Tari window (R301). -/
def inTari (p : Nat) : Bool := decide (minTari ≤ p ∧ p ≤ maxTari)

/-- The RTcal band (R302): `2·d >= 5·p - 2·RT_TOL` and `d <= 3·p + RT_TOL`. -/
def inRT (tol p d : Nat) : Bool := decide (5 * p ≤ 2 * d + 2 * tol ∧ d ≤ 3 * p + tol)

/-- The TRcal band (R304): `10·d >= 11·r - 10·TR_TOL` and `d <= 3·r + TR_TOL`. -/
def inTR (tol r d : Nat) : Bool := decide (11 * r ≤ 10 * d + 10 * tol ∧ d ≤ 3 * r + tol)

/-- A data bit (R305): kept while fewer than MAX_BITS are stored, else BITOVF. -/
def pushBit (b : Bool) (x : Session) : Session :=
  if x.bits.length < maxBits then { x with bits := x.bits ++ [b] } else { x with bitovf := true }

/-- Data classification (R305): bit 1 if `2·d > rtCal`. In the two phases that classify, rtCal is resolved. -/
def classify (x : Session) (d : Nat) : Bool := decide (x.rtCal.getD 0 < 2 * d)

/-- One duration of stage C (R307): `prev` is the duration before it in the sub-sequence, none for the first. -/
def sessionStep (rtTol trTol : Nat) (prev : Option Nat) (d : Nat) (x : Session) : Session :=
  match x.phase with
  | .awaitRTcal =>
      match prev with
      | none => x
      | some p =>
          if inTari p && inRT rtTol p d then
            { x with tari := some p, rtCal := some d, phase := .awaitTRcalOrData }
          else x
  | .awaitTRcalOrData =>
      if inTR trTol (x.rtCal.getD 0) d then { x with trCal := some d, phase := .data }
      else { pushBit (classify x d) x with phase := .data }
  | .data => pushBit (classify x d) x

/-- Stage C's loop (R306, R307): a duration above CMD_END ends the command and is not consumed. -/
def runSession (cmdEnd rtTol trTol : Nat) : List Nat → Option Nat → Session → Session
  | [], _, x => x
  | d :: ds, prev, x =>
      if cmdEnd < d then { x with term := true }
      else runSession cmdEnd rtTol trTol ds (some d) (sessionStep rtTol trTol prev d { x with used := x.used + 1 })

/-- Stage C (R307): the session of one sub-sequence, from a fresh one. -/
def fromEdges (cmdEnd rtTol trTol : Nat) (sub : List Nat) : Session :=
  runSession cmdEnd rtTol trTol sub none Session.fresh

/-- Stage E (R311): the observed backscatter frequency code, none unless a Query was dispatched, TRcal is resolved
and positive, and the code fits its word. -/
def observedBlf (res : Except Err (MsgType × Slots)) (trCal : Option Nat) : Option Nat :=
  match res, trCal with
  | .ok (.query, v), some r =>
      if 0 < r ∧ divideRatioOver v.f0 r < 2 ^ 32 then some (divideRatioOver v.f0 r) else none
  | _, _ => none

/-- CRC_OK (R314): a dispatched Query of at least 22 stored bits whose first 22 leave residue zero. -/
def crcOk (res : Except Err (MsgType × Slots)) (bits : Bits) : Bool :=
  match res with
  | .ok (.query, _) => decide (22 ≤ bits.length) && crc5 (bits.take 22) == [false, false, false, false, false]
  | _ => false

/-- The FLAGS word of a record (R312, 10_state.md R50). -/
def flagsOf (x : Session) (res : Except Err (MsgType × Slots)) : Nat :=
  recordFlags x.tari.isSome x.trCal.isSome (match res with | .ok _ => true | .error _ => false)
    (observedBlf res x.trCal).isSome x.bitovf (crcOk res x.bits) x.term
    (match res with | .ok _ => 0 | .error e => e.code) (match res with | .ok (t, _) => t.code | .error _ => 0)

/-- The field slots of a record: 0 where dispatch failed (R312). -/
def recordSlots (res : Except Err (MsgType × Slots)) : Slots :=
  match res with
  | .ok (_, v) => v
  | .error _ => Slots.zero

/-- The 32 words of one result record (R312, 10_state.md R50). -/
def recordWords (cmdEnd rtTol trTol start : Nat) (sub : List Nat) : List Word :=
  let x := fromEdges cmdEnd rtTol trTol sub
  let res := dispatch x.bits
  ([flagsOf x res, x.tari.getD 0, x.rtCal.getD 0, x.trCal.getD 0, (observedBlf res x.trCal).getD 0,
      start, start + x.used, x.bits.length].map (BitVec.ofNat 32)) ++
    [packWord x.bits, packWord (x.bits.drop 32)] ++
    (recordSlots res).toList.map (BitVec.setWidth 32) ++
    List.replicate 14 0

/-- DECODE (R320): Param and nothing written when EDGE_CNT exceeds N_EDGE; else one record per sub-sequence that fits,
their count, and Capacity if some did not. -/
def execDecode (s : State) : Host.Outcome State Fault Refusal :=
  if s.par.nEdge < s.regs.edgeCnt.toNat then .next (complete .param s)
  else
    let subs := splitEdges (edgeStream s)
    let kept := subs.take s.par.nResult
    .next (complete (if s.par.nResult < subs.length then .capacity else .none)
      { s with regs := { s.regs with resultCnt := BitVec.ofNat 4 kept.length },
               mem := wordsWrite s.mem resultBase
                 (kept.flatMap fun sub =>
                   recordWords s.par.cmdEnd s.regs.rtTol.toNat s.regs.trTol.toNat sub.1 sub.2),
               draws := s.draws + 1 })

end Sys2Proof.Machine
end

