-- ==== Sys2Proof/Machine/MessageMux.lean ====
section
/-! DEFINITION. The host commands of the message multiplexer (42_message_mux.md R221, R222). -/

namespace Sys2Proof.Machine

/-- ASSEMBLE (R221): the message of MSG_TYPE and FIELD into the transmit buffer; on an error nothing is written. -/
def execAssemble (s : State) : Host.Outcome State Fault Refusal :=
  match assembleMsg s.regs.msgType.toNat s.regs.field with
  | .error e => .next (complete e s)
  | .ok (t, b) => .next (complete .none { s with regs := writeTx t b s.regs })

/-- PARSE (R222): the sequence in the receive buffer dispatched; on an error nothing is written. -/
def execParse (s : State) : Host.Outcome State Fault Refusal :=
  if maxBits < s.regs.rxLen.toNat then .next (complete .param s)
  else
    match dispatch (rxSequence s.regs) with
    | .error e => .next (complete e s)
    | .ok (t, v) => .next (receive t v s)

end Sys2Proof.Machine
end

