-- ==== Sys2Proof/Machine/Messages.lean ====
section
/-! DEFINITION. The five Gen2 messages as the core executes them (42_message_mux.md R207-R211): a message that
dispatch has recognised is recorded in RX_TYPE and RX_FIELD and the command that dispatched it completes (R222;
log 1). What a tag does on receiving one is out of scope. -/

namespace Sys2Proof.Machine

/-- Query (R207): slots DR, M, TRext, Sel, Session, Target, Q. -/
def execQuery (dr m trext sel session target q : Code) (s : State) : Host.Outcome State Fault Refusal :=
  .next (receive .query ⟨dr, m, trext, sel, session, target, q, 0⟩ s)

/-- QueryAdjust (R208): slots Session, UpDn. -/
def execQueryAdjust (session updn : Code) (s : State) : Host.Outcome State Fault Refusal :=
  .next (receive .queryAdjust ⟨session, updn, 0, 0, 0, 0, 0, 0⟩ s)

/-- QueryRep (R209): slot Session. -/
def execQueryRep (session : Code) (s : State) : Host.Outcome State Fault Refusal :=
  .next (receive .queryRep ⟨session, 0, 0, 0, 0, 0, 0, 0⟩ s)

/-- ACK (R210): slot RN16. -/
def execAck (rn16 : Code) (s : State) : Host.Outcome State Fault Refusal :=
  .next (receive .ack ⟨rn16, 0, 0, 0, 0, 0, 0, 0⟩ s)

/-- NAK (R211): no slot. -/
def execNak (s : State) : Host.Outcome State Fault Refusal :=
  .next (receive .nak Slots.zero s)

end Sys2Proof.Machine
end

