-- ==== Sys2Proof/Machine/Dispatch.lean ====
section
/-! DEFINITION. The dispatch of every instruction to its meaning. -/

namespace Sys2Proof.Machine

/-- The effect of one instruction: the engine's completion step for it (45_control.md R351). -/
def exec (i : Instr) (s : State) : Host.Outcome State Fault Refusal :=
  match i with
  | .query dr m trext sel session target q => Sys2Proof.Machine.execQuery dr m trext sel session target q s
  | .queryAdjust session updn => Sys2Proof.Machine.execQueryAdjust session updn s
  | .queryRep session => Sys2Proof.Machine.execQueryRep session s
  | .ack rn16 => Sys2Proof.Machine.execAck rn16 s
  | .nak => Sys2Proof.Machine.execNak s
  | .nop => Sys2Proof.Machine.execNop s
  | .crcInit => Sys2Proof.Machine.execCrcInit s
  | .crcFeed n => Sys2Proof.Machine.execCrcFeed n s
  | .assemble => Sys2Proof.Machine.execAssemble s
  | .parse => Sys2Proof.Machine.execParse s
  | .encode => Sys2Proof.Machine.execEncode s
  | .edges => Sys2Proof.Machine.execEdges s
  | .decode => Sys2Proof.Machine.execDecode s
  | .reserved8 => Sys2Proof.Machine.execReserved8 s
  | .reserved9 => Sys2Proof.Machine.execReserved9 s
  | .reservedA => Sys2Proof.Machine.execReservedA s
  | .reservedB => Sys2Proof.Machine.execReservedB s
  | .reservedC => Sys2Proof.Machine.execReservedC s
  | .reservedD => Sys2Proof.Machine.execReservedD s
  | .reservedE => Sys2Proof.Machine.execReservedE s
  | .softReset => Sys2Proof.Machine.execSoftReset s

end Sys2Proof.Machine
end

