-- ==== Sys2Proof/Machine/Step.lean ====
section
/-! DEFINITION. The step of the machine, and where the host places a table word. -/

namespace Sys2Proof.Machine

/-- One atomic step (00_scope.md R20): a command's completion when it is the engine's turn, else one operation of
the host. While `rst` is asserted the engine makes no step. -/
def step (s : State) : Host.Outcome State Fault Refusal :=
  if s.rst then .next (heldStep s)
  else if engineTurn s then exec (fetch s) s
  else if s.busy then .next (busyHostStep s)
  else .next (hostStep s)

/-- `s` with a word of the opcode table where the very next step runs it (log 2, 3). -/
def State.withFetchWord (s : State) (nbits w : Nat) : State := placeTableWord s nbits w

end Sys2Proof.Machine
end

