-- ==== Sys2Proof/Machine/Assembler.lean ====
section
/-! DEFINITION. The host program syntax as bus operations, and message literals (30_encoding.md R125-R132). -/

namespace Sys2Proof.Machine

/-- `addr(reg)` of a register or buffer entry (30_encoding.md R130, 20_memory.md R86); none for what is no
register. -/
def locAddr : Loc → Option Nat
  | .id => some 0x000
  | .ctrl => some 0x004
  | .cmd => some 0x008
  | .status => some 0x00C
  | .crc => some 0x010
  | .crcData => some 0x014
  | .tari => some 0x020
  | .blf => some 0x024
  | .samplePeriod => some 0x028
  | .schmittRatio => some 0x02C
  | .schmittHyst => some 0x030
  | .rtTol => some 0x034
  | .trTol => some 0x038
  | .msgType => some 0x040
  | .field k => some (0x044 + 4 * k.val)
  | .txType => some 0x070
  | .txLen => some 0x074
  | .txBits => some 0x078
  | .rxLen => some 0x080
  | .rxBits0 => some 0x084
  | .rxBits1 => some 0x088
  | .rxType => some 0x090
  | .rxField k => some (0x094 + 4 * k.val)
  | .pulseCnt => some 0x0C0
  | .sampleCnt => some 0x0C4
  | .edgeCnt => some 0x0C8
  | .resultCnt => some 0x0CC
  | .pulse i => some (pulseBase + 4 * i)
  | .result i => some (resultBase + 4 * i)
  | .edge i => some (edgeBase + 4 * i)
  | .sample i => some (sampleBase + 4 * i)
  | .unmapped => none

/-- `WR <reg>, <value>` (R130). -/
def wr (l : Loc) (v : Nat) : HostOp := .write (BitVec.ofNat 20 ((locAddr l).getD 0xFC)) (BitVec.ofNat 32 v)

/-- `RD <reg>` (R130). -/
def rd (l : Loc) : HostOp := .read (BitVec.ofNat 20 ((locAddr l).getD 0xFC))

/-- `CMD <OP>, <arg>`: the pseudo-instruction `WR CMD, (arg << 8) | OP` (R132). -/
def startCmd (op : BitVec 4) (arg : BitVec 6) : HostOp := .write 0x008 (cmdWord op arg)

/-- The semantic value of a DR code as a literal writes it (R109, R125). -/
def drText (c : Code) : String := if c = 1 then "64/3" else "8"

/-- The semantic value of a Sel code (R112). -/
def selText (c : Code) : String :=
  if c = 0 then "\"all\"" else if c = 1 then "\"all1\"" else if c = 2 then "\"~SL\"" else "\"SL\""

/-- The semantic value of an UpDn code (R115). -/
def updnText (c : Code) : String := if c = 0 then "0" else if c = 1 then "+1" else "-1"

/-- A message literal (R125), none for a host command. -/
def literal : Instr → Option String
  | .query dr m trext sel session target q =>
      some ("Query(dr=" ++ drText dr ++ ", m=" ++ toString m.toNat ++ ", trExt=" ++
        (if trext = 0 then "false" else "true") ++ ", sel=" ++ selText sel ++ ", session=" ++
        toString session.toNat ++ ", target=" ++ (if target = 0 then "\"a\"" else "\"b\"") ++ ", q=" ++
        toString q.toNat ++ ")")
  | .queryAdjust session updn =>
      some ("QueryAdjust(session=" ++ toString session.toNat ++ ", updn=" ++ updnText updn ++ ")")
  | .queryRep session => some ("QueryRep(session=" ++ toString session.toNat ++ ")")
  | .ack rn16 => some ("ACK(rn16=" ++ toString rn16.toNat ++ ")")
  | .nak => some "NAK()"
  | .nop => none
  | .crcInit => none
  | .crcFeed _ => none
  | .assemble => none
  | .parse => none
  | .encode => none
  | .edges => none
  | .decode => none
  | .reserved8 => none
  | .reserved9 => none
  | .reservedA => none
  | .reservedB => none
  | .reservedC => none
  | .reservedD => none
  | .reservedE => none
  | .softReset => none

end Sys2Proof.Machine
end

