-- ==== Sys2Proof/Machine/TestBench.lean ====
section
/-! DEFINITION. The test-bench reference function of 43_pie_encoder.md R262. It is not a hardware operation and no step
calls it; the end-to-end property of 44_edge_decoder.md R322 is stated with it. -/

namespace Sys2Proof.Machine

/-- `toSamples(p, TS)` (R262) with the level of the first pulse given: each pulse becomes `floor(p[i] / TS)` copies of
its level, and the level toggles. -/
def samplesFrom (ts : Nat) : Nat → List Nat → List Nat
  | _, [] => []
  | level, p :: ps => List.replicate (p / ts) level ++ samplesFrom ts (1 - level) ps

/-- `toSamples(p, TS)` (R262): levels start at 0. -/
def toSamples (ts : Nat) (pulses : List Nat) : List Nat := samplesFrom ts 0 pulses

end Sys2Proof.Machine
end

