-- ==== Sys2Proof/WellFormed.lean ====
section
/-! DEFINITION. Which instruction terms an encoding exists for: the field domains of 30_encoding.md R109-R116,
written out beside, and independently of, the codec tables of Machine/Message.lean. -/

namespace Sys2Proof

/-- DR (R109): codes 0 and 1. -/
def drOk (c : Code) : Bool := decide (c.toNat < 2)

/-- M (R110): the code is the M value, 1, 2, 4 or 8. -/
def mOk (c : Code) : Bool := c.toNat == 1 || c.toNat == 2 || c.toNat == 4 || c.toNat == 8

/-- TRext (R111): codes 0 and 1. -/
def trextOk (c : Code) : Bool := decide (c.toNat < 2)

/-- Sel (R112): codes 0 to 3. -/
def selOk (c : Code) : Bool := decide (c.toNat < 4)

/-- Session (R113): a Value of two bits. -/
def sessionOk (c : Code) : Bool := decide (c.toNat < 4)

/-- Target (R114): codes 0 and 1. -/
def targetOk (c : Code) : Bool := decide (c.toNat < 2)

/-- UpDn (R115): codes 0, 1 and 2. -/
def updnOk (c : Code) : Bool := decide (c.toNat < 3)

/-- Q (R116): a Value of four bits. -/
def qOk (c : Code) : Bool := decide (c.toNat < 16)

/-- The instruction has an encoding. RN16 takes every 16-bit code (R116), and every CMD operand fits its field
(R120, R121), so only the message fields are checked. -/
def Instr.wellFormed : Instr → Bool
  | .query dr m trext sel session target q =>
      drOk dr && mOk m && trextOk trext && selOk sel && sessionOk session && targetOk target && qOk q
  | .queryAdjust session updn => sessionOk session && updnOk updn
  | .queryRep session => sessionOk session
  | .ack _ => true
  | .nak => true
  | .nop => true
  | .crcInit => true
  | .crcFeed _ => true
  | .assemble => true
  | .parse => true
  | .encode => true
  | .edges => true
  | .decode => true
  | .reserved8 => true
  | .reserved9 => true
  | .reservedA => true
  | .reservedB => true
  | .reservedC => true
  | .reservedD => true
  | .reservedE => true
  | .softReset => true

end Sys2Proof
end

