-- ==== Sys2Proof/Safety.lean ====
section
/-! DEFINITION. The terms the statements use: the invariant every step keeps, which instructions are host commands,
and the spec's tables and field domains written out as plain lists and conditions. -/

namespace Sys2Proof.Machine

/-- A byte address that lies in a buffer entry that exists (20_memory.md R86). -/
def isBufferByte (p : Params) (a : Nat) : Bool :=
  match locateAt p (a - a % 4) with
  | .pulse _ => true
  | .result _ => true
  | .edge _ => true
  | .sample _ => true
  | _ => false

/-- The slots past a message type's fields are 0 (10_state.md R46: unused slots read 0); a code that names no type
makes no claim. -/
def unusedSlotsZero (code : Nat) (v : Slots) : Bool :=
  match MsgType.ofCode code with
  | none => true
  | some t => (v.toList.drop t.fields.length).all (· == 0)

/-- The core is as power-on reset leaves it, its parameters and the outside apart (70_reset_and_hazards.md R400). -/
def atReset (s : State) : Prop :=
  s.regs = resetRegs ∧ s.done = false ∧ s.werr = false ∧ s.err = .none ∧ s.engState = .idle ∧ s.engCmd = 0 ∧ s.mem = []

/-- The invariant of the machine. The parameters are legal (00_scope.md R10); the memory keeps its canonical form and
lists only bytes of buffer entries that exist (20_memory.md R86); DONE and ERR are clear while BUSY (45_control.md
R350); TX_LEN is at most 22 and the bits of TX_BITS past it are 0 (10_state.md R44); TX_TYPE and RX_TYPE name a
message type and the unused RX_FIELD slots are 0 (R44, R46); PULSE_CNT and RESULT_CNT stay within their buffers (R47,
R50); while `rst` is asserted the core is as power-on reset leaves it (70_reset_and_hazards.md R401). -/
structure State.Inv (s : State) : Prop where
  params : legalParams s.par = true
  canonical : Memory.wf s.mem = true
  mapped : ∀ c ∈ s.mem, isBufferByte s.par c.1 = true
  busyClear : s.busy = true → s.done = false ∧ s.err = .none
  txLen : s.regs.txLen.toNat ≤ 22
  txBits : s.regs.txBits.toNat % 2 ^ (32 - s.regs.txLen.toNat) = 0
  txType : s.regs.txType.toNat ≤ 4
  rxType : s.regs.rxType.toNat ≤ 4
  rxUnused : unusedSlotsZero s.regs.rxType.toNat s.regs.rxField = true
  pulses : s.regs.pulseCnt.toNat ≤ s.par.nPulse
  results : s.regs.resultCnt.toNat ≤ s.par.nResult
  held : s.rst = true → atReset s

/-- The host commands of 30_encoding.md R120; the other instructions are the Gen2 messages. -/
def isCommand : Instr → Bool
  | .query _ _ _ _ _ _ _ => false
  | .queryAdjust _ _ => false
  | .queryRep _ => false
  | .ack _ => false
  | .nak => false
  | .nop => true
  | .crcInit => true
  | .crcFeed _ => true
  | .assemble => true
  | .parse => true
  | .encode => true
  | .edges => true
  | .decode => true
  | .reserved8 => true
  | .reserved9 => true
  | .reservedA => true
  | .reservedB => true
  | .reservedC => true
  | .reservedD => true
  | .reservedE => true
  | .softReset => true

/-- The reset table of 10_state.md R53: bus address and value read after power-on reset (CMD reads 0). -/
def resetTable : List (Nat × Nat) :=
  [(0x000, 0x47324331), (0x004, 0), (0x008, 0), (0x00C, 0), (0x010, 0x9), (0x014, 0), (0x020, 0), (0x024, 0),
   (0x028, 0), (0x02C, 0x8000), (0x030, 0x199A), (0x034, 0), (0x038, 0), (0x040, 0)] ++
  [(0x044, 0), (0x048, 0), (0x04C, 0), (0x050, 0), (0x054, 0), (0x058, 0), (0x05C, 0), (0x060, 0),
   (0x070, 0), (0x074, 0), (0x078, 0), (0x080, 0), (0x084, 0), (0x088, 0), (0x090, 0)] ++
  [(0x094, 0), (0x098, 0), (0x09C, 0), (0x0A0, 0), (0x0A4, 0), (0x0A8, 0), (0x0AC, 0), (0x0B0, 0),
   (0x0C0, 0), (0x0C4, 0), (0x0C8, 0), (0x0CC, 0)]

/-- The read/write registers of 10_state.md R32-R49: bus address and the mask of the bits that are stored. CMD and
STATUS are not among them: their writes do something else. -/
def storedBits : List (Nat × Nat) :=
  [(0x004, 0x3), (0x014, 0xFFFFFFFF), (0x020, 0xFFFFFFFF), (0x024, 0xFFFFFFFF), (0x028, 0xFFFFFFFF),
   (0x02C, 0xFFFF), (0x030, 0xFFFF), (0x034, 0xFFFFFFFF), (0x038, 0xFFFFFFFF), (0x040, 0x7)] ++
  [(0x044, 0xFFFF), (0x048, 0xFFFF), (0x04C, 0xFFFF), (0x050, 0xFFFF), (0x054, 0xFFFF), (0x058, 0xFFFF),
   (0x05C, 0xFFFF), (0x060, 0xFFFF), (0x080, 0x7F), (0x084, 0xFFFFFFFF), (0x088, 0xFFFFFFFF),
   (0x0C4, 0x1FFFF), (0x0C8, 0x1FFF)]

/-- The read-only registers and memories (20_memory.md R82). -/
def readOnlyAddr (p : Params) (a : Nat) : Prop :=
  a ∈ [0x000, 0x010, 0x070, 0x074, 0x078, 0x090, 0x094, 0x098, 0x09C, 0x0A0, 0x0A4, 0x0A8, 0x0AC, 0x0B0, 0x0C0,
    0x0CC] ∨
  (0x1000 ≤ a ∧ a < 0x1000 + 4 * p.nPulse ∧ a < 0x1100) ∨
  (0x4000 ≤ a ∧ a < 0x4000 + 128 * p.nResult ∧ a < 0x4400)

/-- The unmapped addresses (20_memory.md R86): the unassigned offsets of the register window, and all outside the
configured entries of the buffers. -/
def unmappedAddr (p : Params) (a : Nat) : Prop :=
  (0x018 ≤ a ∧ a < 0x020) ∨ (0x03C ≤ a ∧ a < 0x040) ∨ (0x064 ≤ a ∧ a < 0x070) ∨ (0x07C ≤ a ∧ a < 0x080) ∨
  (0x08C ≤ a ∧ a < 0x090) ∨ (0x0B4 ≤ a ∧ a < 0x0C0) ∨ (0x0D0 ≤ a ∧ a < 0x1000) ∨
  (0x1000 + 4 * p.nPulse ≤ a ∧ a < 0x4000) ∨ (0x4000 + 128 * p.nResult ≤ a ∧ a < 0x8000) ∨
  (0x8000 + 4 * p.nEdge ≤ a ∧ a < 0x10000) ∨ (0x10000 + 4 * p.nSample ≤ a)

/-- The error ASSEMBLE and ENCODE raise for a type code and field codes, none if they assemble: written from the
error lists of 42_message_mux.md R207-R211, R220, in field order, not from the codecs. -/
def assemblyError (code : Nat) (v : Slots) : Option Err :=
  match MsgType.ofCode code with
  | none => some .notFound
  | some .query =>
      if 2 ≤ v.f0.toNat then some .notFound
      else if ¬(v.f1 = 1 ∨ v.f1 = 2 ∨ v.f1 = 4 ∨ v.f1 = 8) then some .notFound
      else if 2 ≤ v.f2.toNat then some .notFound
      else if 4 ≤ v.f3.toNat then some .notFound
      else if 4 ≤ v.f4.toNat then some .overflow
      else if 2 ≤ v.f5.toNat then some .notFound
      else if 16 ≤ v.f6.toNat then some .overflow
      else none
  | some .queryAdjust =>
      if 4 ≤ v.f0.toNat then some .overflow else if 3 ≤ v.f1.toNat then some .notFound else none
  | some .queryRep => if 4 ≤ v.f0.toNat then some .overflow else none
  | some .ack => none
  | some .nak => none

/-- `TRC` of 43_pie_encoder.md R255 as the rule writes it: `floor(dr · 2^32 / BLF)`, dr = 8 or 64/3. -/
def trcCode (drCode : Code) (blf : Nat) : Nat :=
  if drCode = 1 then 64 * 2 ^ 32 / (3 * blf) else 8 * 2 ^ 32 / blf

/-- The parameter checks of 43_pie_encoder.md R256, as conditions. -/
def timingOk (m : MsgType) (drCode : Code) (t blf : Nat) : Prop :=
  409600 ≤ t ∧ t ≤ 1638400 ∧
    (m = .query → blf ≠ 0 ∧ t / 2 < trcCode drCode blf ∧ trcCode drCode blf < 2 ^ 32)

/-- The word every control and status register reads as, by bus address, from the fields it shows: the bit layouts of
10_state.md R31-R50, written out and not taken from the bus operations. STATUS has a statement of its own. -/
def registerWords (s : State) : List (Nat × Word) :=
  [(0x000, 0x47324331#32),
   (0x004, (if s.regs.ie then 1#32 else 0#32) ||| (if s.regs.trunc then 2#32 else 0#32)),
   (0x008, 0#32),
   (0x010, if s.regs.crcReg = 0 then 0x100#32 else s.regs.crcReg.setWidth 32),
   (0x014, s.regs.crcData), (0x020, s.regs.tari), (0x024, s.regs.blf), (0x028, s.regs.samplePeriod),
   (0x02C, s.regs.schmittRatio.setWidth 32), (0x030, s.regs.schmittHyst.setWidth 32),
   (0x034, s.regs.rtTol), (0x038, s.regs.trTol), (0x040, s.regs.msgType.setWidth 32)] ++
  [(0x044, s.regs.field.f0.setWidth 32), (0x048, s.regs.field.f1.setWidth 32),
   (0x04C, s.regs.field.f2.setWidth 32), (0x050, s.regs.field.f3.setWidth 32),
   (0x054, s.regs.field.f4.setWidth 32), (0x058, s.regs.field.f5.setWidth 32),
   (0x05C, s.regs.field.f6.setWidth 32), (0x060, s.regs.field.f7.setWidth 32),
   (0x070, s.regs.txType.setWidth 32), (0x074, s.regs.txLen.setWidth 32), (0x078, s.regs.txBits),
   (0x080, s.regs.rxLen.setWidth 32), (0x084, s.regs.rxBits0), (0x088, s.regs.rxBits1)] ++
  [(0x090, s.regs.rxType.setWidth 32),
   (0x094, s.regs.rxField.f0.setWidth 32), (0x098, s.regs.rxField.f1.setWidth 32),
   (0x09C, s.regs.rxField.f2.setWidth 32), (0x0A0, s.regs.rxField.f3.setWidth 32),
   (0x0A4, s.regs.rxField.f4.setWidth 32), (0x0A8, s.regs.rxField.f5.setWidth 32),
   (0x0AC, s.regs.rxField.f6.setWidth 32), (0x0B0, s.regs.rxField.f7.setWidth 32),
   (0x0C0, s.regs.pulseCnt.setWidth 32), (0x0C4, s.regs.sampleCnt.setWidth 32),
   (0x0C8, s.regs.edgeCnt.setWidth 32), (0x0CC, s.regs.resultCnt.setWidth 32)]

/-- The output sets of 45_control.md R355 by OP code, as ranges of bus addresses (first, one past the last): CRC; the
TX registers; RX_TYPE and RX_FIELD; PULSE_CNT and PULSE_MEM; EDGE_CNT and EDGE_MEM; RESULT_CNT and RESULT_MEM; for
SOFT_RESET every register of 10_state.md R53 but ID and, as for every command, STATUS (log 7). -/
def outputSpans (p : Params) : Nat → List (Nat × Nat)
  | 0x1 => [(0x010, 0x014)]
  | 0x2 => [(0x010, 0x014)]
  | 0x3 => [(0x070, 0x07C)]
  | 0x4 => [(0x090, 0x0B4)]
  | 0x5 => [(0x070, 0x07C), (0x0C0, 0x0C4), (0x1000, 0x1000 + 4 * p.nPulse)]
  | 0x6 => [(0x0C8, 0x0CC), (0x8000, 0x8000 + 4 * p.nEdge)]
  | 0x7 => [(0x0CC, 0x0D0), (0x4000, 0x4000 + 128 * p.nResult)]
  | 0xF => [(0x004, 0x00C), (0x010, 0x018), (0x020, 0x03C), (0x040, 0x064), (0x070, 0x07C), (0x080, 0x08C),
      (0x090, 0x0B4), (0x0C0, 0x0D0)]
  | _ => []

/-- Whether a word address is in the output set of the command a CMD word starts. -/
def inOutputSpans (p : Params) (w : Word) (a : Nat) : Bool :=
  (outputSpans p (cmdOp w).toNat).any fun r => decide (r.1 ≤ a ∧ a < r.2)

/-- The pulse codes of a message, 43_pie_encoder.md R252-R257 written out: the delimiter of 12.5 µs, data-0, RTcal, for
a Query TRcal, then a symbol for each bit. -/
def pulseCodes (m : MsgType) (b : Bits) (drCode : Code) (t blf : Nat) : List Nat :=
  [819200, t / 2, t / 2, 3 * t - t / 2, t / 2] ++
    (if m = .query then [trcCode drCode blf - t / 2, t / 2] else []) ++
    b.flatMap fun x => if x then [3 * t / 2, t / 2] else [t / 2, t / 2]

/-- The pulse codes ENCODE stores: truncated to whole microseconds when CTRL.TRUNC = 1 (43_pie_encoder.md R258). -/
def storedPulses (trunc : Bool) (l : List Nat) : List Nat := if trunc then l.map fun u => u - u % 2 ^ 16 else l

/-- One sample of 44_edge_decoder.md R291's loop, on the edges recorded so far, the last recorded rising edge and the
raised state; the thresholds are exact rationals and the comparisons strict, durations saturate (R296). A sample comes
with its index. -/
def detectSample (thHigh thLow : ℚ) (ts : Nat) (d : List Nat × Nat × Bool) (x : Nat × Nat) : List Nat × Nat × Bool :=
  if d.2.2 = false ∧ thHigh < x.1 then (d.1 ++ [min ((x.2 - d.2.1) * ts) 0xFFFFFFFF], x.2, true)
  else if d.2.2 = true ∧ (x.1 : ℚ) < thLow then (d.1, d.2.1, false)
  else d

/-- R291's loop over a window. -/
def detectWindow (thHigh thLow : ℚ) (ts : Nat) (w : List Nat) : List Nat × Nat × Bool :=
  w.zipIdx.foldl (detectSample thHigh thLow ts) ([], 0, false)

/-- The total of a data symbol, the interval the decoder measures (43_pie_encoder.md R260). -/
def symbolTotal (t : Nat) (b : Bool) : Nat := (dataSymbol t b).sum

/-- A sequence with its element `i` inverted. -/
def flipBit : Nat → Bits → Bits
  | _, [] => []
  | 0, b :: s => (!b) :: s
  | i + 1, b :: s => b :: flipBit i s

/-- The edges a stream does not split at (44_edge_decoder.md R297). -/
def isSymbolEdge (e : Nat) : Bool := decide (e ≤ 16384000)

end Sys2Proof.Machine
end

