-- ==== Sys2Proof/Certificates/Slice0/Obligations.lean ====
section
/-! DEFINITION. The statements for the provers. An equation `exec i s = .next { s with … }` is a completion statement
and a whole frame at once: every field it does not name is unchanged. -/

open Sys2Proof Sys2Proof.Machine

/-! Reset, identity, the step. -/

/-- 10_state.md R53, 70_reset_and_hazards.md R400: after power-on reset every register reads its value of the reset
table, the engine is IDLE with ENG_CMD 0, no flag is set, and no buffer byte has a value. The parameters' defaults
are 00_scope.md R10's. -/
def Obligations.ResetLeavesTableValues : Prop :=
  (∀ p ∈ resetTable, busRead (BitVec.ofNat 20 p.1) State.reset = BitVec.ofNat 32 p.2) ∧
  State.reset.engState = .idle ∧ State.reset.engCmd = 0 ∧ State.reset.done = false ∧ State.reset.werr = false ∧
  State.reset.err = .none ∧ State.reset.irq = false ∧ (∀ a, byteAt State.reset.mem a = none) ∧
  State.reset.par = { nPulse := 64, nSample := 16384, sampleW := 16, nEdge := 1024, nResult := 8, cmdEnd := 16384000,
                      endFlush := true }

/-- 10_state.md R31: ID reads its constant at every time, also after any write to it. -/
def Obligations.IdReadsConstant : Prop :=
  ∀ (s : State) (a : Addr), wordAddr a = 0x000 →
    busRead a s = 0x47324331#32 ∧
    ∀ v, busRead a (busWrite a v s) = 0x47324331#32 ∧ (busWrite a v s).regs = s.regs ∧
      (busWrite a v s).mem = s.mem

/-- 45_control.md R351: when it is the engine's turn, the step is the meaning of the instruction the decoder reads
from ENG_CMD. The engine's turn: BUSY, `rst` released, and the host has nothing to do or the free latency is used
up (the model's schedule, log 4). -/
def Obligations.StepRunsAcceptedCommand : Prop :=
  ∀ (s : State) (i : Instr), s.rst = false → s.engState = .busy → (s.host = [] ∨ s.slack = 0) →
    decode (.cmd s.engCmd) = .ok i → step s = exec i s

/-- 42_message_mux.md R222 with log 1: when the accepted command is PARSE and the receive buffer spells a message, the
step is the meaning of that message's instruction. -/
def Obligations.StepRunsDispatchedMessage : Prop :=
  ∀ (s : State) (i : Instr), s.rst = false → s.engState = .busy → (s.host = [] ∨ s.slack = 0) →
    cmdOp s.engCmd = 4 → s.regs.rxLen.toNat ≤ 64 → decode (.msg (rxSequence s.regs)) = .ok i → step s = exec i s

/-- 60_exceptions.md R372: no step stops: the core has no trap and every access is answered. -/
def Obligations.EveryStepAnswersNext : Prop := ∀ s : State, ∃ t, step s = .next t

/-! Encodings. -/

/-- 30_encoding.md R101-R104, R120, R121: some words, written out from the encoding tables, decode to what they stand
for (Query: vector 2 of 95_test_vectors.md; a NOP word with every ignored bit and ARG set; CRC_FEED with ARG 17). -/
def Obligations.WrittenOutWordsDecode : Prop :=
  decode (.msg [true, false, false, false, true, false, false, false, false, true, false, true, true, false, false,
    false, true, true, false, false, false, true]) = .ok (.query 1 1 0 1 1 1 1) ∧
  decode (.msg [true, false, false, true, true, false, true, true, false]) = .ok (.queryAdjust 2 1) ∧
  decode (.msg [false, false, true, true]) = .ok (.queryRep 3) ∧
  decode (.msg [false, true, true, false, true, true, true, true, true, false, true, true, true, false, true, true,
    true, true]) = .ok (.ack 0xBEEF) ∧
  decode (.msg [true, true, false, false, false, false, false, false]) = .ok .nak ∧
  decode (.cmd 0xFFFFFFF0#32) = .ok .nop ∧ decode (.cmd 0x00001102#32) = .ok (.crcFeed 17) ∧
  decode (.cmd 0x0000000F#32) = .ok .softReset

/-- Every well-formed instruction, decoded from what the encoder writes for it, is itself: every operand at every
value its encoding admits. -/
def Obligations.DecodeInvertsEncode : Prop :=
  ∀ i : Instr, i.wellFormed = true → ∃ c, encode i = .ok c ∧ decode c = .ok i

/-- The well-formed instructions are exactly those the encoder has a form for; the others raise Overflow or NotFound
(40_bitfield.md R141, R146). -/
def Obligations.OnlyWellFormedEncode : Prop :=
  ∀ i : Instr, (i.wellFormed = true ↔ ∃ c, encode i = .ok c) ∧
    ∀ e, encode i = .error e → e = .overflow ∨ e = .notFound

/-- The other direction: what the decoder reads from any bit sequence is well formed, and assembling it gives the
sequence's own leading bits back (the message's width; 42_message_mux.md R203: the rest is ignored). -/
def Obligations.DecodedMessageReassembles : Prop :=
  ∀ (s : Bits) (i : Instr), decode (.msg s) = .ok i →
    i.wellFormed = true ∧ isCommand i = false ∧
    ∃ t v b, dispatch s = .ok (t, v) ∧ i = Instr.ofMessage t v ∧ toBits t v = .ok b ∧
      b.take t.nBits = s.take t.nBits ∧ t.nBits ≤ s.length

/-- 42_message_mux.md R212, the message round trip: dispatching what a type and its field codes assemble to gives the
type and the same field codes back. -/
def Obligations.MessageRoundTrip : Prop :=
  ∀ (t : MsgType) (v : Slots) (s : Bits), toBits t v = .ok s →
    ∃ v', dispatch s = .ok (t, v') ∧ v'.toList.take t.fields.length = v.toList.take t.fields.length ∧
      sameMessage (t, v) (t, v') = true

/-- 40_bitfield.md R152, the field round trip: a Value of up to 16 bits on its whole domain; every LookUp field of the
five messages on the codes of its table, and conversely on the patterns of its table. -/
def Obligations.FieldRoundTrip : Prop :=
  (∀ (n : Nat) (v : Code), n ≤ 16 → v.toNat < 2 ^ n →
    ∃ s, (Codec.value n).toBits v = .ok s ∧ (Codec.value n).fromBits s = .ok v) ∧
  (∀ (t : MsgType) (n : Nat) (tbl : List (Code × Bits)), Codec.lookUp n tbl ∈ t.fields →
    ∀ (k : Code) (p : Bits), (k, p) ∈ tbl → p.length = n ∧
      (Codec.lookUp n tbl).toBits k = .ok p ∧ (Codec.lookUp n tbl).fromBits p = .ok k)

/-- 30_encoding.md R105: at most one message type's opcode opens a sequence. 42_message_mux.md R203, R206: once it matches, a sequence shorter than the message's fields is SizeMismatch,
and bits past them change nothing; where no opcode matches, NotFound. -/
def Obligations.DispatchUsesLeadingBits : Prop :=
  (∀ (s : Bits) (t u : MsgType), t.opens s = true → u.opens s = true → t = u) ∧
  (∀ (s : Bits) (t : MsgType), t.opens s = true → s.length < t.nBits → dispatch s = .error .sizeMismatch) ∧
  (∀ (s x : Bits) (t : MsgType), t.opens s = true → t.nBits ≤ s.length → dispatch (s ++ x) = dispatch s) ∧
  (∀ s : Bits, (∀ t : MsgType, t.opens s = false) → dispatch s = .error .notFound)

/-- 30_encoding.md R104: element `j` of a sequence of at most 64 bits stands in word `j div 32` at bit
`31 - (j mod 32)`, written and read, bits past its length are written as 0 and ignored on reading; CRC_REG's element 0
is bit 4; vector 2 packs to 0x8858C400. -/
def Obligations.PackingPlacesElements : Prop :=
  (∀ (s : Bits) (j : Nat), s.length ≤ 64 → j < 32 →
    (packWord s).getLsbD (31 - j) = s.getD j false ∧
    (packWord (s.drop 32)).getLsbD (31 - j) = s.getD (32 + j) false) ∧
  (∀ s : Bits, s.length ≤ 64 → (unpackPair (packWord s) (packWord (s.drop 32))).take s.length = s) ∧
  (∀ (w0 w1 : Word) (j : Nat), j < 32 → (unpackPair w0 w1)[j]? = some (w0.getLsbD (31 - j)) ∧
    (unpackPair w0 w1)[32 + j]? = some (w1.getLsbD (31 - j))) ∧
  (∀ (r : Regs) (n : Nat), (rxSequence r).length ≤ r.rxLen.toNat ∧ (crcOperand r n).length ≤ n) ∧
  (∀ (r : BitVec 5) (j : Nat), j < 5 → (crcBits r).getD j false = r.getLsbD (4 - j)) ∧
  packWord [true, false, false, false, true, false, false, false, false, true, false, true, true, false, false,
    false, true, true, false, false, false, true] = 0x8858C400#32

/-! CRC5. -/

/-- 41_crc5.md R170: the step on the register as a sequence (compare the leading bit, shift left and append 0, XOR
the mask 01001 if they differ), and the same step in register bits. -/
def Obligations.CrcStepFollowsSequenceForm : Prop :=
  (∀ (reg : BitVec 5) (b r0 r1 r2 r3 r4 : Bool), crcBits reg = [r0, r1, r2, r3, r4] →
    crcBits (crcStep reg b) = if r0 = b then [r1, r2, r3, r4, false] else [r1, !r2, r3, r4, true]) ∧
  (∀ (reg : BitVec 5) (b : Bool),
    crcStep reg b = (reg <<< 1) ^^^ (if reg.getLsbD 4 = b then 0x00#5 else 0x09#5)) ∧
  ∀ (reg : BitVec 5) (b : Bool), crcBits (crcStep reg b) = crcStepSeq (crcBits reg) b

/-- 41_crc5.md R171, R172, R174: the source's literal vector 1, and the corner cases. -/
def Obligations.CrcVectorsAndCorners : Prop :=
  crc5 [true, false, false, false, true, false, false, false, false, true, false, true, true, false, false, false,
    true] = [true, false, false, false, true] ∧
  crc5 [] = [false, true, false, false, true] ∧ crc5 [false] = [true, false, false, true, false] ∧
  crc5 [true] = [true, true, false, true, true] ∧
  (∀ reg : BitVec 5, reg.getLsbD 4 = false → crcStep reg false = reg <<< 1) ∧
  ∀ d : Bits, (crc5 d).length = 5

/-- 41_crc5.md R173, the residue property, for every preset and every mask: fed its own five bits in order, the
register shifts plainly, because each input bit equals the leading bit, and ends at zero. -/
def Obligations.CrcResidueIsZero : Prop :=
  (∀ d : Bits, crc5 (d ++ crc5 d) = [false, false, false, false, false]) ∧
  (∀ (mask preset : BitVec 5) (d : Bits),
    (crcBits (d.foldl (crcStepWith mask) preset)).foldl (crcStepWith mask) (d.foldl (crcStepWith mask) preset) = 0) ∧
  (∀ (mask reg : BitVec 5) (k : Nat), k < 5 →
    ((crcBits reg).take k).foldl (crcStepWith mask) reg = reg <<< k ∧
    (crcBits reg).getD k false = (reg <<< k).getLsbD 4)

/-- 41_crc5.md R181: a sequence that differs from data with its checksum in exactly one bit leaves a nonzero residue. -/
def Obligations.CrcDetectsSingleBitErrors : Prop :=
  ∀ (d : Bits) (i : Nat), i < (d ++ crc5 d).length →
    crc5 (flipBit i (d ++ crc5 d)) ≠ [false, false, false, false, false]

/-- 41_crc5.md R175: CRC_INIT loads the preset and clears CRC.ZERO; ARG and the ignored bits do not matter; a second
one gives the same state. -/
def Obligations.CrcInitLoadsPreset : Prop :=
  (∀ s : State, exec .crcInit s = .next { s with
      regs := { s.regs with crcReg := 0b01001#5 }, err := .none, engState := .idle, done := true }) ∧
  (∀ w : Word, cmdOp w = 1 → decodeCmd w = .crcInit) ∧
  (∀ s t : State, exec .crcInit s = .next t →
    crcWord t.regs = 0x9#32 ∧ crcZero t.regs = false ∧ exec .crcInit t = .next t)

/-- 41_crc5.md R176: CRC_FEED of 1 to 32 bits applies one step per bit of CRC_DATA from bit 31 down; 0 or more than 32
is Param with CRC_REG unchanged; the CRC word then follows CRC_REG (10_state.md R35: bits 4:0, and ZERO, bit 8, exactly
when CRC_REG is 0); feeding in parts is feeding at once. -/
def Obligations.CrcFeedAppliesSteps : Prop :=
  (∀ (s : State) (n : BitVec 6), 1 ≤ n.toNat → n.toNat ≤ 32 →
    exec (.crcFeed n) s = .next { s with
      regs := { s.regs with crcReg :=
        ((List.range n.toNat).map fun j => s.regs.crcData.getLsbD (31 - j)).foldl crcStep s.regs.crcReg },
      err := .none, engState := .idle, done := true }) ∧
  (∀ (s : State) (n : BitVec 6), n.toNat = 0 ∨ 32 < n.toNat →
    exec (.crcFeed n) s = .next { s with err := .param, engState := .idle, done := true }) ∧
  (∀ (s t : State) (n : BitVec 6), exec (.crcFeed n) s = .next t →
    crcZero t.regs = decide (t.regs.crcReg = 0) ∧
    busRead 0x010 t = if t.regs.crcReg = 0 then 0x100#32 else t.regs.crcReg.setWidth 32) ∧
  (∀ w : Word, cmdOp w = 2 → decodeCmd w = .crcFeed (cmdArg w)) ∧
  (∀ (reg : BitVec 5) (a b : Bits), crcFeed (crcFeed reg a) b = crcFeed reg (a ++ b))

/-! The messages and the multiplexer. -/

/-- 42_message_mux.md R207-R211 and R222, read as log 1 reads them (the model's choice): a received message is recorded
in RX_TYPE and in every RX_FIELD slot, unused slots 0, and the command completes without error. -/
def Obligations.ReceivedMessagesFillRxRegisters : Prop :=
  ∀ s : State,
    (∀ dr m trext sel session target q, exec (.query dr m trext sel session target q) s =
      .next { s with regs := { s.regs with rxType := 0, rxField := ⟨dr, m, trext, sel, session, target, q, 0⟩ },
                     err := .none, engState := .idle, done := true }) ∧
    (∀ session updn, exec (.queryAdjust session updn) s =
      .next { s with regs := { s.regs with rxType := 1, rxField := ⟨session, updn, 0, 0, 0, 0, 0, 0⟩ },
                     err := .none, engState := .idle, done := true }) ∧
    (∀ session, exec (.queryRep session) s =
      .next { s with regs := { s.regs with rxType := 2, rxField := ⟨session, 0, 0, 0, 0, 0, 0, 0⟩ },
                     err := .none, engState := .idle, done := true }) ∧
    (∀ rn16, exec (.ack rn16) s =
      .next { s with regs := { s.regs with rxType := 3, rxField := ⟨rn16, 0, 0, 0, 0, 0, 0, 0⟩ },
                     err := .none, engState := .idle, done := true }) ∧
    exec .nak s =
      .next { s with regs := { s.regs with rxType := 4, rxField := ⟨0, 0, 0, 0, 0, 0, 0, 0⟩ },
                     err := .none, engState := .idle, done := true }

/-- 42_message_mux.md R221: where MSG_TYPE names a type and its slots hold codes of its fields, ASSEMBLE writes the
transmit buffer with the message's bits and nothing else. -/
def Obligations.AssembleWritesTransmitBuffer : Prop :=
  ∀ (s : State) (t : MsgType), MsgType.ofCode s.regs.msgType.toNat = some t →
    (Instr.ofMessage t s.regs.field).wellFormed = true →
    ∃ b, toBits t s.regs.field = .ok b ∧ encode (Instr.ofMessage t s.regs.field) = .ok (.msg b) ∧
      exec .assemble s = .next { s with
        regs := { s.regs with txType := BitVec.ofNat 3 t.code, txLen := BitVec.ofNat 7 b.length,
                              txBits := packWord b },
        err := .none, engState := .idle, done := true }

/-- 42_message_mux.md R207-R211, R220, R221: which error ASSEMBLE raises, the first in field order, and that it then
writes nothing but the completion. -/
def Obligations.AssembleErrorsWriteNothing : Prop :=
  ∀ (s : State) (e : Err), assemblyError s.regs.msgType.toNat s.regs.field = some e →
    exec .assemble s = .next { s with err := e, engState := .idle, done := true }

/-- 42_message_mux.md R222: PARSE: Param above 64, the dispatch error with nothing written, or RX_TYPE and every
RX_FIELD slot written, the unused ones with 0. -/
def Obligations.ParseRecordsDispatchedMessage : Prop :=
  (∀ s : State, 64 < s.regs.rxLen.toNat →
    exec .parse s = .next { s with err := .param, engState := .idle, done := true }) ∧
  (∀ (s : State) (e : Err), s.regs.rxLen.toNat ≤ 64 → dispatch (rxSequence s.regs) = .error e →
    exec .parse s = .next { s with err := e, engState := .idle, done := true }) ∧
  (∀ (s : State) (t : MsgType) (v : Slots), s.regs.rxLen.toNat ≤ 64 → dispatch (rxSequence s.regs) = .ok (t, v) →
    exec .parse s = .next { s with
      regs := { s.regs with rxType := BitVec.ofNat 3 t.code, rxField := v },
      err := .none, engState := .idle, done := true } ∧ unusedSlotsZero t.code v = true) ∧
  (∀ r : Regs, r.rxLen.toNat ≤ 64 → (rxSequence r).length = r.rxLen.toNat ∧
    ∀ j : Nat, j < r.rxLen.toNat → (rxSequence r)[j]? =
      some (if j < 32 then r.rxBits0.getLsbD (31 - j) else r.rxBits1.getLsbD (63 - j)))

/-! The PIE encoder. -/

/-- 42_message_mux.md R201, 43_pie_encoder.md R257: the transmitted width of every message that assembles, Query's
17 + 5 = 22 included, and its pulse count. -/
def Obligations.MessageWidthsAndPulseCounts : Prop :=
  ∀ (m : MsgType) (v : Slots) (b : Bits) (dr : Code) (t blf : Nat), toBits m v = .ok b →
    b.length = (match m with | .query => 22 | .queryAdjust => 9 | .queryRep => 4 | .ack => 18 | .nak => 8) ∧
    (toPulses m b dr t blf).length =
      (match m with | .query => 51 | .queryAdjust => 23 | .queryRep => 13 | .ack => 41 | .nak => 21)

/-- 43_pie_encoder.md R258: truncation keeps the whole microseconds of each pulse, and happens when TRUNC = 1 alone. -/
def Obligations.TruncationKeepsWholeMicroseconds : Prop :=
  (∀ u : Nat, u < 2 ^ 32 →
    BitVec.ofNat 32 (truncatePulse u) = BitVec.ofNat 32 u &&& 0xFFFF0000#32 ∧
    truncatePulse u ≤ u ∧ u < truncatePulse u + 2 ^ 16) ∧
  ∀ (m : MsgType) (b : Bits) (dr : Code) (t blf : Nat),
    synthesise true m b dr t blf = (toPulses m b dr t blf).map truncatePulse ∧
    synthesise false m b dr t blf = toPulses m b dr t blf

/-- 43_pie_encoder.md R250-R259: the pulses of a message are DELIM = 819200, data-0 = [T/2, T/2], RTcal = [3T - T/2, T/2],
for a Query TRcal = [TRC - T/2, T/2], then data-0 or data-1 = [3T/2, T/2] for each bit. Where the message assembles,
the timing is legal and the pulses fit PULSE_MEM, ENCODE writes the transmit buffer, these pulses (truncated with
CTRL.TRUNC) from PULSE_MEM[0] upwards, PULSE_CNT, and nothing else: every byte outside the written entries keeps its
value. -/
def Obligations.EncodeWritesPulses : Prop :=
  (∀ (m : MsgType) (b : Bits) (dr : Code) (t blf : Nat),
    toPulses m b dr t blf = [819200, t / 2, t / 2, 3 * t - t / 2, t / 2] ++
      (if m = .query then [trcCode dr blf - t / 2, t / 2] else []) ++
      b.flatMap (fun x => if x then [3 * t / 2, t / 2] else [t / 2, t / 2])) ∧
  ∀ (s : State) (m : MsgType) (b : Bits) (p : List Nat), MsgType.ofCode s.regs.msgType.toNat = some m →
    toBits m s.regs.field = .ok b →
    timingOk m s.regs.field.f0 s.regs.tari.toNat s.regs.blf.toNat →
    p = storedPulses s.regs.trunc (pulseCodes m b s.regs.field.f0 s.regs.tari.toNat s.regs.blf.toNat) →
    p.length ≤ s.par.nPulse →
    ∃ mem', exec .encode s = .next { s with
        regs := { s.regs with
          txType := BitVec.ofNat 3 m.code, txLen := BitVec.ofNat 7 b.length, txBits := packWord b,
          pulseCnt := BitVec.ofNat 7 p.length },
        mem := mem', err := .none, engState := .idle, done := true } ∧
      (∀ (i u draw : Nat), p[i]? = some u → (wordRead draw mem' (0x1000 + 4 * i)).toNat = u) ∧
      (∀ a : Nat, a < 0x1000 ∨ 0x1000 + 4 * p.length ≤ a → byteAt mem' a = byteAt s.mem a)

/-- 43_pie_encoder.md R256, R259, 60_exceptions.md R375: ENCODE's errors in their order, assembly before timing before
Capacity, each with nothing written but the completion. -/
def Obligations.EncodeErrorsWriteNothing : Prop :=
  (∀ (s : State) (e : Err), assemblyError s.regs.msgType.toNat s.regs.field = some e →
    exec .encode s = .next { s with err := e, engState := .idle, done := true }) ∧
  (∀ (s : State) (m : MsgType), MsgType.ofCode s.regs.msgType.toNat = some m →
    (Instr.ofMessage m s.regs.field).wellFormed = true →
    ¬timingOk m s.regs.field.f0 s.regs.tari.toNat s.regs.blf.toNat →
    exec .encode s = .next { s with err := .param, engState := .idle, done := true }) ∧
  (∀ (s : State) (m : MsgType) (b : Bits), MsgType.ofCode s.regs.msgType.toNat = some m →
    toBits m s.regs.field = .ok b →
    timingOk m s.regs.field.f0 s.regs.tari.toNat s.regs.blf.toNat →
    s.par.nPulse < (storedPulses s.regs.trunc
      (pulseCodes m b s.regs.field.f0 s.regs.tari.toNat s.regs.blf.toNat)).length →
    exec .encode s = .next { s with err := .capacity, engState := .idle, done := true })

/-! The edge detector. -/

/-- 44_edge_decoder.md R294, R295: where SAMPLE_CNT and SAMPLE_PERIOD are legal, EDGES writes stage A's edges that fit
from EDGE_MEM[0] upwards and their count, reports Capacity if some did not fit, and leaves everything else; else it
is Param with nothing written. The window has SAMPLE_CNT samples, sample `i` the low SAMPLE_W bits of SAMPLE_MEM[i], free
values included (R290, log 5). -/
def Obligations.EdgesRecordsWindow : Prop :=
  (∀ s : State, legalParams s.par = true → s.regs.sampleCnt.toNat ≤ s.par.nSample → s.regs.samplePeriod ≠ 0 →
    ∃ e mem', e = stageA s.par.endFlush s.regs.schmittRatio.toNat s.regs.schmittHyst.toNat
        s.regs.samplePeriod.toNat (sampleWindow s) ∧
      exec .edges s = .next { s with
        regs := { s.regs with edgeCnt := BitVec.ofNat 13 (min e.length s.par.nEdge) }, mem := mem',
        err := if s.par.nEdge < e.length then .capacity else .none,
        engState := .idle, done := true, draws := s.draws + 1 } ∧
      (∀ (i u draw : Nat), i < s.par.nEdge → e[i]? = some u → (wordRead draw mem' (0x8000 + 4 * i)).toNat = u) ∧
      (∀ a : Nat, a < 0x8000 ∨ 0x8000 + 4 * min e.length s.par.nEdge ≤ a → byteAt mem' a = byteAt s.mem a)) ∧
  (∀ s : State, s.par.nSample < s.regs.sampleCnt.toNat ∨ s.regs.samplePeriod = 0 →
    exec .edges s = .next { s with err := .param, engState := .idle, done := true }) ∧
  (∀ s : State, (sampleWindow s).length = s.regs.sampleCnt.toNat ∧
    ∀ i : Nat, i < s.regs.sampleCnt.toNat →
      (sampleWindow s)[i]? = some ((wordRead s.draws s.mem (0x10000 + 4 * i)).toNat % 2 ^ s.par.sampleW))

/-- 44_edge_decoder.md R290-R293, R296: with mn and mx the least and greatest sample, stage A is R291's loop at the exact
thresholds `mn + (ratio ± hyst)·(mx - mn)`, then the closing duration of R292, which END_FLUSH = 0, no edge, or a window
that ends raised leaves out. So it finds nothing in an empty or constant window or at ratio + hysteresis of 1 or more;
at ratio <= hysteresis at most one duration, since no sample is below the least; with END_FLUSH = 0 only the loop's
durations; and every duration is at most 0xFFFFFFFF. -/
def Obligations.StageACorners : Prop :=
  ∀ (flush : Bool) (ratio hyst ts : Nat) (w : List Nat),
    (∀ (mn mx : Nat) (thHigh thLow : ℚ) (d : List Nat × Nat × Bool),
      mn ∈ w → mx ∈ w → (∀ x ∈ w, mn ≤ x ∧ x ≤ mx) →
      thHigh = mn + ((ratio : ℚ) / 2 ^ 16 + (hyst : ℚ) / 2 ^ 16) * ((mx : ℚ) - mn) →
      thLow = mn + ((ratio : ℚ) / 2 ^ 16 - (hyst : ℚ) / 2 ^ 16) * ((mx : ℚ) - mn) →
      d = detectWindow thHigh thLow ts w →
      stageA flush ratio hyst ts w = d.1 ++
        (if flush = true ∧ d.1 ≠ [] ∧ d.2.2 = false then [min ((w.length - d.2.1) * ts) 0xFFFFFFFF] else []) ∧
      stageA false ratio hyst ts w = d.1) ∧
    (w = [] → stageA flush ratio hyst ts w = []) ∧
    ((∃ x, ∀ y ∈ w, y = x) → stageA flush ratio hyst ts w = []) ∧
    (2 ^ 16 ≤ ratio + hyst → stageA flush ratio hyst ts w = []) ∧
    (ratio ≤ hyst → (stageA flush ratio hyst ts w).length ≤ 1) ∧
    ∀ u ∈ stageA flush ratio hyst ts w, u ≤ 0xFFFFFFFF

/-- 44_edge_decoder.md R297: the sub-sequences are non-empty, hold no gap, stand in the stream at their start, are
bounded by gaps or the stream's ends, and together, in order, are all the stream's durations that are no gap. -/
def Obligations.SplitPartitionsStream : Prop :=
  ∀ es : List Nat,
    (∀ p ∈ splitEdges es, p.2 ≠ [] ∧ (∀ e ∈ p.2, e ≤ 16384000) ∧ (es.drop p.1).take p.2.length = p.2 ∧
      (p.1 = 0 ∨ ∃ g, es[p.1 - 1]? = some g ∧ 16384000 < g) ∧
      (p.1 + p.2.length = es.length ∨ ∃ g, es[p.1 + p.2.length]? = some g ∧ 16384000 < g)) ∧
    (splitEdges es).flatMap (·.2) = es.filter isSymbolEdge

/-- 44_edge_decoder.md R321: a stream cut at a gap splits into the sub-sequences of its two parts, the second's starts
moved: what one command decodes to depends on its own edges alone. -/
def Obligations.GapSeparatesCommands : Prop :=
  ∀ (es fs : List Nat) (gap : Nat), 16384000 < gap →
    splitEdges (es ++ gap :: fs) =
      splitEdges es ++ (splitEdges fs).map fun p => (p.1 + es.length + 1, p.2)

/-- 44_edge_decoder.md R324: with RT_TOL = 0 a candidate pair calibrates exactly on the closed band from 2.5 to 3 Tari;
one code unit outside, calibration stays unresolved and the bit buffer empty. -/
def Obligations.ToleranceBoundary : Prop :=
  ∀ (cmdEnd trTol p d : Nat), p ≤ cmdEnd → d ≤ cmdEnd → 409600 ≤ p → p ≤ 1638400 →
    (5 * p ≤ 2 * d ∧ d ≤ 3 * p →
      (fromEdges cmdEnd 0 trTol [p, d]).tari = some p ∧ (fromEdges cmdEnd 0 trTol [p, d]).rtCal = some d) ∧
    (2 * d < 5 * p ∨ 3 * p < d →
      (fromEdges cmdEnd 0 trTol [p, d]).tari = none ∧ (fromEdges cmdEnd 0 trTol [p, d]).bits = [])

/-- 44_edge_decoder.md R302-R305, R307: after the first pair that calibrates, whatever durations stand before it (a
delimiter edge among them), a first duration in the TRcal band is TRcal and no bit; every other duration is the bit
`2·d > RTcal`; the buffer keeps the first 64, and BITOVF says whether more arrived. -/
def Obligations.DataBitsFollowThreshold : Prop :=
  ∀ (cmdEnd rtTol trTol p r : Nat) (pre ds : List Nat), 409600 ≤ p → p ≤ 1638400 → 5 * p ≤ 2 * r + 2 * rtTol →
    r ≤ 3 * p + rtTol → (∀ d ∈ pre ++ p :: r :: ds, d ≤ cmdEnd) →
    (∀ i x d, (pre ++ [p])[i]? = some x → (pre ++ [p])[i + 1]? = some d →
      x < 409600 ∨ 1638400 < x ∨ 2 * d + 2 * rtTol < 5 * x ∨ 3 * x + rtTol < d) →
    ∀ (q : Bool) (data : List Nat) (y : Session),
      (q = true ∧ (∃ d, ds = d :: data ∧ 11 * r ≤ 10 * d + 10 * trTol ∧ d ≤ 3 * r + trTol) ∨
       q = false ∧ data = ds ∧ (∀ d, ds.head? = some d → 10 * d + 10 * trTol < 11 * r ∨ 3 * r + trTol < d)) →
      y = fromEdges cmdEnd rtTol trTol (pre ++ p :: r :: ds) →
      y.tari = some p ∧ y.rtCal = some r ∧ y.trCal = (if q then ds.head? else none) ∧
      y.bits = (data.map fun d => decide (r < 2 * d)).take 64 ∧ y.bitovf = decide (64 < data.length) ∧
      y.used = pre.length + ds.length + 2 ∧ y.term = false

/-- 44_edge_decoder.md R306: the first duration above the command-end threshold ends the command; it and all after it
are not consumed. -/
def Obligations.CommandEndStopsSession : Prop :=
  ∀ (cmdEnd rtTol trTol d : Nat) (pre post : List Nat), (∀ e ∈ pre, e ≤ cmdEnd) → cmdEnd < d →
    fromEdges cmdEnd rtTol trTol (pre ++ d :: post) = { fromEdges cmdEnd rtTol trTol pre with term := true }

/-- 44_edge_decoder.md R307: a sub-sequence with no pair that calibrates leaves calibration unresolved and no bit, and
its record says NotFound with every calibration word 0 (R310). -/
def Obligations.UncalibratedRecordsNotFound : Prop :=
  ∀ (cmdEnd rtTol trTol start : Nat) (sub : List Nat), (∀ d ∈ sub, d ≤ cmdEnd) →
    (∀ i p d, sub[i]? = some p → sub[i + 1]? = some d →
      p < 409600 ∨ 1638400 < p ∨ 2 * d + 2 * rtTol < 5 * p ∨ 3 * p + rtTol < d) →
    (fromEdges cmdEnd rtTol trTol sub).tari = none ∧ (fromEdges cmdEnd rtTol trTol sub).bits = [] ∧
    (recordWords cmdEnd rtTol trTol start sub).take 5 = [0x200#32, 0, 0, 0, 0]

/-- 44_edge_decoder.md R311: the observed backscatter frequency: for a decoded Query with a positive TRcal whose quotient
fits its word, `floor(dr · 2^32 / trCal)`; nothing in every other case. -/
def Obligations.BackscatterFrequency : Prop :=
  (∀ (v : Slots) (r : Nat), 0 < r →
    observedBlf (.ok (.query, v)) (some r) = if trcCode v.f0 r < 2 ^ 32 then some (trcCode v.f0 r) else none) ∧
  (∀ v : Slots, observedBlf (.ok (.query, v)) (some 0) = none) ∧
  (∀ res, observedBlf res none = none) ∧ (∀ e r, observedBlf (.error e) r = none) ∧
  (∀ t v r, t ≠ .query → observedBlf (.ok (t, v)) r = none)

/-- 44_edge_decoder.md R312 and 10_state.md R50: the layout of a result record, flag by flag (every other FLAGS bit 0) and
word by word. -/
def Obligations.RecordLayout : Prop :=
  ∀ (cmdEnd rtTol trTol start : Nat) (sub : List Nat) (x : Session) (res : Except Err (MsgType × Slots))
    (ws : List Word), x = fromEdges cmdEnd rtTol trTol sub → res = dispatch x.bits →
    ws = recordWords cmdEnd rtTol trTol start sub →
    ws.length = 32 ∧
    ((ws.getD 0 0).getLsbD 0 = x.tari.isSome ∧ (ws.getD 0 0).getLsbD 1 = x.trCal.isSome ∧
     (ws.getD 0 0).getLsbD 3 = (observedBlf res x.trCal).isSome ∧ (ws.getD 0 0).getLsbD 4 = x.bitovf ∧
     (ws.getD 0 0).getLsbD 6 = x.term ∧ (ws.getD 0 0).getLsbD 7 = false ∧ (ws.getD 0 0).extractLsb' 12 4 = 0 ∧
     (ws.getD 0 0).extractLsb' 19 13 = 0) ∧
    (∀ t v, res = .ok (t, v) → (ws.getD 0 0).getLsbD 2 = true ∧ (ws.getD 0 0).extractLsb' 8 4 = 0 ∧
      (ws.getD 0 0).extractLsb' 16 3 = BitVec.ofNat 3 t.code ∧
      ((ws.getD 0 0).getLsbD 5 = true ↔ t = .query ∧ 22 ≤ x.bits.length ∧
        crc5 (x.bits.take 22) = [false, false, false, false, false]) ∧
      (ws.drop 10).take 8 = v.toList.map (BitVec.setWidth 32)) ∧
    (∀ e, res = .error e → (ws.getD 0 0).getLsbD 2 = false ∧ (ws.getD 0 0).getLsbD 5 = false ∧
      (ws.getD 0 0).extractLsb' 8 4 = BitVec.ofNat 4 e.code ∧ (ws.getD 0 0).extractLsb' 16 3 = 0 ∧
      (ws.drop 10).take 8 = List.replicate 8 0) ∧
    (ws.drop 1).take 7 = ([x.tari.getD 0, x.rtCal.getD 0, x.trCal.getD 0, (observedBlf res x.trCal).getD 0, start,
      start + x.used, x.bits.length].map (BitVec.ofNat 32)) ∧
    (ws.drop 8).take 2 = [packWord x.bits, packWord (x.bits.drop 32)] ∧
    ws.drop 18 = List.replicate 14 0

/-- 44_edge_decoder.md R320: where EDGE_CNT is legal, DECODE writes one record per sub-sequence that fits, from
RESULT_MEM[0] upwards, and their count, reports Capacity if some did not fit, and leaves everything else; else it is
Param with nothing written. The stream has EDGE_CNT durations, duration `i` the word EDGE_MEM[i] (log 5). -/
def Obligations.DecodeWritesRecords : Prop :=
  (∀ s : State, legalParams s.par = true → s.regs.edgeCnt.toNat ≤ s.par.nEdge →
    ∃ subs mem', subs = splitEdges (edgeStream s) ∧
      exec .decode s = .next { s with
        regs := { s.regs with resultCnt := BitVec.ofNat 4 (min subs.length s.par.nResult) }, mem := mem',
        err := if s.par.nResult < subs.length then .capacity else .none,
        engState := .idle, done := true, draws := s.draws + 1 } ∧
      (∀ (r w start draw : Nat) (sub : List Nat), r < s.par.nResult → w < 32 → subs[r]? = some (start, sub) →
        some (wordRead draw mem' (0x4000 + 128 * r + 4 * w)) =
          (recordWords s.par.cmdEnd s.regs.rtTol.toNat s.regs.trTol.toNat start sub)[w]?) ∧
      (∀ a : Nat, a < 0x4000 ∨ 0x4000 + 128 * min subs.length s.par.nResult ≤ a →
        byteAt mem' a = byteAt s.mem a)) ∧
  (∀ s : State, s.par.nEdge < s.regs.edgeCnt.toNat →
    exec .decode s = .next { s with err := .param, engState := .idle, done := true }) ∧
  (∀ s : State, (edgeStream s).length = s.regs.edgeCnt.toNat ∧
    ∀ i : Nat, i < s.regs.edgeCnt.toNat →
      (edgeStream s)[i]? = some (wordRead s.draws s.mem (0x8000 + 4 * i)).toNat)

/-- 43_pie_encoder.md R260 with 44_edge_decoder.md R307: the intervals of an encoded frame give its bits back: Tari,
RTcal, for a Query-class frame a TRcal in its band, then the symbol totals of at most 64 bits. Even Tari: for an odd
one the measured data-0 interval is one code short and RTcal leaves the band. -/
def Obligations.SymbolIntervalsDecodeBack : Prop :=
  ∀ (cmdEnd t : Nat) (b : Bits), 409600 ≤ t → t ≤ 1638400 → t % 2 = 0 → 3 * t ≤ cmdEnd → b.length ≤ 64 →
    (fromEdges cmdEnd 0 0 (symbolTotal t false :: 3 * t :: b.map (symbolTotal t))).bits = b ∧
    (fromEdges cmdEnd 0 0 (symbolTotal t false :: 3 * t :: b.map (symbolTotal t))).tari = some t ∧
    (fromEdges cmdEnd 0 0 (symbolTotal t false :: 3 * t :: b.map (symbolTotal t))).trCal = none ∧
    ∀ trc, 33 * t ≤ 10 * trc → trc ≤ 9 * t → trc ≤ cmdEnd →
      (fromEdges cmdEnd 0 0 (symbolTotal t false :: 3 * t :: trc :: b.map (symbolTotal t))).bits = b ∧
      (fromEdges cmdEnd 0 0 (symbolTotal t false :: 3 * t :: trc :: b.map (symbolTotal t))).trCal = some trc

/-- 44_edge_decoder.md R322, the end-to-end property: an encoded message, sampled with every pulse a whole number of
sample periods, comes back through stages A, B, C and D: one sub-sequence, the same bits, the same message. Its
conditions (a) to (f), with both tolerances 0 and an even Tari. -/
def Obligations.EndToEndRecovery : Prop :=
  ∀ (m : MsgType) (v : Slots) (b : Bits) (t blf ts ratio hyst cmdEnd : Nat),
    toBits m v = .ok b → timingOk m v.f0 t blf → t % 2 = 0 → 0 < ts →
    (∀ p ∈ toPulses m b v.f0 t blf, p % ts = 0) → hyst < ratio → ratio + hyst < 2 ^ 16 → 16384000 ≤ cmdEnd →
    (m = .query → 33 * t ≤ 10 * trcCode v.f0 blf ∧ trcCode v.f0 blf ≤ 9 * t ∧ trcCode v.f0 blf ≤ 16384000) →
    ∃ e v', e = stageA true ratio hyst ts (toSamples ts (toPulses m b v.f0 t blf)) ∧
      splitEdges e = [(0, e)] ∧ (fromEdges cmdEnd 0 0 e).bits = b ∧
      dispatch (fromEdges cmdEnd 0 0 e).bits = .ok (m, v') ∧ sameMessage (m, v) (m, v') = true

/-! Control. -/

/-- 45_control.md R352: NOP writes nothing besides the completion; WERR stays; ARG and the ignored bits do not matter. -/
def Obligations.NopOnlyCompletes : Prop :=
  (∀ s : State, exec .nop s = .next { s with err := .none, engState := .idle, done := true }) ∧
  (∀ w : Word, cmdOp w = 0 → decodeCmd w = .nop) ∧
  (∀ s t : State, s.werr = false → exec .nop s = .next t → statusWord t = 0x2#32)

/-- 45_control.md R354: every reserved OP code completes with Illegal and no other effect. -/
def Obligations.ReservedOpsCompleteIllegal : Prop :=
  (∀ s : State, ∀ i ∈ [Instr.reserved8, .reserved9, .reservedA, .reservedB, .reservedC, .reservedD, .reservedE],
    exec i s = .next { s with err := .illegal, engState := .idle, done := true }) ∧
  (∀ w : Word, 8 ≤ (cmdOp w).toNat → (cmdOp w).toNat ≤ 14 →
    decodeCmd w ∈ [Instr.reserved8, .reserved9, .reservedA, .reservedB, .reservedC, .reservedD, .reservedE]) ∧
  (∀ s t : State, s.werr = false → exec .reserved8 s = .next t → statusWord t = 0x62#32)

/-- 45_control.md R353, 70_reset_and_hazards.md R402: SOFT_RESET puts every register at its reset value, clears WERR and
CTRL.IE with it, so irq is low, keeps every buffer byte, and completes. (That ENG_CMD is among the registers is log
11.) -/
def Obligations.SoftResetRestoresRegisters : Prop :=
  (∀ s : State, exec .softReset s = .next { s with
    regs := State.reset.regs, werr := false, engCmd := 0, err := .none, engState := .idle, done := true }) ∧
  (∀ s t : State, exec .softReset s = .next t → t.irq = false ∧ statusWord t = 0x2#32 ∧ t.mem = s.mem ∧
    ∀ p ∈ resetTable, p.1 ≠ 0x00C → busRead (BitVec.ofNat 20 p.1) t = BitVec.ofNat 32 p.2)

/-- 45_control.md R350: a write to CMD of an IDLE core accepts the command: ENG_CMD, BUSY, DONE and ERR, nothing else
of the core; it is the whole host step, and the host's next access follows. While BUSY it is no acceptance and sets
WERR (70_reset_and_hazards.md R410, R412). That `slack` and `accepted` move is the model's choice (log 4). -/
def Obligations.CmdWriteAcceptsCommand : Prop :=
  ∀ (s : State) (a : Addr) (w : Word), wordAddr a = 0x008 → s.rst = false →
    (s.engState = .idle → ∃ k,
      busWrite a w s = { s with engCmd := w, engState := .busy, done := false, err := .none,
                                slack := k, accepted := s.accepted + 1 } ∧
      ∀ rest, s.host = .write a w :: rest →
        step s = .next { s with engCmd := w, engState := .busy, done := false, err := .none,
                                slack := k, accepted := s.accepted + 1, host := rest }) ∧
    (s.engState = .busy → busWrite a w s = { s with werr := true })

/-- 60_exceptions.md R376: a host command that raises Param, Illegal, Overflow, NotFound or SizeMismatch writes no
register and no memory; ENCODE writes nothing on Capacity either. -/
def Obligations.FailedCommandsWriteNothing : Prop :=
  ∀ (i : Instr) (s t : State), exec i s = .next t →
    (t.err ∈ [Err.param, .illegal, .overflow, .notFound, .sizeMismatch] ∨ i = .encode ∧ t.err = .capacity) →
    t = { s with err := t.err, engState := .idle, done := true }

/-- 45_control.md R355, R351: a host command changes no word outside its output set and STATUS, whatever the address; the
sets are those of `outputSpans`, by OP code and address. (Reads compared at the same draw number, log 5.) -/
def Obligations.CommandsWriteOnlyOutputSet : Prop :=
  ∀ (w : Word) (s t : State) (a : Addr), legalParams s.par = true → exec (decodeCmd w) s = .next t →
    inOutputSpans s.par w (wordAddr a) = false → wordAddr a ≠ 0x00C →
    locValue { t with draws := s.draws } (locate s.par a) = locValue s (locate s.par a)

/-- 70_reset_and_hazards.md R416 with 20_memory.md R92: an accepted command completes after finitely many host steps,
and it computes on the registers and memory as they stood: no host step in between changes them. That `slack` bounds
their number is the model's choice (log 4). The host does not touch `rst` meanwhile. -/
def Obligations.CommandsCompleteOnFrozenInputs : Prop :=
  ∀ s : State, s.rst = false → s.engState = .busy → (∀ l, HostOp.rst l ∉ s.host) →
    ∃ k u, k ≤ s.slack ∧ Sys2Proof.core.run k s = .next u ∧ u.regs = s.regs ∧ u.mem = s.mem ∧
      u.engState = .busy ∧ u.engCmd = s.engCmd ∧ u.par = s.par ∧ step u = exec (decodeCmd s.engCmd) u

/-! The bus. -/

/-- 20_memory.md R85: address bits 1:0 are ignored by reads and writes. -/
def Obligations.LowAddressBitsIgnored : Prop :=
  (∀ a : Addr, wordAddr a = a.toNat - a.toNat % 4) ∧
  ∀ (s : State) (a b : Addr) (v : Word), wordAddr a = wordAddr b →
    busRead a s = busRead b s ∧ busWrite a v s = busWrite b v s

/-- 20_memory.md R86: an unmapped word reads 0, while BUSY too, and an IDLE core ignores a write to it. R82: an IDLE
core ignores a write to a read-only register or memory. -/
def Obligations.UnmappedAndReadOnlyWords : Prop :=
  (∀ (s : State) (a : Addr) (v : Word), unmappedAddr s.par (wordAddr a) →
    busRead a s = 0 ∧ (s.engState = .idle → busWrite a v s = s)) ∧
  ∀ (s : State) (a : Addr) (v : Word), readOnlyAddr s.par (wordAddr a) → s.engState = .idle → busWrite a v s = s

/-- 20_memory.md R82, R89: a write to a read/write register of an IDLE core stores the register's defined bits, and the
next read returns them; every other word of the bus reads as before, STATUS, the read-only registers and the buffers
among them, and ENG_STATE, ENG_CMD, DONE, WERR, ERR and the memory are unchanged. -/
def Obligations.RegisterWritesReadBack : Prop :=
  ∀ (s : State) (v : Word), s.rst = false → s.engState = .idle →
    ∀ p ∈ storedBits, ∀ t, t = busWrite (BitVec.ofNat 20 p.1) v s →
      busRead (BitVec.ofNat 20 p.1) t = v &&& BitVec.ofNat 32 p.2 ∧
      t = { s with regs := t.regs } ∧
      ∀ b : Addr, wordAddr b ≠ p.1 → busRead b t = busRead b s

/-- 10_state.md R48, R49, 20_memory.md R89: a host write to EDGE_MEM[i] or SAMPLE_MEM[i] of an IDLE core is what the next
read returns (a sample's bits above SAMPLE_W-1 read 0), and nothing else changes, no byte outside that entry either. -/
def Obligations.BufferWritesReadBack : Prop :=
  ∀ (s : State) (v : Word) (a : Addr) (i : Nat), legalParams s.par = true → s.rst = false → s.engState = .idle →
    (i < s.par.nEdge → wordAddr a = 0x8000 + 4 * i →
      busRead a (busWrite a v s) = v ∧ busWrite a v s = { s with mem := (busWrite a v s).mem } ∧
      ∀ b : Nat, b < 0x8000 + 4 * i ∨ 0x8000 + 4 * i + 4 ≤ b →
        byteAt (busWrite a v s).mem b = byteAt s.mem b) ∧
    (i < s.par.nSample → wordAddr a = 0x10000 + 4 * i →
      (busRead a (busWrite a v s)).toNat = v.toNat % 2 ^ s.par.sampleW ∧
      busWrite a v s = { s with mem := (busWrite a v s).mem } ∧
      ∀ b : Nat, b < 0x10000 + 4 * i ∨ 0x10000 + 4 * i + 4 ≤ b →
        byteAt (busWrite a v s).mem b = byteAt s.mem b)

/-- 20_memory.md R82: writing the same word twice is writing it once, but for CMD. -/
def Obligations.WritesAreIdempotent : Prop :=
  ∀ (s : State) (a : Addr) (v : Word), wordAddr a ≠ 0x008 →
    busWrite a v (busWrite a v s) = busWrite a v s

/-- 20_memory.md R82: a host read changes nothing of the core, IDLE or BUSY: only the host's own program and values, and
the model's draw number and remaining latency (log 4, 5), move. The other host steps beside it: a write is the bus
write and nothing more; WAIT (30_encoding.md R131) stays at the head while BUSY and is passed when BUSY = 0 (log 12);
driving a low `rst` low does nothing; an IDLE core with no host operation keeps its state (60_exceptions.md R384). -/
def Obligations.ReadsChangeNothing : Prop :=
  (∀ (s : State) (a : Addr) (rest : List HostOp), s.host = .read a :: rest → s.rst = false → s.engState = .idle →
    step s = .next { s with host := rest, reads := busRead a s :: s.reads, draws := s.draws + 1 }) ∧
  (∀ (s : State) (a : Addr) (rest : List HostOp), s.host = .read a :: rest → s.rst = false → s.engState = .busy →
    s.slack ≠ 0 →
    step s = .next { s with host := rest, reads := busRead a s :: s.reads, draws := s.draws + 1,
                            slack := s.slack - 1 }) ∧
  (∀ (s : State) (a : Addr),
    hostOp (.read a) s = { s with host := s.host.tail, reads := busRead a s :: s.reads, draws := s.draws + 1 }) ∧
  (∀ (s : State) (a : Addr) (v : Word) (rest : List HostOp), s.host = .write a v :: rest → s.rst = false →
    (s.engState = .idle → step s = .next (busWrite a v { s with host := rest })) ∧
    (s.engState = .busy → s.slack ≠ 0 →
      step s = .next (busWrite a v { s with host := rest, slack := s.slack - 1 }))) ∧
  (∀ (s : State) (rest : List HostOp), s.host = .wait :: rest → s.rst = false →
    (s.engState = .idle → step s = .next { s with host := rest }) ∧
    (s.engState = .busy → s.slack ≠ 0 → step s = .next { s with slack := s.slack - 1 })) ∧
  (∀ (s : State) (rest : List HostOp), s.host = .rst false :: rest → s.rst = false →
    (s.engState = .idle → step s = .next { s with host := rest }) ∧
    (s.engState = .busy → s.slack ≠ 0 → step s = .next { s with host := rest, slack := s.slack - 1 })) ∧
  ∀ s : State, s.host = [] → s.rst = false → s.engState = .idle → step s = .next s

/-- 10_state.md R34: the STATUS word's bits, and what a write to it does in IDLE and in BUSY alike. -/
def Obligations.StatusBitsAndClears : Prop :=
  (∀ s : State, (statusWord s).getLsbD 0 = s.busy ∧ (statusWord s).getLsbD 1 = s.done ∧
    (statusWord s).getLsbD 2 = s.werr ∧ (statusWord s).extractLsb' 4 4 = BitVec.ofNat 4 s.err.code ∧
    (statusWord s).getLsbD 3 = false ∧ (statusWord s).extractLsb' 8 24 = 0) ∧
  (∀ (s : State) (a : Addr) (v : Word), wordAddr a = 0x00C → s.rst = false →
    busWrite a v s = { s with done := s.done && !v.getLsbD 1, werr := s.werr && !v.getLsbD 2 } ∧
    busRead a s = statusWord s)

/-- 70_reset_and_hazards.md R410, R412: a write while BUSY to any address but STATUS, CMD included, is ignored and sets
WERR; a write to STATUS acts as in IDLE. -/
def Obligations.BusyWritesAreIgnored : Prop :=
  ∀ (s : State) (a : Addr) (v : Word), s.rst = false → s.engState = .busy →
    (wordAddr a ≠ 0x00C → busWrite a v s = { s with werr := true }) ∧
    (wordAddr a = 0x00C →
      busWrite a v s = { s with done := s.done && !v.getLsbD 1, werr := s.werr && !v.getLsbD 2 })

/-- 20_memory.md R82, R89, 10_state.md R31-R50, 70_reset_and_hazards.md R411, 45_control.md R355: what a bus read returns.
In an IDLE core, and in a BUSY one outside the running command's output set, every register reads its fields in their
bit places (`registerWords`) and every configured buffer entry its word in memory. The output sets are those of
`outputSpans`, by OP code and address: so CTRL, CRC_DATA, MSG_TYPE, FIELD, the timing and Schmitt registers, the receive
buffer and SAMPLE_CNT are in none but SOFT_RESET's. (A word inside reads as a free value while BUSY, log 7: nothing is claimed of it.) -/
def Obligations.BusyReadsOutsideOutputSet : Prop :=
  (∀ s : State, ∀ p ∈ registerWords s, s.engState = .idle ∨ inOutputSpans s.par s.engCmd p.1 = false →
    busRead (BitVec.ofNat 20 p.1) s = p.2) ∧
  (∀ (s : State) (a : Addr) (i : Nat), legalParams s.par = true →
    s.engState = .idle ∨ inOutputSpans s.par s.engCmd (wordAddr a) = false →
    (i < s.par.nPulse → wordAddr a = 0x1000 + 4 * i → busRead a s = wordRead s.draws s.mem (0x1000 + 4 * i)) ∧
    (i < 32 * s.par.nResult → wordAddr a = 0x4000 + 4 * i →
      busRead a s = wordRead s.draws s.mem (0x4000 + 4 * i)) ∧
    (i < s.par.nEdge → wordAddr a = 0x8000 + 4 * i → busRead a s = wordRead s.draws s.mem (0x8000 + 4 * i)) ∧
    (i < s.par.nSample → wordAddr a = 0x10000 + 4 * i →
      (busRead a s).toNat = (wordRead s.draws s.mem (0x10000 + 4 * i)).toNat % 2 ^ s.par.sampleW)) ∧
  (∀ (p : Params) (w : Word) (a : Addr), legalParams p = true →
    inOutputSet (decodeCmd w) (locate p a) = inOutputSpans p w (wordAddr a)) ∧
  ∀ (s : State), cmdOp s.engCmd ≠ 15 →
    ∀ p ∈ registerWords s, p.1 ∈ [0x004, 0x014, 0x020, 0x024, 0x028, 0x02C, 0x030, 0x034, 0x038, 0x040, 0x044, 0x048,
        0x04C, 0x050, 0x054, 0x058, 0x05C, 0x060, 0x080, 0x084, 0x088, 0x0C4] →
      busRead (BitVec.ofNat 20 p.1) s = p.2

/-- 60_exceptions.md R378: irq is DONE AND IE, so a completion raises it when IE = 1 and it stays low when IE = 0; a
1 written to DONE, an acceptance and a reset lower it. -/
def Obligations.IrqFollowsDone : Prop :=
  (∀ s : State, s.irq = (s.done && s.regs.ie)) ∧
  (∀ (s : State) (e : Err), (complete e s).irq = s.regs.ie) ∧
  (∀ (s : State) (v : Word), v.getLsbD 1 = true → (writeStatus v s).irq = false) ∧
  (∀ (s : State) (w : Word), (accept w s).irq = false) ∧ ∀ s : State, (powerOn s).irq = false

/-- 70_reset_and_hazards.md R401: asserting `rst` puts the core in its reset state at once, a running command abandoned;
while it stays asserted every step leaves the core there, whatever the host does, and it stays asserted unless the
host's next operation releases it. The parameters do not change (log 8). That the host goes on meanwhile, one operation
a step, and that a read then gives what the core in reset holds, is the model's choice (log 10). -/
def Obligations.RstHoldsCoreInReset : Prop :=
  (∀ (s : State) (rest : List HostOp), s.host = .rst true :: rest → s.rst = false → engineTurn s = false →
    ∃ t, step s = .next t ∧ t.rst = true ∧ atReset t ∧ t.host = rest ∧ t.reads = s.reads ∧ t.par = s.par) ∧
  (∀ s : State, s.rst = true → ∃ t, step s = .next t ∧ atReset t ∧ t.par = s.par ∧ t.host = s.host.tail ∧
    ((∃ rest, s.host = .rst false :: rest) → t.rst = false) ∧
    ((∀ rest, s.host ≠ .rst false :: rest) → t.rst = true) ∧
    (∀ a rest, s.host = .read a :: rest → t.reads = busRead a (powerOn s) :: s.reads) ∧
    (∀ p ∈ resetTable, ∀ rest, s.host = .read (BitVec.ofNat 20 p.1) :: rest →
      t.reads = BitVec.ofNat 32 p.2 :: s.reads) ∧
    ((∀ a rest, s.host ≠ .read a :: rest) → t.reads = s.reads))

/-! The invariant. -/

/-- Every step keeps the invariant, from every state that has it. -/
def Obligations.StepKeepsInvariant : Prop :=
  ∀ s t : State, s.Inv → step s = .next t → t.Inv

/-- The state after reset has the invariant. -/
def Obligations.ResetHasInvariant : Prop := State.reset.Inv
end

