-- ==== Sys2Proof/Laws/BitSeq.lean ====
section
/-! SUPPORT. Laws of bit sequences and of the message framework's parts. -/

namespace Sys2Proof.Machine

@[simp] theorem bitsOf_zero (v : Nat) : bitsOf 0 v = [] := rfl

@[simp] theorem bitsOf_length (n v : Nat) : (bitsOf n v).length = n := by
  induction n with
  | zero => rfl
  | succ n ih => simp [bitsOf, ih]

/-- Element `i` of `bits_of(v, n)`, as 00_scope.md R13 gives it. -/
theorem bitsOf_getElem (n v i : Nat) (h : i < (bitsOf n v).length) :
    (bitsOf n v)[i] = (v / 2 ^ (n - 1 - i) % 2 == 1) := by
  induction n generalizing i with
  | zero => simp at h
  | succ n ih =>
    cases i with
    | zero => simp [bitsOf]
    | succ i =>
      have hi : i < (bitsOf n v).length := by simpa using h
      simp only [bitsOf, List.getElem_cons_succ]
      rw [ih i hi]
      congr 4
      omega

theorem uint_foldl (s : Bits) (k : Nat) :
    s.foldl (fun a b => 2 * a + b.toNat) k = k * 2 ^ s.length + uint s := by
  induction s generalizing k with
  | nil => simp [uint]
  | cons b s ih =>
    simp only [uint, List.foldl_cons, List.length_cons]
    rw [ih, ih (2 * 0 + b.toNat)]
    ring

@[simp] theorem uint_nil : uint [] = 0 := rfl

/-- The value of a sequence by its first element. -/
theorem uint_cons (b : Bool) (s : Bits) : uint (b :: s) = b.toNat * 2 ^ s.length + uint s := by
  have := uint_foldl s (2 * 0 + b.toNat)
  simpa [uint] using this

/-- The value of a concatenation. -/
theorem uint_append (s t : Bits) : uint (s ++ t) = uint s * 2 ^ t.length + uint t := by
  induction s with
  | nil => simp
  | cons b s ih =>
    rw [List.cons_append, uint_cons, uint_cons, ih, List.length_append, pow_add]
    ring

/-- A sequence's value fits its length. -/
theorem uint_lt (s : Bits) : uint s < 2 ^ s.length := by
  induction s with
  | nil => simp
  | cons b s ih =>
    rw [uint_cons, List.length_cons, pow_succ]
    cases b
    · simp; omega
    · simp; omega

/-- The rendering of a value has that value, modulo its width. -/
theorem uint_bitsOf_mod (n v : Nat) : uint (bitsOf n v) = v % 2 ^ n := by
  induction n with
  | zero => simp [Nat.mod_one]
  | succ n ih =>
    rw [bitsOf, uint_cons, bitsOf_length, ih, Nat.mod_pow_succ]
    rcases Nat.mod_two_eq_zero_or_one (v / 2 ^ n) with h | h
    · simp [h]
    · simp [h]; omega

/-- `uint(bits_of(v, n)) = v` on the domain of 00_scope.md R13. -/
theorem uint_bitsOf (n v : Nat) (h : v < 2 ^ n) : uint (bitsOf n v) = v := by
  rw [uint_bitsOf_mod, Nat.mod_eq_of_lt h]

@[simp] theorem unpackWord_length (w : Word) : (unpackWord w).length = 32 := bitsOf_length _ _

/-- Unpacking a packed word of 32 elements or more gives its first 32 elements' value back. -/
theorem packWord_toNat (s : Bits) :
    (packWord s).toNat = uint (s.take 32 ++ List.replicate (32 - s.length) false) := by
  have h := uint_lt (s.take 32 ++ List.replicate (32 - s.length) false)
  have hl : (s.take 32 ++ List.replicate (32 - s.length) false).length = 32 := by
    simp only [List.length_append, List.length_take, List.length_replicate]; omega
  rw [hl] at h
  rw [packWord, BitVec.toNat_ofNat, Nat.mod_eq_of_lt h]

/-- The leading elements of a packed sequence are the leading bits of its word (30_encoding.md R104). -/
theorem packWord_append_div (p r : Bits) (hp : p.length ≤ 32) :
    (packWord (p ++ r)).toNat / 2 ^ (32 - p.length) = uint p := by
  rw [packWord_toNat, List.take_append, List.take_of_length_le hp, List.append_assoc, uint_append]
  have hl : (r.take (32 - p.length) ++ List.replicate (32 - (p ++ r).length) false).length = 32 - p.length := by
    simp only [List.length_append, List.length_take, List.length_replicate]; omega
  have hlt := uint_lt (r.take (32 - p.length) ++ List.replicate (32 - (p ++ r).length) false)
  rw [hl] at hlt ⊢
  rw [Nat.mul_comm, Nat.mul_add_div (Nat.two_pow_pos _), Nat.div_eq_of_lt hlt, Nat.add_zero]

/-- An assembled message begins with its opcode (42_message_mux.md R202). -/
theorem toBits_begins (t : MsgType) (v : Slots) (s : Bits) (h : toBits t v = .ok s) :
    ∃ r, s = t.opcode ++ r := by
  simp only [toBits, encodeFields, MsgType.opcodeField, Codec.toBits] at h
  split at h
  · cases h
  · rename_i b hb
    split at hb
    · cases hb
    · cases hb
      cases h
      split
      · exact ⟨_, by rw [List.append_assoc]⟩
      · exact ⟨_, rfl⟩

/-! The formats of 30_encoding.md R101-R103. -/

@[simp] theorem nBits_query : MsgType.query.nBits = 17 := rfl
@[simp] theorem nBits_queryAdjust : MsgType.queryAdjust.nBits = 9 := rfl
@[simp] theorem nBits_queryRep : MsgType.queryRep.nBits = 4 := rfl
@[simp] theorem nBits_ack : MsgType.ack.nBits = 18 := rfl
@[simp] theorem nBits_nak : MsgType.nak.nBits = 8 := rfl

@[simp] theorem ofCode_code (t : MsgType) : MsgType.ofCode t.code = some t := by cases t <;> rfl

end Sys2Proof.Machine
end

