-- ==== Sys2Proof/Laws/Flags.lean ====
section
/-! SUPPORT. The words that hold flags, by their fields. -/

namespace Sys2Proof.Machine

/-- The CRC word: CRC_REG, or ZERO alone when CRC_REG is 0 (10_state.md R35). -/
theorem crcWord_eq (r : Regs) : crcWord r = if r.crcReg = 0 then 0x100#32 else r.crcReg.setWidth 32 := by
  unfold crcWord crcZero
  generalize r.crcReg = x
  revert x
  decide

/-- The CTRL word: IE at bit 0, TRUNC at bit 1 (10_state.md R32). -/
theorem ctrlWord_eq (r : Regs) :
    ctrlWord r = (if r.ie then 1#32 else 0#32) ||| (if r.trunc then 2#32 else 0#32) := by
  unfold ctrlWord
  generalize r.ie = a
  generalize r.trunc = b
  revert a b
  decide

end Sys2Proof.Machine
end

