-- ==== Sys2Proof/Laws/Memory.lean ====
section
/-! SUPPORT. The laws of the buffer memory: read after write, frame, and the canonical form. -/

namespace Sys2Proof.Machine

@[simp] theorem byteAt_nil (a : Nat) : byteAt [] a = none := rfl

/-- A written byte is read back. -/
@[simp] theorem byteAt_writeByte_same (m : Memory) (a : Nat) (b : Byte) : byteAt (writeByte m a b) a = some b := by
  induction m with
  | nil => simp [writeByte, byteAt]
  | cons c rest ih =>
    obtain ⟨k, x⟩ := c
    simp only [writeByte]
    split
    · simp [byteAt]
    · split
      · simp [byteAt]
      · rename_i _ h
        simp [byteAt, Ne.symm h, ih]

/-- A written byte leaves every other address alone. -/
theorem byteAt_writeByte_other (m : Memory) (a a' : Nat) (b : Byte) (h : a' ≠ a) :
    byteAt (writeByte m a b) a' = byteAt m a' := by
  induction m with
  | nil => simp [writeByte, byteAt, Ne.symm h]
  | cons c rest ih =>
    obtain ⟨k, x⟩ := c
    simp only [writeByte]
    split
    · simp [byteAt, Ne.symm h]
    · split
      · rename_i _ hk
        subst hk
        simp [byteAt, Ne.symm h]
      · simp only [byteAt, ih]

/-- A byte write, read anywhere. -/
theorem byteAt_writeByte (m : Memory) (a a' : Nat) (b : Byte) :
    byteAt (writeByte m a b) a' = if a' = a then some b else byteAt m a' := by
  split
  · rename_i h
    rw [h, byteAt_writeByte_same]
  · rename_i h
    exact byteAt_writeByte_other m a a' b h

theorem risingAbove_writeByte (lo : Nat) (m : Memory) (a : Nat) (b : Byte) (hlo : lo < a)
    (h : risingAbove lo m = true) : risingAbove lo (writeByte m a b) = true := by
  induction m generalizing lo with
  | nil => simp [writeByte, risingAbove, hlo]
  | cons c rest ih =>
    obtain ⟨k, x⟩ := c
    simp only [risingAbove, Bool.and_eq_true, decide_eq_true_eq] at h
    simp only [writeByte]
    split
    · simp [risingAbove, *]
    · split
      · rename_i _ hk
        subst hk
        simp [risingAbove, hlo, h.2]
      · have : k < a := by omega
        simp [risingAbove, h.1, ih k this h.2]

/-- A byte write keeps the canonical form. -/
theorem wf_writeByte (m : Memory) (a : Nat) (b : Byte) (h : Memory.wf m = true) :
    Memory.wf (writeByte m a b) = true := by
  cases m with
  | nil => rfl
  | cons c rest =>
    obtain ⟨k, x⟩ := c
    simp only [Memory.wf] at h
    simp only [writeByte]
    split
    · simp [Memory.wf, risingAbove, *]
    · split
      · rename_i _ hk
        subst hk
        simpa [Memory.wf] using h
      · have : k < a := by omega
        simpa [Memory.wf] using risingAbove_writeByte k rest a b this h

/-- A word write keeps the canonical form. -/
theorem wf_wordWrite (m : Memory) (a : Nat) (w : Word) (h : Memory.wf m = true) :
    Memory.wf (wordWrite m a w) = true := by
  simp only [wordWrite]
  exact wf_writeByte _ _ _ (wf_writeByte _ _ _ (wf_writeByte _ _ _ (wf_writeByte _ _ _ h)))

/-- Writing consecutive words keeps the canonical form. -/
theorem wf_wordsWrite (ws : List Word) (m : Memory) (a : Nat) (h : Memory.wf m = true) :
    Memory.wf (wordsWrite m a ws) = true := by
  induction ws generalizing m a with
  | nil => exact h
  | cons w ws ih => exact ih _ _ (wf_wordWrite m a w h)

/-- What a word write leaves at every address. -/
theorem byteAt_wordWrite (m : Memory) (a a' : Nat) (w : Word) :
    byteAt (wordWrite m a w) a' =
      if a' = a + 3 then some (w.extractLsb' 24 8)
      else if a' = a + 2 then some (w.extractLsb' 16 8)
      else if a' = a + 1 then some (w.extractLsb' 8 8)
      else if a' = a then some (w.extractLsb' 0 8)
      else byteAt m a' := by
  simp only [wordWrite, byteAt_writeByte]

/-- A word write leaves every byte outside its four alone. -/
theorem byteAt_wordWrite_other (m : Memory) (a a' : Nat) (w : Word) (h : a' < a ∨ a + 4 ≤ a') :
    byteAt (wordWrite m a w) a' = byteAt m a' := by
  rw [byteAt_wordWrite, if_neg (by omega), if_neg (by omega), if_neg (by omega), if_neg (by omega)]

/-- Writing consecutive words leaves every byte outside them alone. -/
theorem byteAt_wordsWrite_other (ws : List Word) (m : Memory) (a a' : Nat)
    (h : a' < a ∨ a + 4 * ws.length ≤ a') : byteAt (wordsWrite m a ws) a' = byteAt m a' := by
  induction ws generalizing m a with
  | nil => rfl
  | cons w ws ih =>
    simp only [List.length_cons] at h
    rw [wordsWrite, ih _ _ (by omega), byteAt_wordWrite_other m a a' w (by omega)]

/-- A word is reassembled from its four bytes. -/
theorem word_of_bytes (w : Word) :
    w.extractLsb' 24 8 ++ w.extractLsb' 16 8 ++ w.extractLsb' 8 8 ++ w.extractLsb' 0 8 = w := by
  apply BitVec.eq_of_getLsbD_eq
  intro i hi
  simp only [BitVec.getLsbD_append, BitVec.getLsbD_extractLsb']
  repeat' split
  all_goals
    first
    | simp only [*, decide_true, Bool.true_and, Nat.zero_add]
    | skip
  all_goals
    first
    | (congr 1; omega)
    | (rw [decide_eq_true (by omega), Bool.true_and]; congr 1; omega)

/-- A written word is read back, whatever the draw. -/
@[simp] theorem wordRead_wordWrite_same (draw : Nat) (m : Memory) (a : Nat) (w : Word) :
    wordRead draw (wordWrite m a w) a = w := by
  simp [wordRead, byteRead, byteAt_wordWrite, word_of_bytes]

/-- A word read depends only on the four bytes it reads. -/
theorem wordRead_congr (draw : Nat) (m m' : Memory) (a : Nat)
    (h : ∀ k < 4, byteAt m (a + k) = byteAt m' (a + k)) : wordRead draw m a = wordRead draw m' a := by
  have h0 := h 0 (by omega)
  have h1 := h 1 (by omega)
  have h2 := h 2 (by omega)
  have h3 := h 3 (by omega)
  simp only [Nat.add_zero] at h0
  simp [wordRead, byteRead, h0, h1, h2, h3]

/-- Every word of a run that was written is read back, whatever the draw. -/
theorem wordRead_wordsWrite (draw : Nat) (ws : List Word) (m : Memory) (a i : Nat) (h : i < ws.length) :
    wordRead draw (wordsWrite m a ws) (a + 4 * i) = ws[i] := by
  induction ws generalizing m a i with
  | nil => simp at h
  | cons w ws ih =>
    cases i with
    | zero =>
      rw [wordsWrite, wordRead_congr draw _ (wordWrite m a w) (a + 4 * 0)]
      · simp
      · intro k hk
        exact byteAt_wordsWrite_other _ _ _ _ (by omega)
    | succ i =>
      have := ih (wordWrite m a w) (a + 4) i (by simpa using h)
      simpa [wordsWrite, Nat.mul_add, Nat.add_comm, Nat.add_left_comm, Nat.add_assoc] using this

@[simp] theorem wordsRead_length (draw : Nat) (m : Memory) (a n : Nat) : (wordsRead draw m a n).length = n := by
  induction n generalizing a with
  | zero => rfl
  | succ n ih => simp [wordsRead, ih]

/-- Entry `i` of a run of words is the word at its own address. -/
theorem wordsRead_getElem? (draw : Nat) (m : Memory) (a n i : Nat) (h : i < n) :
    (wordsRead draw m a n)[i]? = some (wordRead draw m (a + 4 * i)) := by
  induction n generalizing a i with
  | zero => omega
  | succ n ih =>
    cases i with
    | zero => rfl
    | succ i =>
      simp only [wordsRead, List.getElem?_cons_succ]
      rw [ih _ _ (by omega)]
      congr 2
      omega

/-- The listed addresses after a byte write: the old ones and the written one. -/
theorem mem_writeByte (m : Memory) (a : Nat) (b : Byte) (c : Host.Cell) (h : c ∈ writeByte m a b) :
    c = (a, b) ∨ c ∈ m := by
  induction m with
  | nil => simpa [writeByte] using h
  | cons d rest ih =>
    obtain ⟨k, x⟩ := d
    simp only [writeByte] at h
    split at h
    · simpa using h
    · split at h
      · rcases List.mem_cons.mp h with h | h
        · exact .inl h
        · exact .inr (List.mem_cons_of_mem _ h)
      · rcases List.mem_cons.mp h with h | h
        · exact .inr (h ▸ List.mem_cons_self)
        · rcases ih h with h | h
          · exact .inl h
          · exact .inr (List.mem_cons_of_mem _ h)

/-- The listed addresses after a run of words was written: the old ones, and those of the run. -/
theorem mem_wordsWrite (ws : List Word) (m : Memory) (a : Nat) (c : Host.Cell) (h : c ∈ wordsWrite m a ws) :
    c ∈ m ∨ (a ≤ c.1 ∧ c.1 < a + 4 * ws.length) := by
  induction ws generalizing m a with
  | nil => exact .inl h
  | cons w ws ih =>
    rcases ih _ _ h with h | h
    · simp only [wordWrite] at h
      rcases mem_writeByte _ _ _ _ h with h | h
      · right; subst h; simp only [List.length_cons]; omega
      rcases mem_writeByte _ _ _ _ h with h | h
      · right; subst h; simp only [List.length_cons]; omega
      rcases mem_writeByte _ _ _ _ h with h | h
      · right; subst h; simp only [List.length_cons]; omega
      rcases mem_writeByte _ _ _ _ h with h | h
      · right; subst h; simp only [List.length_cons]; omega
      exact .inl h
    · right; simp only [List.length_cons]; omega

end Sys2Proof.Machine
end

