-- ==== Sys2Proof/Laws/Operands.lean ====
section
/-! SUPPORT. What an address reaches, window by window (20_memory.md R86): cite these instead of unfolding the map. -/

namespace Sys2Proof.Machine

theorem locateAt_regs (p : Params) (a : Nat) (h : a < 0x100) : locateAt p a = regAt a := by
  unfold locateAt; rw [if_pos h]

theorem locateAt_between (p : Params) (a : Nat) (h : 0x100 ≤ a) (h' : a < 0x1000) :
    locateAt p a = .unmapped := by
  unfold locateAt; rw [if_neg (by omega), if_pos (show a < pulseBase from h')]

theorem locateAt_pulseWindow (p : Params) (a : Nat) (h : 0x1000 ≤ a) (h' : a < 0x4000) :
    locateAt p a = entryOr p.nPulse 64 .pulse ((a - 0x1000) / 4) := by
  unfold locateAt
  rw [if_neg (by omega), if_neg (show ¬a < pulseBase by unfold pulseBase; omega), if_pos (show a < resultBase from h')]
  rfl

theorem locateAt_resultWindow (p : Params) (a : Nat) (h : 0x4000 ≤ a) (h' : a < 0x8000) :
    locateAt p a = entryOr (32 * p.nResult) 256 .result ((a - 0x4000) / 4) := by
  unfold locateAt
  rw [if_neg (by omega), if_neg (show ¬a < pulseBase by unfold pulseBase; omega),
    if_neg (show ¬a < resultBase by unfold resultBase; omega), if_pos (show a < edgeBase from h')]
  rfl

theorem locateAt_edgeWindow (p : Params) (a : Nat) (h : 0x8000 ≤ a) (h' : a < 0x10000) :
    locateAt p a = entryOr p.nEdge 4096 .edge ((a - 0x8000) / 4) := by
  unfold locateAt
  rw [if_neg (by omega), if_neg (show ¬a < pulseBase by unfold pulseBase; omega),
    if_neg (show ¬a < resultBase by unfold resultBase; omega),
    if_neg (show ¬a < edgeBase by unfold edgeBase; omega), if_pos (show a < sampleBase from h')]
  rfl

theorem locateAt_sampleWindow (p : Params) (a : Nat) (h : 0x10000 ≤ a) :
    locateAt p a = entryOr p.nSample 65536 .sample ((a - 0x10000) / 4) := by
  unfold locateAt
  rw [if_neg (by omega), if_neg (show ¬a < pulseBase by unfold pulseBase; omega),
    if_neg (show ¬a < resultBase by unfold resultBase; omega),
    if_neg (show ¬a < edgeBase by unfold edgeBase; omega),
    if_neg (show ¬a < sampleBase by unfold sampleBase; omega)]
  rfl

theorem entryOr_in (n cap : Nat) (mk : Nat → Loc) (i : Nat) (h : i < n) (h' : i < cap) :
    entryOr n cap mk i = mk i := by
  unfold entryOr; rw [if_pos ⟨h, h'⟩]

theorem entryOr_out (n cap : Nat) (mk : Nat → Loc) (i : Nat) (h : n ≤ i ∨ cap ≤ i) :
    entryOr n cap mk i = .unmapped := by
  unfold entryOr; rw [if_neg (by omega)]

/-- PULSE_MEM[i] of a configured entry. -/
theorem locateAt_pulse (p : Params) (i : Nat) (h : i < p.nPulse) (h' : i < 64) :
    locateAt p (0x1000 + 4 * i) = .pulse i := by
  rw [locateAt_pulseWindow p _ (by omega) (by omega), show (0x1000 + 4 * i - 0x1000) / 4 = i by omega,
    entryOr_in _ _ _ _ h h']

/-- Word `i` of RESULT_MEM of a configured record. -/
theorem locateAt_result (p : Params) (i : Nat) (h : i < 32 * p.nResult) (h' : i < 256) :
    locateAt p (0x4000 + 4 * i) = .result i := by
  rw [locateAt_resultWindow p _ (by omega) (by omega), show (0x4000 + 4 * i - 0x4000) / 4 = i by omega,
    entryOr_in _ _ _ _ h h']

/-- EDGE_MEM[i] of a configured entry. -/
theorem locateAt_edge (p : Params) (i : Nat) (h : i < p.nEdge) (h' : i < 4096) :
    locateAt p (0x8000 + 4 * i) = .edge i := by
  rw [locateAt_edgeWindow p _ (by omega) (by omega), show (0x8000 + 4 * i - 0x8000) / 4 = i by omega,
    entryOr_in _ _ _ _ h h']

/-- SAMPLE_MEM[i] of a configured entry. -/
theorem locateAt_sample (p : Params) (i : Nat) (h : i < p.nSample) (h' : i < 65536) :
    locateAt p (0x10000 + 4 * i) = .sample i := by
  rw [locateAt_sampleWindow p _ (by omega), show (0x10000 + 4 * i - 0x10000) / 4 = i by omega,
    entryOr_in _ _ _ _ h h']

/-- A word-aligned address of the register window is its own word address. -/
theorem wordAddr_ofNat (n : Nat) (h : n < 0x100) (h4 : n % 4 = 0) : wordAddr (BitVec.ofNat 20 n) = n := by
  simp [wordAddr]
  omega

/-- What an access to the register window reaches. -/
theorem locate_register (p : Params) (n : Nat) (h : n < 0x100) (h4 : n % 4 = 0) :
    locate p (BitVec.ofNat 20 n) = regAt n := by
  unfold locate
  rw [wordAddr_ofNat n h h4, locateAt_regs p n h]

/-- No register stands at an address that holds a buffer entry. -/
theorem regAt_noBuffer (n : Nat) (i : Nat) :
    regAt n ≠ .pulse i ∧ regAt n ≠ .result i ∧ regAt n ≠ .edge i ∧ regAt n ≠ .sample i := by
  unfold regAt
  split <;> simp

/-- A register's address, read back from what stands there. -/
theorem locAddr_regAt (n : Nat) (h : n < 0x100) (h4 : n % 4 = 0) (hr : regAt n ≠ .unmapped) :
    locAddr (regAt n) = some n := by
  have key : ∀ a < 64, regAt (4 * a) ≠ .unmapped → locAddr (regAt (4 * a)) = some (4 * a) := by decide
  have := key (n / 4) (by omega)
  rw [show 4 * (n / 4) = n by omega] at this
  exact this hr

/-- Every register stands at one word address. -/
theorem locateAt_register_inj (p : Params) (n m : Nat) (hn : n < 0x100) (hn4 : n % 4 = 0) (hm4 : m % 4 = 0)
    (h : locateAt p m = regAt n) (hr : regAt n ≠ .unmapped) : m = n := by
  have hcases : m < 0x100 ∨ (0x100 ≤ m ∧ m < 0x1000) ∨ (0x1000 ≤ m ∧ m < 0x4000) ∨ (0x4000 ≤ m ∧ m < 0x8000) ∨
      (0x8000 ≤ m ∧ m < 0x10000) ∨ 0x10000 ≤ m := by omega
  have hb := regAt_noBuffer n
  rcases hcases with h' | h' | h' | h' | h' | h'
  · rw [locateAt_regs _ _ h'] at h
    have hm := locAddr_regAt m h' hm4 (h ▸ hr)
    rw [h, locAddr_regAt n hn hn4 hr] at hm
    exact (Option.some.inj hm).symm
  · rw [locateAt_between _ _ h'.1 h'.2] at h
    exact absurd h.symm hr
  all_goals
    first
    | rw [locateAt_pulseWindow _ _ h'.1 h'.2] at h
    | rw [locateAt_resultWindow _ _ h'.1 h'.2] at h
    | rw [locateAt_edgeWindow _ _ h'.1 h'.2] at h
    | rw [locateAt_sampleWindow _ _ h'] at h
    unfold entryOr at h
    split at h
    · first
      | exact absurd h.symm (hb _).1
      | exact absurd h.symm (hb _).2.1
      | exact absurd h.symm (hb _).2.2.1
      | exact absurd h.symm (hb _).2.2.2
    · exact absurd h.symm hr

end Sys2Proof.Machine
end

