-- ==== Sys2Proof/Laws/State.lean ====
section
/-! SUPPORT. One lemma per field per update of the state and of the registers, each true by rfl. -/

namespace Sys2Proof.Machine

/-! What `accept` leaves in each field. -/

@[simp] theorem accept_par (w : Word) (s : State) : (accept w s).par = s.par := rfl
@[simp] theorem accept_regs (w : Word) (s : State) : (accept w s).regs = s.regs := rfl
@[simp] theorem accept_done (w : Word) (s : State) : (accept w s).done = false := rfl
@[simp] theorem accept_werr (w : Word) (s : State) : (accept w s).werr = s.werr := rfl
@[simp] theorem accept_err (w : Word) (s : State) : (accept w s).err = .none := rfl
@[simp] theorem accept_engState (w : Word) (s : State) : (accept w s).engState = .busy := rfl
@[simp] theorem accept_engCmd (w : Word) (s : State) : (accept w s).engCmd = w := rfl
@[simp] theorem accept_mem (w : Word) (s : State) : (accept w s).mem = s.mem := rfl
@[simp] theorem accept_rst (w : Word) (s : State) : (accept w s).rst = s.rst := rfl
@[simp] theorem accept_host (w : Word) (s : State) : (accept w s).host = s.host := rfl
@[simp] theorem accept_reads (w : Word) (s : State) : (accept w s).reads = s.reads := rfl
@[simp] theorem accept_slack (w : Word) (s : State) : (accept w s).slack = Config.engineDelay s.accepted := rfl
@[simp] theorem accept_accepted (w : Word) (s : State) : (accept w s).accepted = s.accepted + 1 := rfl
@[simp] theorem accept_draws (w : Word) (s : State) : (accept w s).draws = s.draws := rfl

/-! What `complete` leaves in each field. -/

@[simp] theorem complete_par (e : Err) (s : State) : (complete e s).par = s.par := rfl
@[simp] theorem complete_regs (e : Err) (s : State) : (complete e s).regs = s.regs := rfl
@[simp] theorem complete_done (e : Err) (s : State) : (complete e s).done = true := rfl
@[simp] theorem complete_werr (e : Err) (s : State) : (complete e s).werr = s.werr := rfl
@[simp] theorem complete_err (e : Err) (s : State) : (complete e s).err = e := rfl
@[simp] theorem complete_engState (e : Err) (s : State) : (complete e s).engState = .idle := rfl
@[simp] theorem complete_engCmd (e : Err) (s : State) : (complete e s).engCmd = s.engCmd := rfl
@[simp] theorem complete_mem (e : Err) (s : State) : (complete e s).mem = s.mem := rfl
@[simp] theorem complete_rst (e : Err) (s : State) : (complete e s).rst = s.rst := rfl
@[simp] theorem complete_host (e : Err) (s : State) : (complete e s).host = s.host := rfl
@[simp] theorem complete_reads (e : Err) (s : State) : (complete e s).reads = s.reads := rfl
@[simp] theorem complete_slack (e : Err) (s : State) : (complete e s).slack = s.slack := rfl
@[simp] theorem complete_accepted (e : Err) (s : State) : (complete e s).accepted = s.accepted := rfl
@[simp] theorem complete_draws (e : Err) (s : State) : (complete e s).draws = s.draws := rfl

/-! What `powerOn` leaves in each field. -/

@[simp] theorem powerOn_par (s : State) : (powerOn s).par = s.par := rfl
@[simp] theorem powerOn_regs (s : State) : (powerOn s).regs = resetRegs := rfl
@[simp] theorem powerOn_done (s : State) : (powerOn s).done = false := rfl
@[simp] theorem powerOn_werr (s : State) : (powerOn s).werr = false := rfl
@[simp] theorem powerOn_err (s : State) : (powerOn s).err = .none := rfl
@[simp] theorem powerOn_engState (s : State) : (powerOn s).engState = .idle := rfl
@[simp] theorem powerOn_engCmd (s : State) : (powerOn s).engCmd = 0 := rfl
@[simp] theorem powerOn_mem (s : State) : (powerOn s).mem = [] := rfl
@[simp] theorem powerOn_rst (s : State) : (powerOn s).rst = s.rst := rfl
@[simp] theorem powerOn_host (s : State) : (powerOn s).host = s.host := rfl
@[simp] theorem powerOn_reads (s : State) : (powerOn s).reads = s.reads := rfl
@[simp] theorem powerOn_slack (s : State) : (powerOn s).slack = 0 := rfl
@[simp] theorem powerOn_accepted (s : State) : (powerOn s).accepted = s.accepted := rfl
@[simp] theorem powerOn_draws (s : State) : (powerOn s).draws = s.draws + 1 := rfl

/-! What `receive` leaves in each field. -/

@[simp] theorem receive_par (t : MsgType) (v : Slots) (s : State) : (receive t v s).par = s.par := rfl
@[simp] theorem receive_regs (t : MsgType) (v : Slots) (s : State) : (receive t v s).regs = { s.regs with rxType := BitVec.ofNat 3 t.code, rxField := v } := rfl
@[simp] theorem receive_done (t : MsgType) (v : Slots) (s : State) : (receive t v s).done = true := rfl
@[simp] theorem receive_werr (t : MsgType) (v : Slots) (s : State) : (receive t v s).werr = s.werr := rfl
@[simp] theorem receive_err (t : MsgType) (v : Slots) (s : State) : (receive t v s).err = .none := rfl
@[simp] theorem receive_engState (t : MsgType) (v : Slots) (s : State) : (receive t v s).engState = .idle := rfl
@[simp] theorem receive_engCmd (t : MsgType) (v : Slots) (s : State) : (receive t v s).engCmd = s.engCmd := rfl
@[simp] theorem receive_mem (t : MsgType) (v : Slots) (s : State) : (receive t v s).mem = s.mem := rfl
@[simp] theorem receive_rst (t : MsgType) (v : Slots) (s : State) : (receive t v s).rst = s.rst := rfl
@[simp] theorem receive_host (t : MsgType) (v : Slots) (s : State) : (receive t v s).host = s.host := rfl
@[simp] theorem receive_reads (t : MsgType) (v : Slots) (s : State) : (receive t v s).reads = s.reads := rfl
@[simp] theorem receive_slack (t : MsgType) (v : Slots) (s : State) : (receive t v s).slack = s.slack := rfl
@[simp] theorem receive_accepted (t : MsgType) (v : Slots) (s : State) : (receive t v s).accepted = s.accepted := rfl
@[simp] theorem receive_draws (t : MsgType) (v : Slots) (s : State) : (receive t v s).draws = s.draws := rfl

/-! What `writeStatus` leaves in each field. -/

@[simp] theorem writeStatus_par (v : Word) (s : State) : (writeStatus v s).par = s.par := rfl
@[simp] theorem writeStatus_regs (v : Word) (s : State) : (writeStatus v s).regs = s.regs := rfl
@[simp] theorem writeStatus_done (v : Word) (s : State) : (writeStatus v s).done = (s.done && !v.getLsbD 1) := rfl
@[simp] theorem writeStatus_werr (v : Word) (s : State) : (writeStatus v s).werr = (s.werr && !v.getLsbD 2) := rfl
@[simp] theorem writeStatus_err (v : Word) (s : State) : (writeStatus v s).err = s.err := rfl
@[simp] theorem writeStatus_engState (v : Word) (s : State) : (writeStatus v s).engState = s.engState := rfl
@[simp] theorem writeStatus_engCmd (v : Word) (s : State) : (writeStatus v s).engCmd = s.engCmd := rfl
@[simp] theorem writeStatus_mem (v : Word) (s : State) : (writeStatus v s).mem = s.mem := rfl
@[simp] theorem writeStatus_rst (v : Word) (s : State) : (writeStatus v s).rst = s.rst := rfl
@[simp] theorem writeStatus_host (v : Word) (s : State) : (writeStatus v s).host = s.host := rfl
@[simp] theorem writeStatus_reads (v : Word) (s : State) : (writeStatus v s).reads = s.reads := rfl
@[simp] theorem writeStatus_slack (v : Word) (s : State) : (writeStatus v s).slack = s.slack := rfl
@[simp] theorem writeStatus_accepted (v : Word) (s : State) : (writeStatus v s).accepted = s.accepted := rfl
@[simp] theorem writeStatus_draws (v : Word) (s : State) : (writeStatus v s).draws = s.draws := rfl

/-! What `popHost` leaves in each field. -/

@[simp] theorem popHost_par (s : State) : (popHost s).par = s.par := rfl
@[simp] theorem popHost_regs (s : State) : (popHost s).regs = s.regs := rfl
@[simp] theorem popHost_done (s : State) : (popHost s).done = s.done := rfl
@[simp] theorem popHost_werr (s : State) : (popHost s).werr = s.werr := rfl
@[simp] theorem popHost_err (s : State) : (popHost s).err = s.err := rfl
@[simp] theorem popHost_engState (s : State) : (popHost s).engState = s.engState := rfl
@[simp] theorem popHost_engCmd (s : State) : (popHost s).engCmd = s.engCmd := rfl
@[simp] theorem popHost_mem (s : State) : (popHost s).mem = s.mem := rfl
@[simp] theorem popHost_rst (s : State) : (popHost s).rst = s.rst := rfl
@[simp] theorem popHost_host (s : State) : (popHost s).host = s.host.tail := rfl
@[simp] theorem popHost_reads (s : State) : (popHost s).reads = s.reads := rfl
@[simp] theorem popHost_slack (s : State) : (popHost s).slack = s.slack := rfl
@[simp] theorem popHost_accepted (s : State) : (popHost s).accepted = s.accepted := rfl
@[simp] theorem popHost_draws (s : State) : (popHost s).draws = s.draws := rfl

/-! What `placeCmd` leaves in each field. -/

@[simp] theorem placeCmd_par (w : Word) (s : State) : (placeCmd w s).par = s.par := rfl
@[simp] theorem placeCmd_regs (w : Word) (s : State) : (placeCmd w s).regs = s.regs := rfl
@[simp] theorem placeCmd_done (w : Word) (s : State) : (placeCmd w s).done = false := rfl
@[simp] theorem placeCmd_werr (w : Word) (s : State) : (placeCmd w s).werr = s.werr := rfl
@[simp] theorem placeCmd_err (w : Word) (s : State) : (placeCmd w s).err = .none := rfl
@[simp] theorem placeCmd_engState (w : Word) (s : State) : (placeCmd w s).engState = .busy := rfl
@[simp] theorem placeCmd_engCmd (w : Word) (s : State) : (placeCmd w s).engCmd = w := rfl
@[simp] theorem placeCmd_mem (w : Word) (s : State) : (placeCmd w s).mem = s.mem := rfl
@[simp] theorem placeCmd_rst (w : Word) (s : State) : (placeCmd w s).rst = false := rfl
@[simp] theorem placeCmd_host (w : Word) (s : State) : (placeCmd w s).host = s.host := rfl
@[simp] theorem placeCmd_reads (w : Word) (s : State) : (placeCmd w s).reads = s.reads := rfl
@[simp] theorem placeCmd_slack (w : Word) (s : State) : (placeCmd w s).slack = 0 := rfl
@[simp] theorem placeCmd_accepted (w : Word) (s : State) : (placeCmd w s).accepted = s.accepted := rfl
@[simp] theorem placeCmd_draws (w : Word) (s : State) : (placeCmd w s).draws = s.draws := rfl

/-! What `placeMessage` leaves in each field. -/

@[simp] theorem placeMessage_par (w : Word) (s : State) : (placeMessage w s).par = s.par := rfl
@[simp] theorem placeMessage_regs (w : Word) (s : State) : (placeMessage w s).regs = { s.regs with rxLen := 32, rxBits0 := w, rxBits1 := 0 } := rfl
@[simp] theorem placeMessage_done (w : Word) (s : State) : (placeMessage w s).done = false := rfl
@[simp] theorem placeMessage_werr (w : Word) (s : State) : (placeMessage w s).werr = s.werr := rfl
@[simp] theorem placeMessage_err (w : Word) (s : State) : (placeMessage w s).err = .none := rfl
@[simp] theorem placeMessage_engState (w : Word) (s : State) : (placeMessage w s).engState = .busy := rfl
@[simp] theorem placeMessage_engCmd (w : Word) (s : State) : (placeMessage w s).engCmd = 0x4 := rfl
@[simp] theorem placeMessage_mem (w : Word) (s : State) : (placeMessage w s).mem = s.mem := rfl
@[simp] theorem placeMessage_rst (w : Word) (s : State) : (placeMessage w s).rst = false := rfl
@[simp] theorem placeMessage_host (w : Word) (s : State) : (placeMessage w s).host = s.host := rfl
@[simp] theorem placeMessage_reads (w : Word) (s : State) : (placeMessage w s).reads = s.reads := rfl
@[simp] theorem placeMessage_slack (w : Word) (s : State) : (placeMessage w s).slack = 0 := rfl
@[simp] theorem placeMessage_accepted (w : Word) (s : State) : (placeMessage w s).accepted = s.accepted := rfl
@[simp] theorem placeMessage_draws (w : Word) (s : State) : (placeMessage w s).draws = s.draws := rfl

/-! What `illegalOp` leaves in each field. -/

@[simp] theorem illegalOp_par (s : State) : (illegalOp s).par = s.par := rfl
@[simp] theorem illegalOp_regs (s : State) : (illegalOp s).regs = s.regs := rfl
@[simp] theorem illegalOp_done (s : State) : (illegalOp s).done = true := rfl
@[simp] theorem illegalOp_werr (s : State) : (illegalOp s).werr = s.werr := rfl
@[simp] theorem illegalOp_err (s : State) : (illegalOp s).err = .illegal := rfl
@[simp] theorem illegalOp_engState (s : State) : (illegalOp s).engState = .idle := rfl
@[simp] theorem illegalOp_engCmd (s : State) : (illegalOp s).engCmd = s.engCmd := rfl
@[simp] theorem illegalOp_mem (s : State) : (illegalOp s).mem = s.mem := rfl
@[simp] theorem illegalOp_rst (s : State) : (illegalOp s).rst = s.rst := rfl
@[simp] theorem illegalOp_host (s : State) : (illegalOp s).host = s.host := rfl
@[simp] theorem illegalOp_reads (s : State) : (illegalOp s).reads = s.reads := rfl
@[simp] theorem illegalOp_slack (s : State) : (illegalOp s).slack = s.slack := rfl
@[simp] theorem illegalOp_accepted (s : State) : (illegalOp s).accepted = s.accepted := rfl
@[simp] theorem illegalOp_draws (s : State) : (illegalOp s).draws = s.draws := rfl

/-! What `writeTx` leaves in each register. -/

@[simp] theorem writeTx_ie (t : MsgType) (b : Bits) (r : Regs) : (writeTx t b r).ie = r.ie := rfl
@[simp] theorem writeTx_trunc (t : MsgType) (b : Bits) (r : Regs) : (writeTx t b r).trunc = r.trunc := rfl
@[simp] theorem writeTx_crcReg (t : MsgType) (b : Bits) (r : Regs) : (writeTx t b r).crcReg = r.crcReg := rfl
@[simp] theorem writeTx_crcData (t : MsgType) (b : Bits) (r : Regs) : (writeTx t b r).crcData = r.crcData := rfl
@[simp] theorem writeTx_tari (t : MsgType) (b : Bits) (r : Regs) : (writeTx t b r).tari = r.tari := rfl
@[simp] theorem writeTx_blf (t : MsgType) (b : Bits) (r : Regs) : (writeTx t b r).blf = r.blf := rfl
@[simp] theorem writeTx_samplePeriod (t : MsgType) (b : Bits) (r : Regs) : (writeTx t b r).samplePeriod = r.samplePeriod := rfl
@[simp] theorem writeTx_schmittRatio (t : MsgType) (b : Bits) (r : Regs) : (writeTx t b r).schmittRatio = r.schmittRatio := rfl
@[simp] theorem writeTx_schmittHyst (t : MsgType) (b : Bits) (r : Regs) : (writeTx t b r).schmittHyst = r.schmittHyst := rfl
@[simp] theorem writeTx_rtTol (t : MsgType) (b : Bits) (r : Regs) : (writeTx t b r).rtTol = r.rtTol := rfl
@[simp] theorem writeTx_trTol (t : MsgType) (b : Bits) (r : Regs) : (writeTx t b r).trTol = r.trTol := rfl
@[simp] theorem writeTx_msgType (t : MsgType) (b : Bits) (r : Regs) : (writeTx t b r).msgType = r.msgType := rfl
@[simp] theorem writeTx_field (t : MsgType) (b : Bits) (r : Regs) : (writeTx t b r).field = r.field := rfl
@[simp] theorem writeTx_txType (t : MsgType) (b : Bits) (r : Regs) : (writeTx t b r).txType = BitVec.ofNat 3 t.code := rfl
@[simp] theorem writeTx_txLen (t : MsgType) (b : Bits) (r : Regs) : (writeTx t b r).txLen = BitVec.ofNat 7 b.length := rfl
@[simp] theorem writeTx_txBits (t : MsgType) (b : Bits) (r : Regs) : (writeTx t b r).txBits = packWord b := rfl
@[simp] theorem writeTx_rxLen (t : MsgType) (b : Bits) (r : Regs) : (writeTx t b r).rxLen = r.rxLen := rfl
@[simp] theorem writeTx_rxBits0 (t : MsgType) (b : Bits) (r : Regs) : (writeTx t b r).rxBits0 = r.rxBits0 := rfl
@[simp] theorem writeTx_rxBits1 (t : MsgType) (b : Bits) (r : Regs) : (writeTx t b r).rxBits1 = r.rxBits1 := rfl
@[simp] theorem writeTx_rxType (t : MsgType) (b : Bits) (r : Regs) : (writeTx t b r).rxType = r.rxType := rfl
@[simp] theorem writeTx_rxField (t : MsgType) (b : Bits) (r : Regs) : (writeTx t b r).rxField = r.rxField := rfl
@[simp] theorem writeTx_pulseCnt (t : MsgType) (b : Bits) (r : Regs) : (writeTx t b r).pulseCnt = r.pulseCnt := rfl
@[simp] theorem writeTx_sampleCnt (t : MsgType) (b : Bits) (r : Regs) : (writeTx t b r).sampleCnt = r.sampleCnt := rfl
@[simp] theorem writeTx_edgeCnt (t : MsgType) (b : Bits) (r : Regs) : (writeTx t b r).edgeCnt = r.edgeCnt := rfl
@[simp] theorem writeTx_resultCnt (t : MsgType) (b : Bits) (r : Regs) : (writeTx t b r).resultCnt = r.resultCnt := rfl

/-! BUSY after each update (10_state.md R30). -/

@[simp] theorem busy_accept (w : Word) (s : State) : (accept w s).busy = true := rfl
@[simp] theorem busy_complete (e : Err) (s : State) : (complete e s).busy = false := rfl
@[simp] theorem busy_powerOn (s : State) : (powerOn s).busy = false := rfl
@[simp] theorem busy_receive (t : MsgType) (v : Slots) (s : State) : (receive t v s).busy = false := rfl
@[simp] theorem busy_writeStatus (v : Word) (s : State) : (writeStatus v s).busy = s.busy := rfl
@[simp] theorem busy_popHost (s : State) : (popHost s).busy = s.busy := rfl
@[simp] theorem busy_placeCmd (w : Word) (s : State) : (placeCmd w s).busy = true := rfl

/-- BUSY is the engine state (10_state.md R30). -/
theorem busy_iff (s : State) : s.busy = true ↔ s.engState = .busy := by
  simp [State.busy]

/-! Slots: reading after writing. -/

@[simp] theorem slots_get_set_same (v : Slots) (k : Fin 8) (c : Code) : (v.set k c).get k = c := by
  fin_cases k <;> rfl

theorem slots_get_set_other (v : Slots) (k j : Fin 8) (c : Code) (h : j ≠ k) : (v.set k c).get j = v.get j := by
  fin_cases k <;> fin_cases j <;> first | rfl | exact absurd rfl h

end Sys2Proof.Machine
end

