-- ==== Sys2Proof/Laws/Ops.lean ====
section
/-! SUPPORT. What the shared operations and the step can do, once: the cases later proofs cite. -/

namespace Sys2Proof.Machine

/-! Bus reads. -/

/-- A read of an IDLE core gives what the location holds. -/
theorem busRead_idle (a : Addr) (s : State) (h : s.busy = false) : busRead a s = locValue s (locate s.par a) := by
  simp [busRead, h]

/-- A read outside the running command's output set gives what the location holds. -/
theorem busRead_outside (a : Addr) (s : State)
    (h : inOutputSet (decodeCmd s.engCmd) (locate s.par a) = false) :
    busRead a s = locValue s (locate s.par a) := by
  simp [busRead, h]

/-- A read of the running command's output set gives a free value. -/
theorem busRead_free (a : Addr) (s : State) (hb : s.busy = true)
    (h : inOutputSet (decodeCmd s.engCmd) (locate s.par a) = true) :
    busRead a s = Config.busyRead s.draws (wordAddr a) := by
  simp [busRead, hb, h]

/-! Bus writes. -/

theorem busWrite_held (a : Addr) (v : Word) (s : State) (h : s.rst = true) : busWrite a v s = s := by
  simp [busWrite, h]

theorem busWrite_busy_status (a : Addr) (v : Word) (s : State) (hr : s.rst = false) (hb : s.busy = true)
    (h : locate s.par a = .status) : busWrite a v s = writeStatus v s := by
  simp [busWrite, hr, hb, h]

theorem busWrite_busy_other (a : Addr) (v : Word) (s : State) (hr : s.rst = false) (hb : s.busy = true)
    (h : locate s.par a ≠ .status) : busWrite a v s = { s with werr := true } := by
  simp [busWrite, hr, hb, h]

theorem busWrite_idle (a : Addr) (v : Word) (s : State) (hr : s.rst = false) (hb : s.busy = false) :
    busWrite a v s = locWrite v s (locate s.par a) := by
  simp [busWrite, hr, hb]

/-- All a bus write can do. -/
theorem busWrite_cases (a : Addr) (v : Word) (s : State) :
    (s.rst = true ∧ busWrite a v s = s) ∨
    (s.rst = false ∧ s.busy = true ∧ locate s.par a = .status ∧ busWrite a v s = writeStatus v s) ∨
    (s.rst = false ∧ s.busy = true ∧ locate s.par a ≠ .status ∧ busWrite a v s = { s with werr := true }) ∨
    (s.rst = false ∧ s.busy = false ∧ busWrite a v s = locWrite v s (locate s.par a)) := by
  rcases Bool.eq_false_or_eq_true s.rst with hr | hr
  · exact .inl ⟨hr, busWrite_held a v s hr⟩
  · rcases Bool.eq_false_or_eq_true s.busy with hb | hb
    · by_cases h : locate s.par a = .status
      · exact .inr (.inl ⟨hr, hb, h, busWrite_busy_status a v s hr hb h⟩)
      · exact .inr (.inr (.inl ⟨hr, hb, h, busWrite_busy_other a v s hr hb h⟩))
    · exact .inr (.inr (.inr ⟨hr, hb, busWrite_idle a v s hr hb⟩))

/-- A write to a location never touches the parameters, the reset input, or the host's own state. -/
theorem locWrite_outside (v : Word) (s : State) (l : Loc) :
    (locWrite v s l).par = s.par ∧ (locWrite v s l).rst = s.rst ∧ (locWrite v s l).host = s.host ∧
      (locWrite v s l).reads = s.reads ∧ (locWrite v s l).draws = s.draws := by
  cases l <;> exact ⟨rfl, rfl, rfl, rfl, rfl⟩

/-- A bus write never touches the parameters, the reset input, or the host's own state. -/
theorem busWrite_outside (a : Addr) (v : Word) (s : State) :
    (busWrite a v s).par = s.par ∧ (busWrite a v s).rst = s.rst ∧ (busWrite a v s).host = s.host ∧
      (busWrite a v s).reads = s.reads ∧ (busWrite a v s).draws = s.draws := by
  rcases busWrite_cases a v s with ⟨_, h⟩ | ⟨_, _, _, h⟩ | ⟨_, _, _, h⟩ | ⟨_, _, h⟩ <;> rw [h]
  · exact ⟨rfl, rfl, rfl, rfl, rfl⟩
  · exact ⟨rfl, rfl, rfl, rfl, rfl⟩
  · exact ⟨rfl, rfl, rfl, rfl, rfl⟩
  · exact locWrite_outside v s _

/-! Host steps. -/

theorem hostStep_nil (s : State) (h : s.host = []) : hostStep s = s := by simp [hostStep, h]

theorem hostStep_cons (s : State) (op : HostOp) (rest : List HostOp) (h : s.host = op :: rest) :
    hostStep s = hostOp op s := by simp [hostStep, h]

/-! The step. -/

theorem engineTurn_iff (s : State) : engineTurn s = true ↔ s.busy = true ∧ (s.host = [] ∨ s.slack = 0) := by
  simp [engineTurn, List.isEmpty_iff]

theorem step_held (s : State) (h : s.rst = true) : step s = .next (heldStep s) := by simp [step, h]

theorem step_engine (s : State) (hr : s.rst = false) (h : engineTurn s = true) : step s = exec (fetch s) s := by
  simp [step, hr, h]

theorem step_busyHost (s : State) (hr : s.rst = false) (hb : s.busy = true) (h : engineTurn s = false) :
    step s = .next (busyHostStep s) := by simp [step, hr, hb, h]

theorem step_idle (s : State) (hr : s.rst = false) (hb : s.busy = false) : step s = .next (hostStep s) := by
  simp [step, hr, hb, engineTurn]

/-- A step of an IDLE core is the host's next operation. -/
theorem step_idle_host (s : State) (op : HostOp) (rest : List HostOp) (h : s.host = op :: rest) (hr : s.rst = false)
    (hi : s.engState = .idle) : step s = .next (hostOp op s) := by
  rw [step_idle s hr (by simp [State.busy, hi]), hostStep_cons s op rest h]

/-- A step of a BUSY core with latency left is the host's next operation, the latency counted down. -/
theorem step_busy_host (s : State) (op : HostOp) (rest : List HostOp) (h : s.host = op :: rest) (hr : s.rst = false)
    (hb : s.engState = .busy) (hk : s.slack ≠ 0) :
    step s = .next (hostOp op { s with slack := s.slack - 1 }) := by
  have hb' : s.busy = true := by simp [State.busy, hb]
  have ht : engineTurn s = false := by simp [engineTurn, hb', h, hk]
  have hh : ({ s with slack := s.slack - 1 } : State).host = op :: rest := h
  rw [step_busyHost s hr hb' ht, busyHostStep, hostStep_cons _ op rest hh]

/-- All a step can do. -/
theorem step_cases (s : State) :
    (s.rst = true ∧ step s = .next (heldStep s)) ∨
    (s.rst = false ∧ engineTurn s = true ∧ step s = exec (fetch s) s) ∨
    (s.rst = false ∧ s.busy = true ∧ engineTurn s = false ∧ step s = .next (busyHostStep s)) ∨
    (s.rst = false ∧ s.busy = false ∧ step s = .next (hostStep s)) := by
  cases hr : s.rst
  · cases ht : engineTurn s
    · cases hb : s.busy
      · exact .inr (.inr (.inr ⟨rfl, rfl, step_idle s hr hb⟩))
      · exact .inr (.inr (.inl ⟨rfl, rfl, rfl, step_busyHost s hr hb ht⟩))
    · exact .inr (.inl ⟨rfl, rfl, step_engine s hr ht⟩)
  · exact .inl ⟨rfl, step_held s hr⟩

/-! The meanings' cases. -/

/-- All ASSEMBLE can do. -/
theorem execAssemble_cases (s : State) :
    (∃ e, assembleMsg s.regs.msgType.toNat s.regs.field = .error e ∧ execAssemble s = .next (complete e s)) ∨
    (∃ t b, assembleMsg s.regs.msgType.toNat s.regs.field = .ok (t, b) ∧
      execAssemble s = .next (complete .none { s with regs := writeTx t b s.regs })) := by
  simp only [execAssemble]
  split
  · exact .inl ⟨_, by assumption, rfl⟩
  · exact .inr ⟨_, _, by assumption, rfl⟩

/-- All PARSE can do. -/
theorem execParse_cases (s : State) :
    (maxBits < s.regs.rxLen.toNat ∧ execParse s = .next (complete .param s)) ∨
    (∃ e, s.regs.rxLen.toNat ≤ maxBits ∧ dispatch (rxSequence s.regs) = .error e ∧
      execParse s = .next (complete e s)) ∨
    (∃ t v, s.regs.rxLen.toNat ≤ maxBits ∧ dispatch (rxSequence s.regs) = .ok (t, v) ∧
      execParse s = .next (receive t v s)) := by
  simp only [execParse]
  split
  · exact .inl ⟨by assumption, rfl⟩
  · split
    · exact .inr (.inl ⟨_, by omega, by assumption, rfl⟩)
    · exact .inr (.inr ⟨_, _, by omega, by assumption, rfl⟩)

/-- All CRC_FEED can do. -/
theorem execCrcFeed_cases (n : BitVec 6) (s : State) :
    ((n.toNat = 0 ∨ 32 < n.toNat) ∧ execCrcFeed n s = .next (complete .param s)) ∨
    ((1 ≤ n.toNat ∧ n.toNat ≤ 32) ∧ execCrcFeed n s = .next (complete .none
      { s with regs := { s.regs with crcReg := crcFeed s.regs.crcReg (crcOperand s.regs n.toNat) } })) := by
  simp only [execCrcFeed]
  split
  · exact .inl ⟨by assumption, rfl⟩
  · exact .inr ⟨by omega, rfl⟩

/-- All ENCODE can do. -/
theorem execEncode_cases (s : State) :
    (∃ e, execEncode s = .next (complete e s)) ∨
    (∃ m b p, assembleMsg s.regs.msgType.toNat s.regs.field = .ok (m, b) ∧
      checkTiming m s.regs.field.f0 s.regs.tari.toNat s.regs.blf.toNat = .ok () ∧
      p = synthesise s.regs.trunc m b s.regs.field.f0 s.regs.tari.toNat s.regs.blf.toNat ∧
      p.length ≤ s.par.nPulse ∧
      execEncode s = .next (complete .none
        { s with regs := { writeTx m b s.regs with pulseCnt := BitVec.ofNat 7 p.length },
                 mem := wordsWrite s.mem pulseBase (p.map (BitVec.ofNat 32)) })) := by
  simp only [execEncode]
  split
  · exact .inl ⟨_, rfl⟩
  · split
    · exact .inl ⟨_, rfl⟩
    · split
      · exact .inl ⟨_, rfl⟩
      · exact .inr ⟨_, _, _, by assumption, by assumption, rfl, by omega, rfl⟩

/-- All EDGES can do. -/
theorem execEdges_cases (s : State) :
    ((s.par.nSample < s.regs.sampleCnt.toNat ∨ s.regs.samplePeriod = 0) ∧
      execEdges s = .next (complete .param s)) ∨
    (s.regs.sampleCnt.toNat ≤ s.par.nSample ∧ s.regs.samplePeriod ≠ 0 ∧
      ∃ e, e = stageA s.par.endFlush s.regs.schmittRatio.toNat s.regs.schmittHyst.toNat s.regs.samplePeriod.toNat
          (sampleWindow s) ∧
        execEdges s = .next (complete (if s.par.nEdge < e.length then .capacity else .none)
          { s with regs := { s.regs with edgeCnt := BitVec.ofNat 13 (e.take s.par.nEdge).length },
                   mem := wordsWrite s.mem edgeBase ((e.take s.par.nEdge).map (BitVec.ofNat 32)),
                   draws := s.draws + 1 })) := by
  simp only [execEdges]
  split
  · exact .inl ⟨by assumption, rfl⟩
  · rename_i h
    exact .inr ⟨by omega, fun h' => h (.inr h'), _, rfl, rfl⟩

/-- All DECODE can do. -/
theorem execDecode_cases (s : State) :
    (s.par.nEdge < s.regs.edgeCnt.toNat ∧ execDecode s = .next (complete .param s)) ∨
    (s.regs.edgeCnt.toNat ≤ s.par.nEdge ∧
      ∃ subs, subs = splitEdges (edgeStream s) ∧
        execDecode s = .next (complete (if s.par.nResult < subs.length then .capacity else .none)
          { s with regs := { s.regs with resultCnt := BitVec.ofNat 4 (subs.take s.par.nResult).length },
                   mem := wordsWrite s.mem resultBase ((subs.take s.par.nResult).flatMap fun sub =>
                     recordWords s.par.cmdEnd s.regs.rtTol.toNat s.regs.trTol.toNat sub.1 sub.2),
                   draws := s.draws + 1 })) := by
  simp only [execDecode]
  split
  · exact .inl ⟨by assumption, rfl⟩
  · exact .inr ⟨by omega, _, rfl, rfl⟩

end Sys2Proof.Machine
end

