-- ==== Sys2Proof/Laws/Parameters.lean ====
section
/-! SUPPORT. The fixed timing constants as Q16.16 codes (00_scope.md R10). -/

namespace Sys2Proof.Machine

theorem minTari_eq : minTari = 409600 := by decide

theorem maxTari_eq : maxTari = 1638400 := by decide

theorem delim_eq : delim = 819200 := by decide

theorem maxSymbol_eq : maxSymbol = 16384000 := by decide

end Sys2Proof.Machine
end

