-- ==== Sys2Proof/Laws/PerInstr.lean ====
section
/-! SUPPORT. The per-instruction law MatchMask: whatever the encoder writes for an instruction carries the fixed bits
of its row in spec/opcode_table.json. -/

namespace Sys2Proof.Laws

open Sys2Proof.Machine

/-- The "fixed" field of an instruction's row: its low bit, its width, its value. -/
def fixedField : Instr → Nat × Nat × Nat
  | .query _ _ _ _ _ _ _ => (28, 4, 8)
  | .queryAdjust _ _ => (28, 4, 9)
  | .queryRep _ => (30, 2, 0)
  | .ack _ => (30, 2, 1)
  | .nak => (24, 8, 192)
  | .nop => (0, 4, 0)
  | .crcInit => (0, 4, 1)
  | .crcFeed _ => (0, 4, 2)
  | .assemble => (0, 4, 3)
  | .parse => (0, 4, 4)
  | .encode => (0, 4, 5)
  | .edges => (0, 4, 6)
  | .decode => (0, 4, 7)
  | .reserved8 => (0, 4, 8)
  | .reserved9 => (0, 4, 9)
  | .reservedA => (0, 4, 10)
  | .reservedB => (0, 4, 11)
  | .reservedC => (0, 4, 12)
  | .reservedD => (0, 4, 13)
  | .reservedE => (0, 4, 14)
  | .softReset => (0, 4, 15)

/-- An encoded form as the word the table's bits number: the CMD word, or the message's packed word. -/
def tableBits : Encoded → Nat
  | .cmd w => w.toNat
  | .msg s => (packWord s).toNat

/-- The encoder's output carries the row's fixed bits. -/
def MatchMask.Statement (i : Instr) : Prop :=
  ∀ c, encode i = .ok c →
    tableBits c / 2 ^ (fixedField i).1 % 2 ^ (fixedField i).2.1 = (fixedField i).2.2

/-- The message rows: the opcode leads the packed word. -/
theorem encodeMsg_opcode (t : MsgType) (v : Slots) (c : Encoded) (h : encodeMsg t v = .ok c) :
    tableBits c / 2 ^ (32 - t.opcode.length) = uint t.opcode := by
  simp only [encodeMsg] at h
  split at h
  · cases h
  · rename_i s hs
    obtain ⟨r, rfl⟩ := toBits_begins t v s hs
    cases h
    exact packWord_append_div t.opcode r (by cases t <;> decide)

theorem MatchMask.query (dr m trext sel session target q : Code) :
    MatchMask.Statement (.query dr m trext sel session target q) := by
  intro c h
  have := encodeMsg_opcode _ _ c h
  simp only [MsgType.opcode, List.length_cons, List.length_nil] at this
  simp only [fixedField]
  rw [this]
  rfl

theorem MatchMask.queryAdjust (session updn : Code) : MatchMask.Statement (.queryAdjust session updn) := by
  intro c h
  have := encodeMsg_opcode _ _ c h
  simp only [MsgType.opcode, List.length_cons, List.length_nil] at this
  simp only [fixedField]
  rw [this]
  rfl

theorem MatchMask.queryRep (session : Code) : MatchMask.Statement (.queryRep session) := by
  intro c h
  have := encodeMsg_opcode _ _ c h
  simp only [MsgType.opcode, List.length_cons, List.length_nil] at this
  simp only [fixedField]
  rw [this]
  rfl

theorem MatchMask.ack (rn16 : Code) : MatchMask.Statement (.ack rn16) := by
  intro c h
  have := encodeMsg_opcode _ _ c h
  simp only [MsgType.opcode, List.length_cons, List.length_nil] at this
  simp only [fixedField]
  rw [this]
  rfl

theorem MatchMask.nak : MatchMask.Statement .nak := by
  intro c h
  have := encodeMsg_opcode .nak Slots.zero c h
  simp only [MsgType.opcode, List.length_cons, List.length_nil] at this
  simp only [fixedField]
  rw [this]
  rfl

theorem MatchMask.nop : MatchMask.Statement .nop := by
  intro c h
  cases h
  rfl

theorem MatchMask.crcInit : MatchMask.Statement .crcInit := by
  intro c h
  cases h
  rfl

theorem MatchMask.crcFeed (n : BitVec 6) : MatchMask.Statement (.crcFeed n) := by
  intro c h
  cases h
  have : ∀ n : BitVec 6, (cmdWord 0x2 n).toNat / 2 ^ 0 % 2 ^ 4 = 2 := by decide
  exact this n

theorem MatchMask.assemble : MatchMask.Statement .assemble := by
  intro c h
  cases h
  rfl

theorem MatchMask.parse : MatchMask.Statement .parse := by
  intro c h
  cases h
  rfl

theorem MatchMask.encode : MatchMask.Statement .encode := by
  intro c h
  cases h
  rfl

theorem MatchMask.edges : MatchMask.Statement .edges := by
  intro c h
  cases h
  rfl

theorem MatchMask.decode : MatchMask.Statement .decode := by
  intro c h
  cases h
  rfl

theorem MatchMask.reserved8 : MatchMask.Statement .reserved8 := by
  intro c h
  cases h
  rfl

theorem MatchMask.reserved9 : MatchMask.Statement .reserved9 := by
  intro c h
  cases h
  rfl

theorem MatchMask.reservedA : MatchMask.Statement .reservedA := by
  intro c h
  cases h
  rfl

theorem MatchMask.reservedB : MatchMask.Statement .reservedB := by
  intro c h
  cases h
  rfl

theorem MatchMask.reservedC : MatchMask.Statement .reservedC := by
  intro c h
  cases h
  rfl

theorem MatchMask.reservedD : MatchMask.Statement .reservedD := by
  intro c h
  cases h
  rfl

theorem MatchMask.reservedE : MatchMask.Statement .reservedE := by
  intro c h
  cases h
  rfl

theorem MatchMask.softReset : MatchMask.Statement .softReset := by
  intro c h
  cases h
  rfl

end Sys2Proof.Laws
end

