-- ==== Sys2Proof/Laws/Run.lean ====
section
/-! SUPPORT. How a run unrolls by one step. -/

namespace Sys2Proof.Machine

/-- One step of a run of any machine. -/
theorem run_of_step (M : Host.Core) (k : Nat) (s t : M.State) (h : M.step s = .next t) :
    M.run (k + 1) s = M.run k t := by
  simp [Host.Core.run, h]

/-- One step of a run of this machine. -/
theorem coreRun_next (k : Nat) (s t : State) (h : step s = .next t) :
    Sys2Proof.core.run (k + 1) s = Sys2Proof.core.run k t :=
  run_of_step Sys2Proof.core k s t h

end Sys2Proof.Machine
end

