-- ==== Sys2Proof/Tests/Slice0.lean ====
section
/-! SUPPORT. The model's own tests, one step each on a small state, and a witness for the hypotheses of every
statement. Expected values come from spec/95_test_vectors.md (V and P below) or from the encoding tables of
30_encoding.md; a witness's values meet a statement's premises, at the boundary of a range where there is one. -/

namespace Sys2Proof.Tests

open Sys2Proof Sys2Proof.Machine

/- One theorem at a time: the many kernel evaluations, elaborated in parallel, would each hold a thread. -/
set_option Elab.async false

/-! Helpers. -/

/-- A bit sequence written with zeros and ones. -/
def seq (l : List Nat) : Bits := l.map (· == 1)

/-- The reset state with other registers. -/
def withRegs (f : Regs → Regs) : State := { State.reset with regs := f resetRegs }

/-- What one meaning leaves, seen through a function of the state. -/
def seen {α : Type} (f : State → α) (o : Host.Outcome State Fault Refusal) : Option α :=
  match o with
  | .next t => some (f t)
  | .fault _ => none
  | .refused _ => none

/-- STATUS and the three TX registers. -/
def txView (s : State) : List Nat :=
  [(statusWord s).toNat, s.regs.txType.toNat, s.regs.txLen.toNat, s.regs.txBits.toNat]

/-- STATUS, RX_TYPE and RX_FIELD. -/
def rxView (s : State) : List Nat :=
  (statusWord s).toNat :: s.regs.rxType.toNat :: s.regs.rxField.toList.map BitVec.toNat

/-- The bits of vector 2 (V1.2): Query(64/3, 1, false, "all1", 1, "b", 1). -/
def vector2 : Bits := seq [1, 0, 0, 0, 1, 0, 0, 0, 0, 1, 0, 1, 1, 0, 0, 0, 1, 1, 0, 0, 0, 1]

/-- The Query of vector 2 in the input registers, Tari 12.5 µs, 0.25 MHz (P2). -/
def vector2State : State := withRegs fun r =>
  { r with field := ⟨1, 1, 0, 1, 1, 1, 1, 0⟩, tari := 0xC8000, blf := 0x4000 }

/-- QueryRep of session 1 in the input registers, with a Tari code. -/
def queryRepState (t : Word) : State := withRegs fun r =>
  { r with msgType := 2, field := ⟨1, 0, 0, 0, 0, 0, 0, 0⟩, tari := t }

/-- A receive buffer of up to 32 elements. -/
def rxState (len : BitVec 7) (w : Word) : State := withRegs fun r => { r with rxLen := len, rxBits0 := w }

/-- A sample capture: words in SAMPLE_MEM, the period 0.25 µs. -/
def sampleState (w : List Word) : State :=
  { withRegs (fun r => { r with sampleCnt := BitVec.ofNat 17 w.length, samplePeriod := 0x4000 }) with
    mem := wordsWrite [] sampleBase w }

/-- An edge stream in EDGE_MEM. -/
def edgeState (w : List Word) : State :=
  { withRegs (fun r => { r with edgeCnt := BitVec.ofNat 13 w.length }) with mem := wordsWrite [] edgeBase w }

/-- Small parameters: every buffer one entry. -/
def smallParams : Params := { defaultParams with nPulse := 1, nSample := 4, nEdge := 1, nResult := 1 }

/-! WellFormed refuses an ill-formed term for each check. -/

theorem test_ill_dr : Instr.wellFormed (.query 2 1 0 0 0 0 0) = false := by decide
theorem test_ill_m : Instr.wellFormed (.query 0 3 0 0 0 0 0) = false := by decide
theorem test_ill_m_zero : Instr.wellFormed (.query 0 0 0 0 0 0 0) = false := by decide
theorem test_ill_trext : Instr.wellFormed (.query 0 1 2 0 0 0 0) = false := by decide
theorem test_ill_sel : Instr.wellFormed (.query 0 1 0 4 0 0 0) = false := by decide
theorem test_ill_session : Instr.wellFormed (.query 0 1 0 0 4 0 0) = false := by decide
theorem test_ill_target : Instr.wellFormed (.query 0 1 0 0 0 2 0) = false := by decide
theorem test_ill_q : Instr.wellFormed (.query 0 1 0 0 0 0 16) = false := by decide
theorem test_ill_adjust_session : Instr.wellFormed (.queryAdjust 4 0) = false := by decide
theorem test_ill_updn : Instr.wellFormed (.queryAdjust 0 3) = false := by decide
theorem test_ill_rep_session : Instr.wellFormed (.queryRep 4) = false := by decide
theorem test_well_query : Instr.wellFormed (.query 1 8 1 3 3 1 15) = true := by decide

/-! Decoding, every constructor, words written out from 30_encoding.md R101-R103, R105, R120, R121. -/

theorem test_decode_query : decode (.msg vector2) = .ok (.query 1 1 0 1 1 1 1) := by decide +kernel
/-- Every field different: DR 0, M 8 `11`, TRext `1`, Sel "SL" `11`, Session 2 `10`, Target `0`, Q 13 `1101`. -/
theorem test_decode_query_fields :
    decode (.msg (seq [1, 0, 0, 0, 0, 1, 1, 1, 1, 1, 1, 0, 0, 1, 1, 0, 1])) = .ok (.query 0 8 1 3 2 0 13) := by
  decide +kernel
theorem test_decode_queryAdjust :
    decode (.msg (seq [1, 0, 0, 1, 1, 0, 1, 1, 0])) = .ok (.queryAdjust 2 1) := by decide +kernel
theorem test_decode_queryRep : decode (.msg (seq [0, 0, 1, 0])) = .ok (.queryRep 2) := by decide +kernel
theorem test_decode_ack :
    decode (.msg (seq [0, 1, 1, 0, 1, 1, 1, 1, 1, 0, 1, 1, 1, 0, 1, 1, 1, 1])) = .ok (.ack 0xBEEF) := by
  decide +kernel
theorem test_decode_nak : decode (.msg (seq [1, 1, 0, 0, 0, 0, 0, 0])) = .ok .nak := by decide +kernel
theorem test_decode_nop : decode (.cmd 0x0000FFF0) = .ok .nop := by decide
theorem test_decode_crcInit : decode (.cmd 0x00000001) = .ok .crcInit := by decide
theorem test_decode_crcFeed : decode (.cmd 0x00001102) = .ok (.crcFeed 17) := by decide
/-- ARG is six bits wide: 63, with every ignored bit set. -/
theorem test_decode_crcFeed_wide : decode (.cmd 0xFFFFFFF2) = .ok (.crcFeed 63) := by decide
theorem test_decode_assemble : decode (.cmd 0x00000003) = .ok .assemble := by decide
theorem test_decode_parse : decode (.cmd 0x00000004) = .ok .parse := by decide
theorem test_decode_encode : decode (.cmd 0x00000005) = .ok .encode := by decide
theorem test_decode_edges : decode (.cmd 0x00000006) = .ok .edges := by decide
theorem test_decode_decode : decode (.cmd 0x00000007) = .ok .decode := by decide
theorem test_decode_reserved8 : decode (.cmd 0x00000008) = .ok .reserved8 := by decide
theorem test_decode_reserved9 : decode (.cmd 0x00000009) = .ok .reserved9 := by decide
theorem test_decode_reservedA : decode (.cmd 0x0000000A) = .ok .reservedA := by decide
theorem test_decode_reservedB : decode (.cmd 0x0000000B) = .ok .reservedB := by decide
theorem test_decode_reservedC : decode (.cmd 0x0000000C) = .ok .reservedC := by decide
theorem test_decode_reservedD : decode (.cmd 0x0000000D) = .ok .reservedD := by decide
theorem test_decode_reservedE : decode (.cmd 0x0000000E) = .ok .reservedE := by decide
theorem test_decode_softReset : decode (.cmd 0x0000000F) = .ok .softReset := by decide

/-- The table-word form: packed messages and CMD words (log 2). -/
theorem test_table_query : decodeTableWord 32 0x8858C400 = some (.query 1 1 0 1 1 1 1) := by decide +kernel
theorem test_table_ack : decodeTableWord 32 0x6FBBC000 = some (.ack 0xBEEF) := by decide +kernel
theorem test_table_queryRep_zero : decodeTableWord 32 0 = some (.queryRep 0) := by decide +kernel
theorem test_table_crcFeed : decodeTableWord 16 0x1102 = some (.crcFeed 17) := by decide
theorem test_table_nop : decodeTableWord 8 0 = some .nop := by decide

/-! Rejections by name (V3.3, 30_encoding.md R118). -/

theorem test_reject_short_rep : decode (.msg (seq [0, 0])) = .error .sizeMismatch := by decide
theorem test_reject_short_query : decode (.msg (seq [1, 0, 0, 0, 1, 0, 0])) = .error .sizeMismatch := by decide
theorem test_reject_updn :
    decode (.msg (seq [1, 0, 0, 1, 0, 1, 1, 1, 1, 1])) = .error .notFound := by decide +kernel
theorem test_reject_empty : decode (.msg []) = .error .notFound := by decide
theorem test_reject_opcode : decode (.msg (seq [1, 0, 1])) = .error .notFound := by decide
theorem test_reject_near_nak : decode (.msg (seq [1, 1, 0, 0, 0, 0, 0])) = .error .notFound := by decide

/-! The encoder, against V3.1 and V3.2. -/

theorem test_encode_query : encode (.query 1 1 0 1 1 1 1) = .ok (.msg vector2) := by decide +kernel
theorem test_encode_first_error : encode (.query 0 1 0 0 4 0 16) = .error .overflow := by decide
theorem test_encode_bad_m : encode (.query 0 3 0 0 0 0 0) = .error .notFound := by decide
theorem test_encode_crcFeed : encode (.crcFeed 17) = .ok (.cmd 0x00001102) := by decide

/-! The messages, as dispatched from the receive buffer (V3.3). -/

theorem test_query_received : seen rxView (exec (.query 1 1 0 1 1 1 1) State.reset) =
    some [0x02, 0, 1, 1, 0, 1, 1, 1, 1, 0] := by decide
theorem test_queryAdjust_received : seen rxView (exec (.queryAdjust 1 2) State.reset) =
    some [0x02, 1, 1, 2, 0, 0, 0, 0, 0, 0] := by decide
theorem test_queryRep_received : seen rxView (exec (.queryRep 1) State.reset) =
    some [0x02, 2, 1, 0, 0, 0, 0, 0, 0, 0] := by decide
theorem test_ack_received : seen rxView (exec (.ack 0xBEEF) State.reset) =
    some [0x02, 3, 48879, 0, 0, 0, 0, 0, 0, 0] := by decide
/-- NAK clears the slots an earlier message left. -/
theorem test_nak_received :
    seen rxView (exec .nak (withRegs fun r => { r with rxField := ⟨1, 2, 3, 4, 5, 6, 7, 8⟩ })) =
      some [0x02, 4, 0, 0, 0, 0, 0, 0, 0, 0] := by decide

/-! The host commands. -/

/-- V6: NOP. -/
theorem test_nop : seen statusWord (exec .nop State.reset) = some 0x02 := by decide
/-- V2.3. -/
theorem test_crcInit : seen (fun s => crcWord s.regs)
    (exec .crcInit (withRegs fun r => { r with crcReg := 0 })) = some 0x09 := by decide
/-- V2.3: vector 1's data from the preset. -/
theorem test_crcFeed_vector1 : seen (fun s => crcWord s.regs)
    (exec (.crcFeed 17) (withRegs fun r => { r with crcData := 0x88588000 })) = some 0x11 := by decide +kernel
/-- V2.3: the checksum fed back leaves zero. -/
theorem test_crcFeed_residue : seen (fun s => crcWord s.regs)
    (exec (.crcFeed 5) (withRegs fun r => { r with crcReg := 0b10001, crcData := 0x88000000 })) = some 0x100 := by
  decide +kernel
/-- V3.1: vector 2. -/
theorem test_assemble_vector2 :
    seen txView (exec .assemble vector2State) = some [0x02, 0, 22, 0x8858C400] := by decide +kernel
/-- V3.2: Session 4 is the first failing field; the TX registers keep their values. -/
theorem test_assemble_overflow : seen txView
    (exec .assemble (withRegs fun r => { r with field := ⟨0, 1, 0, 0, 4, 0, 16, 0⟩, txLen := 7 })) =
      some [0x12, 0, 7, 0] := by decide +kernel
/-- V3.3: 17 bits are enough, the checksum is not checked. -/
theorem test_parse_query : seen rxView (exec .parse (rxState 17 0x88588000)) =
    some [0x02, 0, 1, 1, 0, 1, 1, 1, 1, 0] := by decide +kernel
/-- V3.3: RX_LEN = 65. -/
theorem test_parse_param : seen rxView (exec .parse (rxState 65 0)) =
    some [0x42, 0, 0, 0, 0, 0, 0, 0, 0, 0] := by decide
/-- V4.2: QueryRep(1) at 6.25 µs, truncated: pulses 0, 1, 3 and 11. -/
theorem test_encode_truncated : seen (fun s => ((statusWord s).toNat, s.regs.pulseCnt.toNat,
      [0, 1, 3, 11].map fun i => (wordRead 0 s.mem (0x1000 + 4 * i)).toNat))
    (exec .encode { queryRepState 0x64000 with
      regs := { (queryRepState 0x64000).regs with trunc := true } }) =
      some (0x02, 13, [0xC0000, 0x30000, 0xF0000, 0x90000]) := by decide +kernel
/-- P5: the assembly error comes before Param, and nothing is written. -/
theorem test_encode_priority : seen txView
    (exec .encode (withRegs fun r => { r with msgType := 2, field := ⟨4, 0, 0, 0, 0, 0, 0, 0⟩, tari := 0x63FFF })) =
      some [0x12, 0, 0, 0] := by decide +kernel
/-- V5.1: 1, 1, 0, 0, 1, 0. -/
theorem test_edges_flush : seen (fun s => (s.regs.edgeCnt.toNat,
      [0, 1, 2].map fun i => (wordRead 0 s.mem (0x8000 + 4 * i)).toNat))
    (exec .edges (sampleState [1, 1, 0, 0, 1, 0])) = some (3, [0, 0x10000, 0x8000]) := by decide +kernel
/-- V5.1: 19661 does not rise and 13107 does not fall, the thresholds being exactly these. -/
theorem test_stageA_strict : stageA true 0x8000 0x199A 0x4000 [0, 19661, 0, 19662, 0, 32768, 13107, 0] =
    [0xC000, 0x8000, 0xC000] := by decide +kernel
/-- V5.8: without the flush a QueryRep capture gives 6 edges (the samples of P3). -/
theorem test_stageA_noFlush : (stageA false 0x8000 0x199A 0x4000
    (toSamples 0x4000 (toPulses .queryRep (seq [0, 0, 0, 1]) 0 0xC8000 0))).length = 6 := by decide +kernel
/-- V5.1: SAMPLE_PERIOD = 0. -/
theorem test_edges_param :
    seen statusWord (exec .edges (withRegs fun r => { r with sampleCnt := 1 })) = some 0x42 := by decide
/-- V5.3: Tari 10 µs and RTcal at exactly three Tari, the data 0, 1: FLAGS, TARI, RTCAL, NBITS. -/
theorem test_decode_boundary : seen (fun s => (s.regs.resultCnt.toNat,
      [0, 1, 2, 7].map fun w => (wordRead 0 s.mem (0x4000 + 4 * w)).toNat))
    (exec .decode (edgeState [0xA0000, 0x1E0000, 0xA0000, 0x140000])) =
      some (1, [0x301, 0xA0000, 0x1E0000, 2]) := by decide +kernel
/-- V6: EDGE_CNT above N_EDGE. -/
theorem test_decode_param :
    seen statusWord (exec .decode (withRegs fun r => { r with edgeCnt := 1025 })) = some 0x42 := by decide
/-- V6: every reserved OP. -/
theorem test_reserved : [Instr.reserved8, .reserved9, .reservedA, .reservedB, .reservedC, .reservedD,
    .reservedE].map (fun i => seen statusWord (exec i State.reset)) = List.replicate 7 (some 0x62) := by decide
/-- V6: SOFT_RESET clears CTRL, TARI and RT_TOL and keeps PULSE_MEM. -/
theorem test_softReset : seen (fun s => ((statusWord s).toNat, (ctrlWord s.regs).toNat, s.regs.tari.toNat,
      s.regs.rtTol.toNat, (crcWord s.regs).toNat, (wordRead 0 s.mem 0x1000).toNat))
    (exec .softReset { withRegs (fun r =>
        { r with ie := true, trunc := true, tari := 0xC8000, rtTol := 5, crcReg := 0 }) with
      mem := wordsWrite [] 0x1000 [0x12345678] }) = some (0x02, 0, 0, 0, 0x09, 0x12345678) := by decide +kernel

/-! The step: the placed word runs as the next instruction. -/

theorem test_step_cmd :
    seen statusWord (step (State.reset.withFetchWord 8 0x8)) = some 0x62 := by decide +kernel
theorem test_step_message : seen rxView (step (State.reset.withFetchWord 32 0x6FBBC000)) =
    some [0x02, 3, 48879, 0, 0, 0, 0, 0, 0, 0] := by decide +kernel
/-- V6: an unmapped word ignores a write and reads 0. -/
theorem test_unmapped_write :
    busRead 0x0FC (busWrite 0x0FC 0x12345678 State.reset) = 0 := by decide +kernel
/-- 10_state.md R44: TX_TYPE, TX_LEN and TX_BITS stand at three addresses of their own. -/
theorem test_tx_reads : [0x070, 0x074, 0x078].map (fun a => (busRead (BitVec.ofNat 20 a)
    (withRegs fun r => { r with txType := 2, txLen := 4, txBits := 0x10000000 })).toNat) = [2, 4, 0x10000000] := by
  decide +kernel
/-- V6: a write while BUSY is ignored and sets WERR. -/
theorem test_busy_write :
    ((busWrite 0x020 0xC8000 (placeCmd 1 State.reset)).regs.tari,
      (busWrite 0x020 0xC8000 (placeCmd 1 State.reset)).werr) = (0, true) := by decide +kernel
/-- V5.2: a duration of exactly 250 µs is no gap, one unit more is: the START of each sub-sequence. -/
theorem test_split_gap : (splitEdges [0xC8000, 0xFA0001, 0xC8000, 0xFA0000]).map (·.1) = [0, 2] := by decide +kernel

/-! Witnesses: for each statement with premises a concrete input that meets them all, clause by clause. -/

/-- An idle core with a host operation to come. -/
def hostState (ops : List HostOp) : State := { State.reset with host := ops }

/-- A core running the command of a CMD word, with host operations and a latency left. -/
def runningState (w : Word) (ops : List HostOp) (k : Nat) : State :=
  { placeCmd w State.reset with host := ops, slack := k }

theorem witness_IdReadsConstant : wordAddr 0 = 0x000 ∧ wordAddr 3 = 0x000 := by decide

theorem witness_StepRunsAcceptedCommand :
    let s := runningState 0x502 [.read 0x010] 0
    s.rst = false ∧ s.engState = .busy ∧ (s.host = [] ∨ s.slack = 0) ∧ decode (.cmd s.engCmd) = .ok (.crcFeed 5) := by
  decide

theorem witness_StepRunsDispatchedMessage :
    let s := { placeMessage 0x8858C400 State.reset with
      regs := { (placeMessage 0x8858C400 State.reset).regs with rxLen := 64 } }
    s.rst = false ∧ s.engState = .busy ∧ (s.host = [] ∨ s.slack = 0) ∧ cmdOp s.engCmd = 4 ∧
      s.regs.rxLen.toNat ≤ 64 ∧ decode (.msg (rxSequence s.regs)) = .ok (.query 1 1 0 1 1 1 1) := by
  decide +kernel

theorem witness_DecodeInvertsEncode : Instr.wellFormed (.query 1 8 1 3 3 1 15) = true ∧
    Instr.wellFormed (.queryAdjust 3 2) = true ∧ Instr.wellFormed (.queryRep 3) = true ∧
    Instr.wellFormed (.ack 0xFFFF) = true ∧ Instr.wellFormed (.crcFeed 63) = true := by decide

theorem witness_OnlyWellFormedEncode : encode (.query 1 8 1 3 3 1 16) = .error .overflow ∧
    encode (.queryAdjust 3 3) = .error .notFound := by decide +kernel

theorem witness_DecodedMessageReassembles :
    decode (.msg (seq [0, 0, 0, 1, 1, 1, 1, 1])) = .ok (.queryRep 1) := by decide +kernel

theorem witness_MessageRoundTrip : toBits .query ⟨1, 1, 0, 1, 1, 1, 1, 7⟩ = .ok vector2 := by decide +kernel

theorem witness_FieldRoundTrip : (16 ≤ 16 ∧ (0xFFFF#16).toNat < 2 ^ 16) ∧
    updnField ∈ MsgType.queryAdjust.fields ∧
    (2, [false, true, true]) ∈ [((0 : Code), [false, false, false]), (1, [true, true, false]), (2, [false, true, true])] := by
  decide

theorem witness_DispatchUsesLeadingBits :
    (MsgType.query.opens vector2 = true) ∧
    (MsgType.query.opens (vector2.take 16) = true ∧ (vector2.take 16).length < MsgType.query.nBits) ∧
    (MsgType.query.opens (vector2.take 17) = true ∧ MsgType.query.nBits ≤ (vector2.take 17).length) ∧
    ([MsgType.query, .queryAdjust, .queryRep, .ack, .nak].all fun t => !t.opens (seq [1, 0, 1])) = true := by
  decide +kernel

theorem witness_PackingPlacesElements : (List.replicate 64 true).length ≤ 64 ∧ 31 < 32 ∧ 4 < 5 := by decide

theorem witness_CrcStepFollowsSequenceForm : crcBits 0b10010#5 = [true, false, false, true, false] := by decide

theorem witness_CrcVectorsAndCorners : (0b01111#5).getLsbD 4 = false := by decide

theorem witness_CrcResidueIsZero : 4 < 5 := by decide

theorem witness_CrcDetectsSingleBitErrors : 21 < (vector2.take 17 ++ crc5 (vector2.take 17)).length ∧
    4 < ([] ++ crc5 []).length := by decide +kernel

theorem witness_CrcInitLoadsPreset : cmdOp 0xFFFFFFF1#32 = 1 ∧
    exec .crcInit State.reset = .next (complete .none State.reset) := ⟨by decide, rfl⟩

theorem witness_CrcFeedAppliesSteps : (1 ≤ (1#6).toNat ∧ (1#6).toNat ≤ 32) ∧ (1 ≤ (32#6).toNat ∧ (32#6).toNat ≤ 32) ∧
    ((0#6).toNat = 0 ∨ 32 < (0#6).toNat) ∧ ((33#6).toNat = 0 ∨ 32 < (33#6).toNat) ∧ cmdOp 0x2102#32 = 2 := by decide

theorem witness_AssembleWritesTransmitBuffer :
    MsgType.ofCode vector2State.regs.msgType.toNat = some .query ∧
      (Instr.ofMessage .query vector2State.regs.field).wellFormed = true := by decide

theorem witness_AssembleErrorsWriteNothing :
    assemblyError 0 ⟨0, 1, 0, 0, 4, 0, 16, 0⟩ = some .overflow ∧ assemblyError 5 Slots.zero = some .notFound ∧
      assemblyError 1 ⟨0, 3, 0, 0, 0, 0, 0, 0⟩ = some .notFound := by decide

theorem witness_ParseRecordsDispatchedMessage :
    (64 < (rxState 65 0).regs.rxLen.toNat) ∧
    ((rxState 64 0xA0000000).regs.rxLen.toNat ≤ 64 ∧
      dispatch (rxSequence (rxState 64 0xA0000000).regs) = .error .notFound) ∧
    ((rxState 64 0x10000000).regs.rxLen.toNat ≤ 64 ∧
      dispatch (rxSequence (rxState 64 0x10000000).regs) = .ok (.queryRep, ⟨1, 0, 0, 0, 0, 0, 0, 0⟩)) ∧
    ((rxState 64 0).regs.rxLen.toNat ≤ 64 ∧ 63 < (rxState 64 0).regs.rxLen.toNat) := by decide +kernel

theorem witness_MessageWidthsAndPulseCounts :
    toBits .nak Slots.zero = .ok (seq [1, 1, 0, 0, 0, 0, 0, 0]) := by decide +kernel

theorem witness_TruncationKeepsWholeMicroseconds : 2 ^ 32 - 1 < 2 ^ 32 := by decide

/-- Vector 2, and QueryRep's 13 pulses in a PULSE_MEM of just 13 entries, at both ends of the Tari window. -/
theorem witness_EncodeWritesPulses :
    (MsgType.ofCode vector2State.regs.msgType.toNat = some .query ∧
      toBits .query vector2State.regs.field = .ok vector2 ∧
      timingOk .query vector2State.regs.field.f0 vector2State.regs.tari.toNat vector2State.regs.blf.toNat ∧
      (storedPulses false (pulseCodes .query vector2 1 0xC8000 0x4000)).length ≤ vector2State.par.nPulse) ∧
    (toBits .queryRep ⟨1, 0, 0, 0, 0, 0, 0, 0⟩ = .ok (seq [0, 0, 0, 1]) ∧ timingOk .queryRep 1 409600 0 ∧
      timingOk .queryRep 1 1638400 0 ∧
      (storedPulses true (pulseCodes .queryRep (seq [0, 0, 0, 1]) 1 409600 0)).length ≤ 13) := by
  unfold timingOk; decide +kernel

theorem witness_EncodeErrorsWriteNothing :
    assemblyError 2 ⟨4, 0, 0, 0, 0, 0, 0, 0⟩ = some .overflow ∧
    (MsgType.ofCode (queryRepState 0x63FFF).regs.msgType.toNat = some .queryRep ∧
      (Instr.ofMessage .queryRep (queryRepState 0x63FFF).regs.field).wellFormed = true ∧
      ¬timingOk .queryRep 1 0x63FFF 0) ∧
    (toBits .queryRep ⟨1, 0, 0, 0, 0, 0, 0, 0⟩ = .ok (seq [0, 0, 0, 1]) ∧ timingOk .queryRep 1 0xC8000 0 ∧
      12 < (storedPulses false (pulseCodes .queryRep (seq [0, 0, 0, 1]) 1 0xC8000 0)).length) := by
  unfold timingOk; decide +kernel

theorem witness_EdgesRecordsWindow :
    (legalParams defaultParams = true ∧ (16384#17).toNat ≤ defaultParams.nSample ∧ (0x4000#32 : Word) ≠ 0) ∧
    defaultParams.nSample < (16385#17).toNat ∧
    (0 < (sampleState [5, 7]).regs.sampleCnt.toNat ∧ 1 < (sampleState [5, 7]).regs.sampleCnt.toNat) := by decide

/-- V5.1's window 0, 100, 0, 100, 0 at a ratio and a hysteresis of a quarter: the low threshold is the least sample. -/
theorem witness_StageACorners_thresholds : 0 ∈ [0, 100, 0, 100, 0] ∧ 100 ∈ [0, 100, 0, 100, 0] ∧
    (∀ x ∈ [0, 100, 0, 100, 0], 0 ≤ x ∧ x ≤ 100) ∧
    (50 : ℚ) = (0 : ℕ) + (((0x4000 : ℕ) : ℚ) / 2 ^ 16 + ((0x4000 : ℕ) : ℚ) / 2 ^ 16) * (((100 : ℕ) : ℚ) - (0 : ℕ)) ∧
    (0 : ℚ) = (0 : ℕ) + (((0x4000 : ℕ) : ℚ) / 2 ^ 16 - ((0x4000 : ℕ) : ℚ) / 2 ^ 16) * (((100 : ℕ) : ℚ) - (0 : ℕ)) := by
  norm_num

theorem witness_StageACorners : (∃ x, ∀ y ∈ [5, 5, 5, 5], y = x) ∧ 2 ^ 16 ≤ 0xF000 + 0x1000 ∧
    0x8000 ≤ 0x8000 ∧ 0xFFFFFFFF ∈ stageA true 0x8000 0x199A 0xFFFFFFFF [0, 0, 100, 0] :=
  ⟨⟨5, by decide⟩, by decide, by decide, by decide +kernel⟩

theorem witness_SplitPartitionsStream : (2, [0xC8000]) ∈ splitEdges [0xC8000, 0xFA0001, 0xC8000] := by
  decide +kernel

theorem witness_GapSeparatesCommands : 16384000 < 16384001 := by decide

/-- Both ends of the Tari window and of the band, and one unit outside each. -/
theorem witness_ToleranceBoundary : (409600 ≤ 16384000 ∧ 1638400 ≤ 16384000) ∧
    (5 * 409600 ≤ 2 * 1024000 ∧ 1024000 ≤ 3 * 409600) ∧ (5 * 1638400 ≤ 2 * 4915200 ∧ 4915200 ≤ 3 * 1638400) ∧
    2 * 1023999 < 5 * 409600 ∧ 3 * 1638400 < 4915201 := by decide

/-- Tari 12.5 µs, RTcal 37.5 µs: TRcal at both ends of its band, and one unit outside (V5.4). -/
theorem witness_DataBitsFollowThreshold :
    (409600 ≤ 0xC8000 ∧ 0xC8000 ≤ 1638400 ∧ 5 * 0xC8000 ≤ 2 * 0x258000 + 2 * 0 ∧ 0x258000 ≤ 3 * 0xC8000 + 0) ∧
    (∀ d ∈ [0xC8000, 0x258000, 0x294000, 0x190000], d ≤ 16384000) ∧
    (11 * 0x258000 ≤ 10 * 0x294000 + 10 * 0 ∧ 0x708000 ≤ 3 * 0x258000 + 0) ∧
    (10 * 0x293FFF + 10 * 0 < 11 * 0x258000 ∧ 3 * 0x258000 + 0 < 0x708001) := by decide

theorem witness_DataBitsFollowThreshold_trcal : ∃ d, [0x708000, 0x190000] = d :: [0x190000] ∧
    11 * 0x258000 ≤ 10 * d + 10 * 0 ∧ d ≤ 3 * 0x258000 + 0 := ⟨0x708000, rfl, by decide, by decide⟩

theorem witness_DataBitsFollowThreshold_noTrcal : ∀ d, [0x293FFF, 0xC8000].head? = some d →
    10 * d + 10 * 0 < 11 * 0x258000 ∨ 3 * 0x258000 + 0 < d := by
  intro d h
  cases h
  decide

/-- V5.5's delimiter first (12.5 µs, then data-0 of 12.5 µs): the pair before the one that calibrates fails. -/
theorem witness_DataBitsFollowThreshold_delimiter :
    (∀ d ∈ [0xC8000] ++ 0xC8000 :: 0x258000 :: [0xC8000, 0xC8000, 0xC8000, 0x190000], d ≤ 16384000) ∧
    ∀ i x d, ([0xC8000] ++ [0xC8000])[i]? = some x → ([0xC8000] ++ [0xC8000])[i + 1]? = some d →
      x < 409600 ∨ 1638400 < x ∨ 2 * d + 2 * 0 < 5 * x ∨ 3 * x + 0 < d := by
  refine ⟨by decide, fun i x d h h' => ?_⟩
  match i with
  | 0 => cases h; cases h'; decide
  | 1 => cases h'
  | i + 2 => cases h

theorem witness_CommandEndStopsSession :
    (∀ e ∈ [0xC8000, 0x258000, 16384000], e ≤ 16384000) ∧ 16384000 < 16384001 := by decide

theorem witness_UncalibratedRecordsNotFound :
    (∀ d ∈ [0xC8000, 0xC8000], d ≤ 16384000) ∧ 2 * 0xC8000 + 2 * 0 < 5 * 0xC8000 := by decide

theorem witness_BackscatterFrequency : 0 < 1 ∧ MsgType.queryRep ≠ .query := by decide

theorem witness_RecordLayout :
    dispatch (fromEdges 16384000 0 0 [0xC8000, 0x258000, 0xC8000, 0xC8000, 0xC8000, 0x190000]).bits =
      .ok (.queryRep, ⟨1, 0, 0, 0, 0, 0, 0, 0⟩) ∧
    dispatch (fromEdges 16384000 0 0 [0xC8000]).bits = .error .notFound := by decide +kernel

theorem witness_DecodeWritesRecords : (legalParams defaultParams = true ∧ (1024#13).toNat ≤ defaultParams.nEdge) ∧
    splitEdges (edgeStream (edgeState [0xC8000])) = [(0, [0xC8000])] ∧ defaultParams.nEdge < (1025#13).toNat ∧
    0 < (edgeState [0xC8000]).regs.edgeCnt.toNat := by
  decide +kernel

theorem witness_SymbolIntervalsDecodeBack :
    (409600 ≤ 1638400 ∧ 1638400 ≤ 1638400 ∧ 1638400 % 2 = 0 ∧ 3 * 1638400 ≤ 16384000 ∧
      (List.replicate 64 true).length ≤ 64) ∧
    (33 * 409600 ≤ 10 * 1351680 ∧ 1351680 ≤ 9 * 409600 ∧ 1351680 ≤ 16384000) ∧
    (33 * 409600 ≤ 10 * 3686400 ∧ 3686400 ≤ 9 * 409600 ∧ 3686400 ≤ 16384000) := by decide

/-- P3 (QueryRep of session 1) and V5.7 (Query, divide ratio 8, 0.125 MHz), at a quarter microsecond a sample. -/
theorem witness_EndToEndRecovery :
    (toBits .queryRep ⟨1, 0, 0, 0, 0, 0, 0, 0⟩ = .ok (seq [0, 0, 0, 1]) ∧ timingOk .queryRep 1 819200 0 ∧
      819200 % 2 = 0 ∧ 0 < 16384 ∧ (∀ p ∈ toPulses .queryRep (seq [0, 0, 0, 1]) 1 819200 0, p % 16384 = 0)) ∧
    (toBits .query ⟨0, 1, 0, 1, 1, 1, 1, 0⟩ =
        .ok (seq [1, 0, 0, 0, 0, 0, 0, 0, 0, 1, 0, 1, 1, 0, 0, 0, 1, 0, 1, 0, 0, 1]) ∧
      timingOk .query 0 819200 0x2000 ∧
      (∀ p ∈ toPulses .query (seq [1, 0, 0, 0, 0, 0, 0, 0, 0, 1, 0, 1, 1, 0, 0, 0, 1, 0, 1, 0, 0, 1]) 0 819200 0x2000,
        p % 16384 = 0) ∧
      33 * 819200 ≤ 10 * trcCode 0 0x2000 ∧ trcCode 0 0x2000 ≤ 9 * 819200 ∧ trcCode 0 0x2000 ≤ 16384000) ∧
    0x199A < 0x8000 ∧ 0x8000 + 0x199A < 2 ^ 16 ∧ 16384000 ≤ defaultParams.cmdEnd := by
  unfold timingOk; decide +kernel

theorem witness_NopOnlyCompletes : cmdOp 0xFFFFFFF0#32 = 0 ∧ State.reset.werr = false ∧
    exec .nop State.reset = .next (complete .none State.reset) := ⟨by decide, rfl, rfl⟩

theorem witness_ReservedOpsCompleteIllegal : (8 ≤ (cmdOp 0x8#32).toNat ∧ (cmdOp 0x8#32).toNat ≤ 14) ∧
    (8 ≤ (cmdOp 0xFFFFFFFE#32).toNat ∧ (cmdOp 0xFFFFFFFE#32).toNat ≤ 14) ∧ State.reset.werr = false ∧
    exec .reserved8 State.reset = .next (complete .illegal State.reset) :=
  ⟨by decide, by decide, rfl, rfl⟩

theorem witness_SoftResetRestoresRegisters :
    exec .softReset State.reset = .next (complete .none State.reset) ∧ (0x010, 0x9) ∈ resetTable :=
  ⟨rfl, by decide⟩

theorem witness_CmdWriteAcceptsCommand : wordAddr 0x008 = 0x008 ∧ wordAddr 0x00B = 0x008 ∧
    (let s := hostState [.write 0x00B 0x1]; s.rst = false ∧ s.engState = .idle ∧ s.host = .write 0x00B 0x1 :: []) ∧
    (runningState 1 [] 0).rst = false ∧ (runningState 1 [] 0).engState = .busy := by decide

theorem witness_FailedCommandsWriteNothing :
    exec (.crcFeed 33) State.reset = .next (complete .param State.reset) ∧
      (complete .param State.reset).err ∈ [Err.param, .illegal, .overflow, .notFound, .sizeMismatch] :=
  ⟨rfl, by decide⟩

/-- CRC_INIT, at the two words beside its output set. -/
theorem witness_CommandsWriteOnlyOutputSet : legalParams State.reset.par = true ∧
    exec (decodeCmd 0x1) State.reset = .next (complete .none State.reset) ∧
    (inOutputSpans State.reset.par 0x1 (wordAddr 0x014) = false ∧ wordAddr 0x014 ≠ 0x00C) ∧
    inOutputSpans State.reset.par 0x1 (wordAddr 0x008) = false ∧ wordAddr 0x008 ≠ 0x00C :=
  ⟨by decide, rfl, by decide, by decide⟩

theorem witness_CommandsCompleteOnFrozenInputs :
    let s := runningState 0x3 [.write 0x020 5, .wait, .read 0x010] 2
    s.rst = false ∧ s.engState = .busy ∧ ∀ l, HostOp.rst l ∉ s.host :=
  ⟨rfl, rfl, fun l => by cases l <;> decide⟩

theorem witness_LowAddressBitsIgnored : wordAddr 0x020 = wordAddr 0x023 ∧ wordAddr 0xFFFFC = wordAddr 0xFFFFF := by
  decide

/-- The first and the last address of every range. -/
theorem witness_UnmappedAndReadOnlyWords :
    (∀ a ∈ [0x018, 0x01C, 0x03C, 0x064, 0x06C, 0x07C, 0x08C, 0x0B4, 0x0BC, 0x0D0, 0xFFC, 0x1100, 0x3FFC, 0x4400,
        0x7FFC, 0x9000, 0xFFFC, 0x20000, 0xFFFFC],
      unmappedAddr defaultParams (wordAddr (BitVec.ofNat 20 a))) ∧
    (∀ a ∈ [0x000, 0x010, 0x070, 0x0CC, 0x1000, 0x10FC, 0x4000, 0x43FC],
      readOnlyAddr defaultParams (wordAddr (BitVec.ofNat 20 a))) ∧ State.reset.engState = .idle := by
  unfold unmappedAddr readOnlyAddr; decide +kernel

theorem witness_RegisterWritesReadBack : State.reset.rst = false ∧ State.reset.engState = .idle ∧
    (0x004, 0x3) ∈ storedBits ∧ (0x0C8, 0x1FFF) ∈ storedBits := by decide

theorem witness_BufferWritesReadBack : legalParams State.reset.par = true ∧ State.reset.rst = false ∧
    State.reset.engState = .idle ∧ (1023 < State.reset.par.nEdge ∧ wordAddr 0x8FFC = 0x8000 + 4 * 1023) ∧
    (16383 < State.reset.par.nSample ∧ wordAddr 0x1FFFC = 0x10000 + 4 * 16383) := by decide

theorem witness_WritesAreIdempotent : wordAddr 0x004 ≠ 0x008 ∧ wordAddr 0x00C ≠ 0x008 := by decide

theorem witness_ReadsChangeNothing : ((hostState [.read 0x010, .wait]).host = .read 0x010 :: [.wait] ∧
    (hostState [.read 0x010, .wait]).rst = false ∧ (hostState [.read 0x010, .wait]).engState = .idle) ∧
    (runningState 1 [.read 0x010] 1).host = .read 0x010 :: [] ∧ (runningState 1 [.read 0x010] 1).rst = false ∧
    (runningState 1 [.read 0x010] 1).engState = .busy ∧ (runningState 1 [.read 0x010] 1).slack ≠ 0 := by decide

/-- The other host steps, each in an IDLE core and in a BUSY one with one step of latency left. -/
theorem witness_ReadsChangeNothing_others :
    (∀ op ∈ [HostOp.write 0x020 5, .wait, .rst false],
      ((hostState [op]).host = op :: [] ∧ (hostState [op]).rst = false ∧ (hostState [op]).engState = .idle) ∧
      (runningState 1 [op] 1).host = op :: [] ∧ (runningState 1 [op] 1).rst = false ∧
      (runningState 1 [op] 1).engState = .busy ∧ (runningState 1 [op] 1).slack ≠ 0) ∧
    State.reset.host = [] ∧ State.reset.rst = false ∧ State.reset.engState = .idle := by decide

theorem witness_StatusBitsAndClears : wordAddr 0x00C = 0x00C ∧ wordAddr 0x00F = 0x00C ∧
    State.reset.rst = false ∧ (runningState 1 [] 0).rst = false := by decide

theorem witness_BusyWritesAreIgnored : (runningState 1 [] 0).rst = false ∧ (runningState 1 [] 0).engState = .busy ∧
    wordAddr 0x008 ≠ 0x00C ∧ wordAddr 0x00C = 0x00C := by decide

/-- An idle core, and one running EDGES: TX_LEN, and the last entry of each buffer. -/
theorem witness_BusyReadsOutsideOutputSet :
    ((0x074, 0) ∈ registerWords State.reset ∧ State.reset.engState = .idle) ∧
    ((0x074, 0) ∈ registerWords (runningState 6 [] 0) ∧ inOutputSpans defaultParams 6 0x074 = false) ∧
    (legalParams defaultParams = true ∧ 63 < defaultParams.nPulse ∧ wordAddr 0x010FC = 0x1000 + 4 * 63 ∧
      255 < 32 * defaultParams.nResult ∧ wordAddr 0x043FC = 0x4000 + 4 * 255 ∧
      1023 < defaultParams.nEdge ∧ wordAddr 0x08FFC = 0x8000 + 4 * 1023 ∧
      16383 < defaultParams.nSample ∧ wordAddr 0x1FFFC = 0x10000 + 4 * 16383 ∧
      inOutputSpans defaultParams 6 (wordAddr 0x1FFFC) = false ∧
      inOutputSpans defaultParams 6 (wordAddr 0x010FC) = false) ∧
    cmdOp (runningState 6 [] 0).engCmd ≠ 15 ∧ (0x040, 0) ∈ registerWords (runningState 6 [] 0) := by decide

theorem witness_IrqFollowsDone : (0x2#32).getLsbD 1 = true := by decide

theorem witness_RstHoldsCoreInReset :
    (let s := runningState 5 [.rst true, .wait] 1
     s.host = .rst true :: [.wait] ∧ s.rst = false ∧ engineTurn s = false) ∧
    ({ State.reset with rst := true }).rst = true ∧
    ({ hostState [.rst false] with rst := true }).host = .rst false :: [] := by decide

/-- The host's operations while `rst` is high: a read of ID and of the table's last register, and an operation that is no
read. -/
theorem witness_RstHoldsCoreInReset_reads :
    (0x000, 0x47324331) ∈ resetTable ∧ (0x0CC, 0) ∈ resetTable ∧
    ({ hostState [.read 0x000] with rst := true }).host = .read (BitVec.ofNat 20 0x000) :: [] ∧
    ({ hostState [.read 0x0CC] with rst := true }).host = .read (BitVec.ofNat 20 0x0CC) :: [] ∧
    ∀ a rest, ({ hostState [.wait] with rst := true }).host ≠ .read a :: rest :=
  ⟨by decide, by decide, rfl, rfl, fun _ _ h => nomatch h⟩

theorem witness_RstHoldsCoreInReset_held : ∀ rest, ({ hostState [.rst true] with rst := true }).host ≠
    .rst false :: rest := by
  intro rest h
  cases h

/-- A state with the invariant that is not the reset state, and its step. -/
theorem witness_StepKeepsInvariant : (runningState 1 [] 0).Inv ∧
    step (runningState 1 [] 0) = .next (complete .none (runningState 1 [] 0)) := by
  refine ⟨⟨by decide, by decide, ?_, by decide, by decide, by decide, by decide, by decide, by decide, by decide,
    by decide, fun h => nomatch h⟩, rfl⟩
  intro c hc
  cases hc

end Sys2Proof.Tests
end

section
/-! PROOFS. What assembly and dispatch yield: the length of an assembled sequence, the slots of a dispatched message. -/

namespace Sys2Proof.Machine

/-- The patterns of a LookUp table all have the field's width (40_bitfield.md R145); the other codecs have no table. -/
def Codec.uniform : Codec → Bool
  | .lookUp n table => table.all fun entry => entry.2.length == n
  | _ => true

/-- A pattern that a table gives stands in it. -/
theorem mem_of_findPattern (c : Code) (table : List (Code × Bits)) (p : Bits) (h : findPattern c table = .ok p) :
    ∃ k, (k, p) ∈ table := by
  induction table with
  | nil => cases h
  | cons entry rest ih =>
    obtain ⟨k, q⟩ := entry
    simp only [findPattern] at h
    split at h
    · cases h
      exact ⟨k, List.mem_cons_self⟩
    · obtain ⟨j, hj⟩ := ih h
      exact ⟨j, List.mem_cons_of_mem _ hj⟩

/-- A field's bits have its width. -/
theorem codec_toBits_length (c : Codec) (v : Code) (b : Bits) (hc : c.uniform = true) (h : c.toBits v = .ok b) :
    b.length = c.width := by
  cases c with
  | value n =>
    simp only [Codec.toBits] at h
    split at h
    · cases h
    · cases h
      exact bitsOf_length n v.toNat
  | lookUp n table =>
    obtain ⟨k, hk⟩ := mem_of_findPattern v table b h
    simpa [Codec.width] using List.all_eq_true.mp hc (k, b) hk
  | constant p code =>
    cases h
    rfl

/-- The fields' bits have the sum of the fields' widths (42_message_mux.md R201). -/
theorem encodeFields_length (cs : List Codec) (vs : List Code) (b : Bits) (hc : ∀ c ∈ cs, c.uniform = true)
    (h : encodeFields cs vs = .ok b) : b.length = (cs.map Codec.width).sum := by
  induction cs generalizing vs b with
  | nil =>
    cases h
    rfl
  | cons c cs ih =>
    simp only [encodeFields] at h
    split at h
    · cases h
    · rename_i b₁ h₁
      split at h
      · cases h
      · rename_i b₂ h₂
        cases h
        have hhead := codec_toBits_length c _ b₁ (hc c List.mem_cons_self) h₁
        have htail := ih _ b₂ (fun d hd => hc d (List.mem_cons_of_mem _ hd)) h₂
        simp [hhead, htail]

theorem fields_uniform (t : MsgType) : ∀ c ∈ t.opcodeField :: t.fields, c.uniform = true := by
  cases t <;> decide

/-- The sequence of a message has `nBits` elements, and the five of the checksum if the type has one. -/
theorem toBits_length (t : MsgType) (v : Slots) (b : Bits) (h : toBits t v = .ok b) :
    b.length = t.nBits + if t.hasCheck then 5 else 0 := by
  simp only [toBits] at h
  split at h
  · cases h
  · rename_i s hs
    have hlen : s.length = t.nBits := encodeFields_length _ _ s (fields_uniform t) hs
    cases h
    split
    · simp [hlen, crc5, crcBits]
    · simp [hlen]

/-- No message is longer than a Query with its checksum (10_state.md R44). -/
theorem toBits_length_le (t : MsgType) (v : Slots) (b : Bits) (h : toBits t v = .ok b) : b.length ≤ 22 := by
  rw [toBits_length t v b h]
  cases t <;> decide

/-- What ASSEMBLE and ENCODE assemble is a message's sequence. -/
theorem toBits_of_assembleMsg (code : Nat) (field : Slots) (t : MsgType) (b : Bits)
    (h : assembleMsg code field = .ok (t, b)) : toBits t field = .ok b := by
  simp only [assembleMsg] at h
  split at h
  · cases h
  · split at h
    · cases h
    · rename_i hb
      cases h
      exact hb

theorem uint_replicate_false (n : Nat) : uint (List.replicate n false) = 0 := by
  induction n with
  | zero => rfl
  | succ n ih => simp [List.replicate_succ, uint_cons, ih]

/-- A packed word's bits past its sequence are 0 (30_encoding.md R104). -/
theorem packWord_mod (b : Bits) (h : b.length ≤ 32) : (packWord b).toNat % 2 ^ (32 - b.length) = 0 := by
  rw [packWord_toNat, List.take_of_length_le h, uint_append, uint_replicate_false, List.length_replicate]
  simp

/-- A parse yields one value per field. -/
theorem parseFields_length (cs : List Codec) (s : Bits) (vals : List Code) (h : parseFields cs s = .ok vals) :
    vals.length = cs.length := by
  induction cs generalizing s vals with
  | nil =>
    cases h
    rfl
  | cons c cs ih =>
    simp only [parseFields] at h
    split at h
    · cases h
    · split at h
      · cases h
      · rename_i r hr
        cases h
        simp [ih _ r hr]

/-- Slots filled from a list are 0 past it (30_encoding.md R107). -/
theorem slots_ofList_unused (l : List Code) : ∀ c ∈ (Slots.ofList l).toList.drop l.length, c = 0 := by
  have hslots : (Slots.ofList l).toList = (List.range 8).map (fun i => l.getD i 0) := rfl
  intro c hc
  rw [hslots, ← List.map_drop, List.mem_map] at hc
  obtain ⟨i, hi, rfl⟩ := hc
  have hle : l.length ≤ i := by
    obtain ⟨j, hj, rfl⟩ := List.mem_iff_getElem.mp hi
    simp
  simp [hle]

/-- A message read from a sequence has its type's own slots alone (30_encoding.md R107). -/
theorem parseAs_unusedSlotsZero (t t' : MsgType) (s : Bits) (v : Slots) (h : parseAs t s = .ok (t', v)) :
    unusedSlotsZero t'.code v = true := by
  simp only [parseAs] at h
  split at h
  · cases h
  · split at h
    · cases h
    · rename_i vals hvals
      cases h
      have hlen : vals.tail.length = t.fields.length := by
        simp [parseFields_length _ _ vals hvals]
      simpa [unusedSlotsZero, hlen] using slots_ofList_unused vals.tail

theorem dispatchIn_unusedSlotsZero (ts : List MsgType) (s : Bits) (t : MsgType) (v : Slots)
    (h : dispatchIn ts s = .ok (t, v)) : unusedSlotsZero t.code v = true := by
  induction ts with
  | nil => cases h
  | cons t₀ ts ih =>
    simp only [dispatchIn] at h
    split at h
    · exact parseAs_unusedSlotsZero t₀ t s v h
    · exact ih h

/-- A dispatched message has its type's own slots alone (42_message_mux.md R206). -/
theorem dispatch_unusedSlotsZero (s : Bits) (t : MsgType) (v : Slots) (h : dispatch s = .ok (t, v)) :
    unusedSlotsZero t.code v = true :=
  dispatchIn_unusedSlotsZero registry s t v h

end Sys2Proof.Machine
end

section
/-! PROOFS. Where the bytes of the buffers lie (20_memory.md R86). -/

namespace Sys2Proof.Machine

/-- The bounds of the buffers' sizes that legal parameters give (00_scope.md R10). -/
theorem legalParams_bounds (p : Params) (h : legalParams p = true) :
    p.nPulse ≤ 64 ∧ p.nSample ≤ 65536 ∧ p.nEdge ≤ 4096 ∧ p.nResult ≤ 8 := by
  simp only [legalParams, Bool.and_eq_true, decide_eq_true_eq] at h
  omega

/-- The four bytes of a word-aligned address share what stands there. -/
theorem isBufferByte_of_word (p : Params) (a b : Nat) (ha : a % 4 = 0) (hlo : a ≤ b) (hhi : b < a + 4)
    (h : (∃ i, locateAt p a = .pulse i) ∨ (∃ i, locateAt p a = .result i) ∨ (∃ i, locateAt p a = .edge i) ∨
      ∃ i, locateAt p a = .sample i) : isBufferByte p b = true := by
  have hb : b - b % 4 = a := by omega
  unfold isBufferByte
  rw [hb]
  rcases h with ⟨i, h⟩ | ⟨i, h⟩ | ⟨i, h⟩ | ⟨i, h⟩ <;> rw [h]

theorem isBufferByte_pulse (p : Params) (b : Nat) (hcap : p.nPulse ≤ 64) (hlo : pulseBase ≤ b)
    (hhi : b < pulseBase + 4 * p.nPulse) : isBufferByte p b = true := by
  simp only [pulseBase] at hlo hhi
  exact isBufferByte_of_word p (0x1000 + 4 * ((b - 0x1000) / 4)) b (by omega) (by omega) (by omega)
    (.inl ⟨_, locateAt_pulse p _ (by omega) (by omega)⟩)

theorem isBufferByte_result (p : Params) (b : Nat) (hcap : p.nResult ≤ 8) (hlo : resultBase ≤ b)
    (hhi : b < resultBase + 4 * (32 * p.nResult)) : isBufferByte p b = true := by
  simp only [resultBase] at hlo hhi
  exact isBufferByte_of_word p (0x4000 + 4 * ((b - 0x4000) / 4)) b (by omega) (by omega) (by omega)
    (.inr (.inl ⟨_, locateAt_result p _ (by omega) (by omega)⟩))

theorem isBufferByte_edge (p : Params) (b : Nat) (hcap : p.nEdge ≤ 4096) (hlo : edgeBase ≤ b)
    (hhi : b < edgeBase + 4 * p.nEdge) : isBufferByte p b = true := by
  simp only [edgeBase] at hlo hhi
  exact isBufferByte_of_word p (0x8000 + 4 * ((b - 0x8000) / 4)) b (by omega) (by omega) (by omega)
    (.inr (.inr (.inl ⟨_, locateAt_edge p _ (by omega) (by omega)⟩)))

theorem isBufferByte_sample (p : Params) (b : Nat) (hcap : p.nSample ≤ 65536) (hlo : sampleBase ≤ b)
    (hhi : b < sampleBase + 4 * p.nSample) : isBufferByte p b = true := by
  simp only [sampleBase] at hlo hhi
  exact isBufferByte_of_word p (0x10000 + 4 * ((b - 0x10000) / 4)) b (by omega) (by omega) (by omega)
    (.inr (.inr (.inr ⟨_, locateAt_sample p _ (by omega) (by omega)⟩)))

/-- A buffer entry is one the parameters configure; any other location is no entry. -/
def Loc.configured (p : Params) : Loc → Prop
  | .pulse i => i < p.nPulse
  | .result i => i < 32 * p.nResult
  | .edge i => i < p.nEdge
  | .sample i => i < p.nSample
  | _ => True

theorem regAt_configured (p : Params) (a : Nat) : (regAt a).configured p := by
  unfold regAt
  split <;> trivial

theorem entryOr_configured (p : Params) (n cap : Nat) (mk : Nat → Loc) (i : Nat)
    (h : i < n → (mk i).configured p) : (entryOr n cap mk i).configured p := by
  unfold entryOr
  split
  · rename_i hi
    exact h hi.1
  · trivial

/-- A buffer entry that an address reaches is a configured one (20_memory.md R86). -/
theorem locateAt_configured (p : Params) (a : Nat) : (locateAt p a).configured p := by
  unfold locateAt
  split_ifs
  · exact regAt_configured p a
  · trivial
  · exact entryOr_configured p _ _ .pulse _ id
  · exact entryOr_configured p _ _ .result _ id
  · exact entryOr_configured p _ _ .edge _ id
  · exact entryOr_configured p _ _ .sample _ id

end Sys2Proof.Machine
end

section
/-! PROOFS. The invariant's parts: what it says of the memory and of the registers, and what keeps each. -/

namespace Sys2Proof.Machine

/-- The invariant's clauses on the memory: canonical, and of existing buffer entries only (20_memory.md R86). -/
structure MemInv (p : Params) (m : Memory) : Prop where
  canonical : Memory.wf m = true
  mapped : ∀ c ∈ m, isBufferByte p c.1 = true

/-- The invariant's clauses on the registers (10_state.md R44, R46, R47, R50). -/
structure RegsInv (p : Params) (r : Regs) : Prop where
  txLen : r.txLen.toNat ≤ 22
  txBits : r.txBits.toNat % 2 ^ (32 - r.txLen.toNat) = 0
  txType : r.txType.toNat ≤ 4
  rxType : r.rxType.toNat ≤ 4
  rxUnused : unusedSlotsZero r.rxType.toNat r.rxField = true
  pulses : r.pulseCnt.toNat ≤ p.nPulse
  results : r.resultCnt.toNat ≤ p.nResult

theorem State.Inv.memInv {s : State} (h : s.Inv) : MemInv s.par s.mem :=
  ⟨h.canonical, h.mapped⟩

theorem State.Inv.regsInv {s : State} (h : s.Inv) : RegsInv s.par s.regs :=
  ⟨h.txLen, h.txBits, h.txType, h.rxType, h.rxUnused, h.pulses, h.results⟩

/-- The invariant by its parts. -/
theorem inv_iff (s : State) :
    s.Inv ↔ legalParams s.par = true ∧ MemInv s.par s.mem ∧ RegsInv s.par s.regs ∧
      (s.busy = true → s.done = false ∧ s.err = .none) ∧ (s.rst = true → atReset s) := by
  constructor
  · intro h
    exact ⟨h.params, h.memInv, h.regsInv, h.busyClear, h.held⟩
  · rintro ⟨hp, hm, hr, hb, hh⟩
    exact ⟨hp, hm.canonical, hm.mapped, hb, hr.txLen, hr.txBits, hr.txType, hr.rxType, hr.rxUnused, hr.pulses,
      hr.results, hh⟩

/-! The memory. -/

theorem memInv_nil (p : Params) : MemInv p [] :=
  ⟨rfl, fun _ hc => nomatch hc⟩

/-- Words written into existing buffer entries keep the memory's clauses. -/
theorem MemInv.wordsWrite {p : Params} {m : Memory} (h : MemInv p m) (a : Nat) (ws : List Word)
    (ha : ∀ b, a ≤ b → b < a + 4 * ws.length → isBufferByte p b = true) : MemInv p (wordsWrite m a ws) := by
  refine ⟨wf_wordsWrite ws m a h.canonical, fun c hc => ?_⟩
  rcases mem_wordsWrite ws m a c hc with hold | ⟨hlo, hhi⟩
  · exact h.mapped c hold
  · exact ha c.1 hlo hhi

/-- A word written into an existing buffer entry keeps the memory's clauses. -/
theorem MemInv.wordWrite {p : Params} {m : Memory} (h : MemInv p m) (a : Nat) (w : Word)
    (ha : ∀ b, a ≤ b → b < a + 4 → isBufferByte p b = true) : MemInv p (wordWrite m a w) :=
  h.wordsWrite a [w] ha

/-! The registers. -/

/-- The registers the invariant speaks of: those that the engine alone writes, CRC_REG apart. -/
def engineRegs (r : Regs) : BitVec 3 × BitVec 7 × Word × BitVec 3 × Slots × BitVec 7 × BitVec 4 :=
  (r.txType, r.txLen, r.txBits, r.rxType, r.rxField, r.pulseCnt, r.resultCnt)

/-- The registers' clauses depend on the engine's registers only. -/
theorem RegsInv.congr {p : Params} {r r' : Regs} (h : RegsInv p r) (he : engineRegs r' = engineRegs r) :
    RegsInv p r' := by
  simp only [engineRegs, Prod.mk.injEq] at he
  obtain ⟨htt, htl, htb, hrt, hrf, hpc, hrc⟩ := he
  constructor
  · rw [htl]; exact h.txLen
  · rw [htl, htb]; exact h.txBits
  · rw [htt]; exact h.txType
  · rw [hrt]; exact h.rxType
  · rw [hrt, hrf]; exact h.rxUnused
  · rw [hpc]; exact h.pulses
  · rw [hrc]; exact h.results

theorem regsInv_reset (p : Params) : RegsInv p resetRegs :=
  ⟨by decide, by decide, by decide, by decide, rfl, Nat.zero_le _, Nat.zero_le _⟩

theorem toNat_code (t : MsgType) : (BitVec.ofNat 3 t.code).toNat = t.code := by
  cases t <;> rfl

theorem code_le (t : MsgType) : t.code ≤ 4 := by
  cases t <;> decide

/-- An assembled message in the transmit buffer keeps the registers' clauses (10_state.md R44). -/
theorem RegsInv.writeTx {p : Params} {r : Regs} (h : RegsInv p r) {code : Nat} {field : Slots} {t : MsgType} {b : Bits}
    (ha : assembleMsg code field = .ok (t, b)) : RegsInv p (writeTx t b r) := by
  have hle : b.length ≤ 22 := toBits_length_le t field b (toBits_of_assembleMsg code field t b ha)
  have hlen : (BitVec.ofNat 7 b.length).toNat = b.length := by
    rw [BitVec.toNat_ofNat]
    omega
  constructor
  · simpa [hlen] using hle
  · rw [writeTx_txLen, writeTx_txBits, hlen]
    exact packWord_mod b (by omega)
  · rw [writeTx_txType, toNat_code]
    exact code_le t
  · exact h.rxType
  · exact h.rxUnused
  · exact h.pulses
  · exact h.results

/-- A message in the receive registers, its unused slots 0, keeps the registers' clauses (10_state.md R46). -/
theorem RegsInv.receive {p : Params} {r : Regs} (h : RegsInv p r) {t : MsgType} {v : Slots}
    (hv : unusedSlotsZero t.code v = true) :
    RegsInv p { r with rxType := BitVec.ofNat 3 t.code, rxField := v } := by
  refine ⟨h.txLen, h.txBits, h.txType, ?_, ?_, h.pulses, h.results⟩
  · rw [toNat_code]
    exact code_le t
  · rw [toNat_code]
    exact hv

/-- A pulse count within PULSE_MEM keeps the registers' clauses (10_state.md R47). -/
theorem RegsInv.pulseCnt {p : Params} {r : Regs} (h : RegsInv p r) {n : Nat} (hn : n ≤ p.nPulse) :
    RegsInv p { r with pulseCnt := BitVec.ofNat 7 n } := by
  refine ⟨h.txLen, h.txBits, h.txType, h.rxType, h.rxUnused, ?_, h.results⟩
  rw [BitVec.toNat_ofNat]
  exact (Nat.mod_le n _).trans hn

/-- A result count within RESULT_MEM keeps the registers' clauses (10_state.md R50). -/
theorem RegsInv.resultCnt {p : Params} {r : Regs} (h : RegsInv p r) {n : Nat} (hn : n ≤ p.nResult) :
    RegsInv p { r with resultCnt := BitVec.ofNat 4 n } := by
  refine ⟨h.txLen, h.txBits, h.txType, h.rxType, h.rxUnused, h.pulses, ?_⟩
  rw [BitVec.toNat_ofNat]
  exact (Nat.mod_le n _).trans hn

/-! The shared operations. -/

/-- The invariant does not speak of the host, its reads, the latency and the counters. -/
theorem State.Inv.outside {s : State} (h : s.Inv) (host : List HostOp) (reads : List Word) (slack accepted draws : Nat) :
    State.Inv { s with host := host, reads := reads, slack := slack, accepted := accepted, draws := draws } :=
  ⟨h.params, h.canonical, h.mapped, h.busyClear, h.txLen, h.txBits, h.txType, h.rxType, h.rxUnused, h.pulses,
    h.results, h.held⟩

theorem State.Inv.popHost {s : State} (h : s.Inv) : (popHost s).Inv :=
  h.outside s.host.tail s.reads s.slack s.accepted s.draws

/-- A released core has the invariant when its parameters, memory, registers and flags have their parts of it. -/
theorem inv_released {s : State} (hrst : s.rst = false) (hp : legalParams s.par = true) (hm : MemInv s.par s.mem)
    (hr : RegsInv s.par s.regs) (hb : s.busy = true → s.done = false ∧ s.err = .none) : s.Inv :=
  (inv_iff s).mpr ⟨hp, hm, hr, hb, fun h => absurd (hrst.symm.trans h) Bool.false_ne_true⟩

/-- A core in its reset state has the invariant, whatever the level of `rst`. -/
theorem inv_of_atReset {s : State} (hp : legalParams s.par = true) (h : atReset s) : s.Inv := by
  obtain ⟨hregs, hdone, -, herr, -, -, hmem⟩ := id h
  refine (inv_iff s).mpr ⟨hp, ?_, ?_, fun _ => ⟨hdone, herr⟩, fun _ => h⟩
  · rw [hmem]
    exact memInv_nil s.par
  · rw [hregs]
    exact regsInv_reset s.par

theorem atReset_powerOn (s : State) : atReset (powerOn s) :=
  ⟨rfl, rfl, rfl, rfl, rfl, rfl, rfl⟩

theorem inv_powerOn {s : State} (h : s.Inv) : (powerOn s).Inv :=
  inv_of_atReset h.params (atReset_powerOn s)

/-- A completed command leaves the core IDLE, so memory and registers decide (45_control.md R351). -/
theorem inv_complete {s : State} (e : Err) (hrst : s.rst = false) (hp : legalParams s.par = true)
    (hm : MemInv s.par s.mem) (hr : RegsInv s.par s.regs) : (complete e s).Inv :=
  inv_released hrst hp hm hr fun h => nomatch h

end Sys2Proof.Machine
end

section
/-! PROOFS. Every host operation keeps the invariant. -/

namespace Sys2Proof.Machine

/-- A write to STATUS can only clear DONE. -/
theorem State.Inv.writeStatus {s : State} (h : s.Inv) (hrst : s.rst = false) (v : Word) : (writeStatus v s).Inv := by
  refine inv_released hrst h.params h.memInv h.regsInv fun hb => ?_
  obtain ⟨hdone, herr⟩ := h.busyClear hb
  exact ⟨by simp [hdone], herr⟩

/-- All a write to a location of an IDLE core can do: it accepts a command, clears STATUS bits, writes an entry of
EDGE_MEM or SAMPLE_MEM, or writes registers the engine does not (20_memory.md R82). -/
theorem locWrite_cases (v : Word) (s : State) (l : Loc) :
    (l = .cmd ∧ locWrite v s l = accept v s) ∨
    (l = .status ∧ locWrite v s l = writeStatus v s) ∨
    (∃ i, l = .edge i ∧ locWrite v s l = { s with mem := wordWrite s.mem (edgeBase + 4 * i) v }) ∨
    (∃ i, l = .sample i ∧
      locWrite v s l = { s with mem := wordWrite s.mem (sampleBase + 4 * i) (sampleMask s.par v) }) ∨
    ∃ r, locWrite v s l = { s with regs := r } ∧ engineRegs r = engineRegs s.regs := by
  cases l with
  | cmd => exact .inl ⟨rfl, rfl⟩
  | status => exact .inr (.inl ⟨rfl, rfl⟩)
  | edge i => exact .inr (.inr (.inl ⟨i, rfl, rfl⟩))
  | sample i => exact .inr (.inr (.inr (.inl ⟨i, rfl, rfl⟩)))
  | _ => exact .inr (.inr (.inr (.inr ⟨_, rfl, rfl⟩)))

/-- A write to a configured location keeps the invariant. -/
theorem State.Inv.locWrite {s : State} (h : s.Inv) (hrst : s.rst = false) (v : Word) (l : Loc)
    (hl : l.configured s.par) : (locWrite v s l).Inv := by
  obtain ⟨-, hsample, hedge, -⟩ := legalParams_bounds s.par h.params
  rcases locWrite_cases v s l with ⟨-, hw⟩ | ⟨-, hw⟩ | ⟨i, rfl, hw⟩ | ⟨i, rfl, hw⟩ | ⟨r, hw, hr⟩ <;> rw [hw]
  · exact inv_released hrst h.params h.memInv h.regsInv fun _ => ⟨rfl, rfl⟩
  · exact h.writeStatus hrst v
  · have hi : i < s.par.nEdge := hl
    have hm := h.memInv.wordWrite (edgeBase + 4 * i) v fun b hlo hhi =>
      isBufferByte_edge s.par b hedge (by omega) (by omega)
    exact inv_released hrst h.params hm h.regsInv h.busyClear
  · have hi : i < s.par.nSample := hl
    have hm := h.memInv.wordWrite (sampleBase + 4 * i) (sampleMask s.par v) fun b hlo hhi =>
      isBufferByte_sample s.par b hsample (by omega) (by omega)
    exact inv_released hrst h.params hm h.regsInv h.busyClear
  · exact inv_released hrst h.params h.memInv (h.regsInv.congr hr) h.busyClear

/-- A bus write keeps the invariant, held, BUSY or IDLE. -/
theorem State.Inv.busWrite {s : State} (h : s.Inv) (a : Addr) (v : Word) : (busWrite a v s).Inv := by
  rcases busWrite_cases a v s with ⟨-, hw⟩ | ⟨hrst, -, -, hw⟩ | ⟨hrst, -, -, hw⟩ | ⟨hrst, -, hw⟩ <;> rw [hw]
  · exact h
  · exact h.writeStatus hrst v
  · exact inv_released hrst h.params h.memInv h.regsInv h.busyClear
  · exact h.locWrite hrst v _ (locateAt_configured s.par (wordAddr a))

/-- One operation from outside keeps the invariant. -/
theorem State.Inv.hostOp {s : State} (h : s.Inv) (op : HostOp) : (hostOp op s).Inv := by
  cases op with
  | write a v => exact h.popHost.busWrite a v
  | read a => exact h.outside _ _ _ _ _
  | wait =>
    simp only [Machine.hostOp]
    split
    · exact h
    · exact h.popHost
  | rst level =>
    cases level with
    | true => exact inv_of_atReset h.params (atReset_powerOn (Machine.popHost s))
    | false => exact inv_released rfl h.params h.memInv h.regsInv h.busyClear

theorem State.Inv.hostStep {s : State} (h : s.Inv) : (hostStep s).Inv := by
  cases hh : s.host with
  | nil =>
    rw [hostStep_nil s hh]
    exact h
  | cons op rest =>
    rw [hostStep_cons s op rest hh]
    exact h.hostOp op

theorem State.Inv.busyHostStep {s : State} (h : s.Inv) : (busyHostStep s).Inv :=
  (h.outside s.host s.reads (s.slack - 1) s.accepted s.draws).hostStep

theorem State.Inv.heldStep {s : State} (h : s.Inv) : (heldStep s).Inv :=
  (inv_powerOn h).hostStep

end Sys2Proof.Machine
end

section
/-! PROOFS. Every instruction's meaning keeps the invariant, and so does every step. -/

namespace Sys2Proof.Machine

/-- A meaning that answers a next state, one with the invariant. -/
def AnswersInv (o : Host.Outcome State Fault Refusal) : Prop := ∃ t, o = .next t ∧ t.Inv

theorem answersInv_of_next {o : Host.Outcome State Fault Refusal} {t : State} (ho : o = .next t) (ht : t.Inv) :
    AnswersInv o := ⟨t, ho, ht⟩

/-- A record has 32 words (10_state.md R50). -/
theorem recordWords_length (cmdEnd rtTol trTol start : Nat) (sub : List Nat) :
    (recordWords cmdEnd rtTol trTol start sub).length = 32 := by
  simp [recordWords, Slots.toList]

/-- The words of several records. -/
theorem recordsWords_length (cmdEnd rtTol trTol : Nat) (subs : List (Nat × List Nat)) :
    (subs.flatMap fun sub => recordWords cmdEnd rtTol trTol sub.1 sub.2).length = 32 * subs.length := by
  simp [List.length_flatMap, recordWords_length, Nat.mul_comm]

section
variable {s : State} (h : s.Inv) (hrst : s.rst = false)
include h hrst

/-- A command that completes without writing keeps the invariant. -/
theorem complete_keeps_inv (e : Err) : (complete e s).Inv :=
  inv_complete e hrst h.params h.memInv h.regsInv

theorem execSoftReset_inv : AnswersInv (execSoftReset s) :=
  answersInv_of_next rfl (inv_complete _ hrst h.params h.memInv (regsInv_reset s.par))

theorem execCrcInit_inv : AnswersInv (execCrcInit s) :=
  answersInv_of_next rfl (inv_complete _ hrst h.params h.memInv (h.regsInv.congr rfl))

theorem execCrcFeed_inv (n : BitVec 6) : AnswersInv (execCrcFeed n s) := by
  rcases execCrcFeed_cases n s with ⟨-, he⟩ | ⟨-, he⟩
  · exact answersInv_of_next he (complete_keeps_inv h hrst _)
  · exact answersInv_of_next he (inv_complete _ hrst h.params h.memInv (h.regsInv.congr rfl))

theorem execAssemble_inv : AnswersInv (execAssemble s) := by
  rcases execAssemble_cases s with ⟨e, -, he⟩ | ⟨t, b, hb, he⟩
  · exact answersInv_of_next he (complete_keeps_inv h hrst _)
  · exact answersInv_of_next he (inv_complete _ hrst h.params h.memInv (h.regsInv.writeTx hb))

/-- A received message whose unused slots are 0 keeps the invariant. -/
theorem receive_inv (t : MsgType) (v : Slots) (hv : unusedSlotsZero t.code v = true) : (receive t v s).Inv :=
  inv_complete _ hrst h.params h.memInv (h.regsInv.receive hv)

theorem execParse_inv : AnswersInv (execParse s) := by
  rcases execParse_cases s with ⟨-, he⟩ | ⟨e, -, -, he⟩ | ⟨t, v, -, hd, he⟩
  · exact answersInv_of_next he (complete_keeps_inv h hrst _)
  · exact answersInv_of_next he (complete_keeps_inv h hrst _)
  · exact answersInv_of_next he (receive_inv h hrst t v (dispatch_unusedSlotsZero _ t v hd))

theorem execEncode_inv : AnswersInv (execEncode s) := by
  rcases execEncode_cases s with ⟨e, he⟩ | ⟨m, b, p, hb, -, -, hle, he⟩
  · exact answersInv_of_next he (complete_keeps_inv h hrst _)
  · obtain ⟨hcap, -⟩ := legalParams_bounds s.par h.params
    have hm := h.memInv.wordsWrite pulseBase (p.map (BitVec.ofNat 32)) fun a hlo hhi => by
      rw [List.length_map] at hhi
      exact isBufferByte_pulse s.par a hcap hlo (by omega)
    exact answersInv_of_next he (inv_complete _ hrst h.params hm ((h.regsInv.writeTx hb).pulseCnt hle))

theorem execEdges_inv : AnswersInv (execEdges s) := by
  rcases execEdges_cases s with ⟨-, he⟩ | ⟨-, -, e, -, he⟩
  · exact answersInv_of_next he (complete_keeps_inv h hrst _)
  · obtain ⟨-, -, hcap, -⟩ := legalParams_bounds s.par h.params
    have hm := h.memInv.wordsWrite edgeBase ((e.take s.par.nEdge).map (BitVec.ofNat 32)) fun a hlo hhi => by
      rw [List.length_map, List.length_take] at hhi
      exact isBufferByte_edge s.par a hcap hlo (by omega)
    exact answersInv_of_next he (inv_complete _ hrst h.params hm (h.regsInv.congr rfl))

theorem execDecode_inv : AnswersInv (execDecode s) := by
  rcases execDecode_cases s with ⟨-, he⟩ | ⟨-, subs, -, he⟩
  · exact answersInv_of_next he (complete_keeps_inv h hrst _)
  · obtain ⟨-, -, -, hcap⟩ := legalParams_bounds s.par h.params
    have hle : (subs.take s.par.nResult).length ≤ s.par.nResult := List.length_take_le _ _
    have hm := h.memInv.wordsWrite resultBase ((subs.take s.par.nResult).flatMap fun sub =>
        recordWords s.par.cmdEnd s.regs.rtTol.toNat s.regs.trTol.toNat sub.1 sub.2) fun a hlo hhi => by
      rw [recordsWords_length] at hhi
      exact isBufferByte_result s.par a hcap hlo (by omega)
    exact answersInv_of_next he (inv_complete _ hrst h.params hm (h.regsInv.resultCnt hle))

/-- Every instruction answers a next state with the invariant (60_exceptions.md R372: no instruction traps). -/
theorem exec_inv (i : Instr) : AnswersInv (exec i s) := by
  cases i with
  | query dr m trext sel session target q => exact answersInv_of_next rfl (receive_inv h hrst _ _ rfl)
  | queryAdjust session updn => exact answersInv_of_next rfl (receive_inv h hrst _ _ rfl)
  | queryRep session => exact answersInv_of_next rfl (receive_inv h hrst _ _ rfl)
  | ack rn16 => exact answersInv_of_next rfl (receive_inv h hrst _ _ rfl)
  | nak => exact answersInv_of_next rfl (receive_inv h hrst _ _ rfl)
  | crcInit => exact execCrcInit_inv h hrst
  | crcFeed n => exact execCrcFeed_inv h hrst n
  | assemble => exact execAssemble_inv h hrst
  | parse => exact execParse_inv h hrst
  | encode => exact execEncode_inv h hrst
  | edges => exact execEdges_inv h hrst
  | decode => exact execDecode_inv h hrst
  | softReset => exact execSoftReset_inv h hrst
  | nop | reserved8 | reserved9 | reservedA | reservedB | reservedC | reservedD | reservedE =>
    exact answersInv_of_next rfl (complete_keeps_inv h hrst _)

end

/-- Settles O59: a step is a held step, the engine's completion or a host step, and each keeps the invariant. -/
theorem stepKeepsInvariant : Obligations.StepKeepsInvariant := by
  intro s t h hstep
  rcases step_cases s with ⟨-, he⟩ | ⟨hrst, -, he⟩ | ⟨-, -, -, he⟩ | ⟨-, -, he⟩
  · cases he.symm.trans hstep
    exact h.heldStep
  · obtain ⟨t', ht', hinv⟩ := exec_inv h hrst (fetch s)
    cases (he.trans ht').symm.trans hstep
    exact hinv
  · cases he.symm.trans hstep
    exact h.busyHostStep
  · cases he.symm.trans hstep
    exact h.hostStep

end Sys2Proof.Machine
end

section
/-! PROOFS. The core while `rst` is asserted (70_reset_and_hazards.md R401). -/

namespace Sys2Proof.Machine

/-- A register of a core in reset holds what it holds after power-on reset. -/
theorem locValue_powerOn_regAt (s : State) (n : Nat) :
    locValue (powerOn s) (regAt n) = locValue State.reset (regAt n) := by
  unfold regAt
  split <;> rfl

/-- A core in reset reads as the reset table says (10_state.md R53). -/
theorem busRead_powerOn (s : State) (p : Nat × Nat) (hp : p ∈ resetTable) :
    busRead (BitVec.ofNat 20 p.1) (powerOn s) = BitVec.ofNat 32 p.2 := by
  have haddr : ∀ p ∈ resetTable, p.1 < 0x100 ∧ p.1 % 4 = 0 := by decide
  have hvalue : ∀ p ∈ resetTable, locValue State.reset (regAt p.1) = BitVec.ofNat 32 p.2 := by decide
  obtain ⟨hlt, hword⟩ := haddr p hp
  rw [busRead_idle _ _ (busy_powerOn s), locate_register _ _ hlt hword, locValue_powerOn_regAt, hvalue p hp]

/-- Asserting `rst` takes effect at once. -/
theorem hostOp_assertRst (s : State) : hostOp (.rst true) s = { powerOn (popHost s) with rst := true } := rfl

/-- All a held step can do: a read is recorded, `rst` is released, or the host's next operation, if any, is only
passed. The core is in reset after each (log 10). -/
theorem heldStep_cases (s : State) (h : s.rst = true) :
    (∃ a rest, s.host = .read a :: rest ∧ heldStep s =
      { popHost (powerOn s) with reads := busRead a (powerOn s) :: s.reads, draws := s.draws + 2 }) ∨
    (∃ rest, s.host = .rst false :: rest ∧ heldStep s = { popHost (powerOn s) with rst := false }) ∨
    ((∀ a rest, s.host ≠ .read a :: rest) ∧ (∀ rest, s.host ≠ .rst false :: rest) ∧
      ∃ d, heldStep s = { popHost (powerOn s) with draws := d }) := by
  cases hh : s.host with
  | nil =>
    have he : heldStep s = popHost (powerOn s) := by
      simp [heldStep, hostStep_nil, popHost, powerOn, hh]
    exact .inr (.inr ⟨nofun, nofun, _, he⟩)
  | cons op rest =>
    have he : heldStep s = hostOp op (powerOn s) := hostStep_cons (powerOn s) op rest hh
    cases op with
    | write a v =>
      have hw : hostOp (.write a v) (powerOn s) = popHost (powerOn s) := busWrite_held a v _ h
      exact .inr (.inr ⟨nofun, nofun, _, he.trans hw⟩)
    | read a => exact .inl ⟨a, rest, rfl, he⟩
    | wait => exact .inr (.inr ⟨nofun, nofun, _, he⟩)
    | rst level =>
      cases level with
      | false => exact .inr (.inl ⟨rest, rfl, he⟩)
      | true =>
        have hr : hostOp (.rst true) (powerOn s) = { popHost (powerOn s) with draws := s.draws + 2 } := by
          simp [hostOp_assertRst, popHost, powerOn, h]
        exact .inr (.inr ⟨nofun, nofun, _, he.trans hr⟩)

/-- A step that asserts `rst` leaves the core in reset, from IDLE and, when it is not the engine's turn, from BUSY. -/
theorem step_assertRst (s : State) (rest : List HostOp) (hhost : s.host = .rst true :: rest) (hrst : s.rst = false)
    (hturn : engineTurn s = false) : step s = .next { powerOn (popHost s) with rst := true } := by
  cases hb : s.busy with
  | false => rw [step_idle s hrst hb, hostStep_cons s _ rest hhost, hostOp_assertRst]
  | true =>
    have hnext : busyHostStep s = hostOp (.rst true) { s with slack := s.slack - 1 } :=
      hostStep_cons { s with slack := s.slack - 1 } (.rst true) rest hhost
    rw [step_busyHost s hrst hb hturn, hnext, hostOp_assertRst]
    rfl

/-- Settles O58: the asserting step by `step_assertRst`, every later one by `heldStep_cases`. -/
theorem rstHoldsCoreInReset : Obligations.RstHoldsCoreInReset := by
  constructor
  · intro s rest hhost hrst hturn
    exact ⟨_, step_assertRst s rest hhost hrst hturn, rfl, atReset_powerOn (popHost s), congrArg List.tail hhost,
      rfl, rfl⟩
  · intro s hrst
    refine ⟨heldStep s, step_held s hrst, ?_⟩
    rcases heldStep_cases s hrst with ⟨a, rest, hhost, he⟩ | ⟨rest, hhost, he⟩ | ⟨hread, hrel, d, he⟩ <;> rw [he]
    · refine ⟨atReset_powerOn s, rfl, rfl, ?_, fun _ => hrst, ?_, ?_, ?_⟩
      · rintro ⟨rest', h'⟩
        cases hhost.symm.trans h'
      · intro a' rest' h'
        cases hhost.symm.trans h'
        rfl
      · intro p hp rest' h'
        cases hhost.symm.trans h'
        exact congrArg (· :: s.reads) (busRead_powerOn s p hp)
      · intro h'
        exact absurd hhost (h' a rest)
    · refine ⟨atReset_powerOn s, rfl, rfl, fun _ => rfl, fun h' => absurd hhost (h' rest), ?_, ?_, fun _ => rfl⟩
      · intro a' rest' h'
        cases hhost.symm.trans h'
      · intro p _ rest' h'
        cases hhost.symm.trans h'
    · exact ⟨atReset_powerOn s, rfl, rfl, fun ⟨rest, h'⟩ => absurd h' (hrel rest), fun _ => hrst,
        fun a rest h' => absurd h' (hread a rest), fun p _ rest h' => absurd h' (hread _ rest), fun _ => rfl⟩

end Sys2Proof.Machine
end

section
/-! PROOFS. Accesses to ID (10_state.md R31), and the state after power-on reset (10_state.md R53). -/

namespace Sys2Proof.Machine

/-- An access whose word address lies in the register window reaches that register. -/
theorem locate_of_wordAddr (p : Params) (a : Addr) (n : Nat) (h : wordAddr a = n) (hn : n < 0x100) :
    locate p a = regAt n := by
  rw [locate, h, locateAt_regs p n hn]

/-- A word address is a multiple of four (20_memory.md R85). -/
theorem wordAddr_mod (a : Addr) : wordAddr a % 4 = 0 := by
  unfold wordAddr
  omega

theorem busy_of_idle {s : State} (h : s.engState = .idle) : s.busy = false := by
  simp [State.busy, h]

/-- ID is in no command's output set (45_control.md R355). -/
theorem inOutputSet_id (i : Instr) : inOutputSet i .id = false := by
  cases i <;> rfl

/-- STATUS is in no command's output set (45_control.md R355). -/
theorem inOutputSet_status (i : Instr) : inOutputSet i .status = false := by
  cases i <;> rfl

/-- An unmapped word is in no command's output set. -/
theorem inOutputSet_unmapped (i : Instr) : inOutputSet i .unmapped = false := by
  cases i <;> rfl

/-- ID reads its constant, IDLE or BUSY (10_state.md R31). -/
theorem busRead_id (a : Addr) (s : State) (h : locate s.par a = .id) : busRead a s = 0x47324331#32 := by
  rw [busRead_outside a s (by rw [h]; exact inOutputSet_id _), h]
  rfl

/-- A write to ID leaves the registers and the memory alone: it is ignored, or sets WERR while BUSY. -/
theorem busWrite_id_frame (a : Addr) (v : Word) (s : State) (h : locate s.par a = .id) :
    (busWrite a v s).regs = s.regs ∧ (busWrite a v s).mem = s.mem := by
  rcases busWrite_cases a v s with ⟨-, hw⟩ | ⟨-, -, -, hw⟩ | ⟨-, -, -, hw⟩ | ⟨-, -, hw⟩ <;> rw [hw]
  · exact ⟨rfl, rfl⟩
  · exact ⟨rfl, rfl⟩
  · exact ⟨rfl, rfl⟩
  · rw [h]
    exact ⟨rfl, rfl⟩

/-- Settles O2: no command's output set holds ID, which stands at its address under all parameters. -/
theorem idReadsConstant : Obligations.IdReadsConstant := by
  intro s a ha
  have hloc : ∀ p, locate p a = .id := fun p => locate_of_wordAddr p a _ ha (by decide)
  refine ⟨busRead_id a s (hloc _), fun v => ⟨busRead_id a _ (hloc _), ?_⟩⟩
  exact busWrite_id_frame a v s (hloc _)

/-- Settles O60: the reset state is as power-on reset leaves the core, and the default parameters are legal. -/
theorem resetHasInvariant : Obligations.ResetHasInvariant :=
  inv_of_atReset (by decide) ⟨rfl, rfl, rfl, rfl, rfl, rfl, rfl⟩

/-- A register reads after reset as after power-on reset: the two states differ in the draw number alone. -/
theorem busRead_reset (p : Nat × Nat) (hp : p ∈ resetTable) :
    busRead (BitVec.ofNat 20 p.1) State.reset = BitVec.ofNat 32 p.2 := by
  have haddr : ∀ p ∈ resetTable, p.1 < 0x100 ∧ p.1 % 4 = 0 := by decide
  obtain ⟨hlt, hword⟩ := haddr p hp
  rw [← busRead_powerOn State.reset p hp, busRead_idle _ _ rfl, busRead_idle _ _ (busy_powerOn _), powerOn_par,
    locate_register _ _ hlt hword, locValue_powerOn_regAt]

/-- Settles O1: the table by `busRead_reset`, the rest by what `State.reset` holds. -/
theorem resetLeavesTableValues : Obligations.ResetLeavesTableValues :=
  ⟨busRead_reset, rfl, rfl, rfl, rfl, rfl, rfl, fun _ => rfl, rfl⟩

end Sys2Proof.Machine
end

section
/-! PROOFS. Words built of flags and fields: STATUS and the FLAGS of a record (10_state.md R34, R50). -/

namespace Sys2Proof.Machine

theorem flagBit_eq (b : Bool) (k : Nat) : flagBit b k = b.toNat * 2 ^ k := by
  cases b <;> simp [flagBit]

/-- A bit of a word by the arithmetic of its value. -/
theorem getLsbD_word (n k : Nat) (b : Bool) (hk : k < 32) (h : n / 2 ^ k % 2 = b.toNat) :
    (BitVec.ofNat 32 n).getLsbD k = b := by
  rw [BitVec.getLsbD_ofNat, Nat.testBit_eq_decide_div_mod_eq, h]
  cases b <;> simp [hk]

/-- A field of a word by the arithmetic of its value. -/
theorem extractLsb'_word (n k w c : Nat) (hk : k + w ≤ 32) (h : n / 2 ^ k % 2 ^ w = c) :
    (BitVec.ofNat 32 n).extractLsb' k w = BitVec.ofNat w c := by
  subst h
  apply BitVec.eq_of_getLsbD_eq
  intro i hi
  have hki : k + i < 32 := by omega
  rw [BitVec.getLsbD_extractLsb', BitVec.getLsbD_ofNat, BitVec.getLsbD_ofNat, Nat.testBit_mod_two_pow,
    Nat.testBit_div_two_pow, Nat.add_comm k i]
  simp [hi, Nat.add_comm i k, hki]

theorem err_code_lt (e : Err) : e.code < 16 := by
  cases e <;> decide

/-- The STATUS word, flag by flag, and 0 elsewhere (10_state.md R34). -/
theorem statusWord_layout (s : State) :
    (statusWord s).getLsbD 0 = s.busy ∧ (statusWord s).getLsbD 1 = s.done ∧
    (statusWord s).getLsbD 2 = s.werr ∧ (statusWord s).extractLsb' 4 4 = BitVec.ofNat 4 s.err.code ∧
    (statusWord s).getLsbD 3 = false ∧ (statusWord s).extractLsb' 8 24 = 0 := by
  have herr := err_code_lt s.err
  have hbusy := Bool.toNat_le s.busy
  have hdone := Bool.toNat_le s.done
  have hwerr := Bool.toNat_le s.werr
  have hfalse : Bool.toNat false = 0 := rfl
  simp only [statusWord, flagBit_eq]
  refine ⟨getLsbD_word _ 0 _ (by decide) ?_, getLsbD_word _ 1 _ (by decide) ?_, getLsbD_word _ 2 _ (by decide) ?_,
    extractLsb'_word _ 4 4 _ (by decide) ?_, getLsbD_word _ 3 _ (by decide) ?_,
    extractLsb'_word _ 8 24 0 (by decide) ?_⟩ <;> omega

/-- STATUS reads as it stands, IDLE or BUSY (70_reset_and_hazards.md R411). -/
theorem busRead_status (a : Addr) (s : State) (h : locate s.par a = .status) : busRead a s = statusWord s := by
  rw [busRead_outside a s (by rw [h]; exact inOutputSet_status _), h]
  rfl

/-- A write to STATUS acts alike in IDLE and in BUSY (10_state.md R34). -/
theorem busWrite_status (a : Addr) (v : Word) (s : State) (hr : s.rst = false) (h : locate s.par a = .status) :
    busWrite a v s = writeStatus v s := by
  cases hb : s.busy with
  | true => exact busWrite_busy_status a v s hr hb h
  | false =>
    rw [busWrite_idle a v s hr hb, h]
    rfl

/-- Settles O54: the bits by `statusWord_layout`; no command's output set holds STATUS, and
BUSY does not block its write. -/
theorem statusBitsAndClears : Obligations.StatusBitsAndClears := by
  refine ⟨statusWord_layout, fun s a v ha hr => ?_⟩
  have hloc : locate s.par a = .status := locate_of_wordAddr s.par a _ ha (by decide)
  exact ⟨busWrite_status a v s hr hloc, busRead_status a s hloc⟩

/-- The FLAGS word of a record, flag by flag, and 0 elsewhere (10_state.md R50). -/
theorem recordFlags_layout (calOk trcalOk msgOk blfOk bitovf crcOk term : Bool) (err type : Nat) (herr : err < 16)
    (htype : type < 8) (w : Word)
    (hw : w = BitVec.ofNat 32 (recordFlags calOk trcalOk msgOk blfOk bitovf crcOk term err type)) :
    (w.getLsbD 0 = calOk ∧ w.getLsbD 1 = trcalOk ∧ w.getLsbD 3 = blfOk ∧ w.getLsbD 4 = bitovf ∧ w.getLsbD 6 = term ∧
      w.getLsbD 7 = false ∧ w.extractLsb' 12 4 = 0 ∧ w.extractLsb' 19 13 = 0) ∧
    w.getLsbD 2 = msgOk ∧ w.getLsbD 5 = crcOk ∧ w.extractLsb' 8 4 = BitVec.ofNat 4 err ∧
      w.extractLsb' 16 3 = BitVec.ofNat 3 type := by
  have hcal := Bool.toNat_le calOk
  have htrcal := Bool.toNat_le trcalOk
  have hmsg := Bool.toNat_le msgOk
  have hblf := Bool.toNat_le blfOk
  have hovf := Bool.toNat_le bitovf
  have hcrc := Bool.toNat_le crcOk
  have hterm := Bool.toNat_le term
  have hfalse : Bool.toNat false = 0 := rfl
  subst hw
  simp only [recordFlags, flagBit_eq]
  refine ⟨⟨getLsbD_word _ 0 _ (by decide) ?_, getLsbD_word _ 1 _ (by decide) ?_, getLsbD_word _ 3 _ (by decide) ?_,
    getLsbD_word _ 4 _ (by decide) ?_, getLsbD_word _ 6 _ (by decide) ?_, getLsbD_word _ 7 _ (by decide) ?_,
    extractLsb'_word _ 12 4 0 (by decide) ?_, extractLsb'_word _ 19 13 0 (by decide) ?_⟩,
    getLsbD_word _ 2 _ (by decide) ?_, getLsbD_word _ 5 _ (by decide) ?_, extractLsb'_word _ 8 4 _ (by decide) ?_,
    extractLsb'_word _ 16 3 _ (by decide) ?_⟩ <;> omega

end Sys2Proof.Machine
end

section
/-! PROOFS. The layout of a result record (44_edge_decoder.md R312, 10_state.md R50). -/

namespace Sys2Proof.Machine

/-- CRC_OK of a dispatched message (44_edge_decoder.md R314). -/
theorem crcOk_ok_iff (t : MsgType) (v : Slots) (bits : Bits) :
    crcOk (.ok (t, v)) bits = true ↔ t = .query ∧ 22 ≤ bits.length ∧
      crc5 (bits.take 22) = [false, false, false, false, false] := by
  cases t <;> simp [crcOk]

/-- A record's FLAGS when dispatch gives a message. -/
theorem flagsOf_ok (x : Session) (t : MsgType) (v : Slots) :
    flagsOf x (.ok (t, v)) = recordFlags x.tari.isSome x.trCal.isSome true (observedBlf (.ok (t, v)) x.trCal).isSome
      x.bitovf (crcOk (.ok (t, v)) x.bits) x.term 0 t.code := rfl

/-- A record's FLAGS when dispatch fails. -/
theorem flagsOf_error (x : Session) (e : Err) :
    flagsOf x (.error e) = recordFlags x.tari.isSome x.trCal.isSome false (observedBlf (.error e) x.trCal).isSome
      x.bitovf false x.term e.code 0 := rfl

/-- Settles O37: the word groups are the record's lists cut at their lengths; the flags are those of
`recordFlags_layout`, by the dispatch result. -/
theorem recordLayout : Obligations.RecordLayout := by
  intro cmdEnd rtTol trTol start sub x res ws hx hres hws
  have hflags : ws.getD 0 0 = BitVec.ofNat 32 (flagsOf x res) := by rw [hws, hres, hx]; rfl
  have hslots : (ws.drop 10).take 8 = (recordSlots res).toList.map (BitVec.setWidth 32) := by rw [hws, hres, hx]; rfl
  have hlen : ws.length = 32 := hws ▸ recordWords_length cmdEnd rtTol trTol start sub
  have hcal : (ws.drop 1).take 7 = ([x.tari.getD 0, x.rtCal.getD 0, x.trCal.getD 0, (observedBlf res x.trCal).getD 0,
      start, start + x.used, x.bits.length].map (BitVec.ofNat 32)) := by rw [hws, hres, hx]; rfl
  have hbits : (ws.drop 8).take 2 = [packWord x.bits, packWord (x.bits.drop 32)] := by rw [hws, hx]; rfl
  have hrest : ws.drop 18 = List.replicate 14 0 := by rw [hws]; rfl
  clear hx hres hws
  rw [hflags]
  cases res with
  | ok m =>
    obtain ⟨t, v⟩ := m
    have hcode := code_le t
    obtain ⟨hshared, hmsg, hcrc, herr, htype⟩ := recordFlags_layout _ _ _ _ _ _ _ 0 t.code (by omega) (by omega) _
      (congrArg (BitVec.ofNat 32) (flagsOf_ok x t v))
    refine ⟨hlen, hshared, ?_, nofun, hcal, hbits, hrest⟩
    rintro t' v' ⟨⟩
    exact ⟨hmsg, herr, htype, hcrc ▸ crcOk_ok_iff t v x.bits, hslots⟩
  | error e =>
    obtain ⟨hshared, hmsg, hcrc, herr, htype⟩ := recordFlags_layout _ _ _ _ _ _ _ e.code 0 (err_code_lt e) (by omega) _
      (congrArg (BitVec.ofNat 32) (flagsOf_error x e))
    refine ⟨hlen, hshared, nofun, ?_, hcal, hbits, hrest⟩
    rintro e' ⟨⟩
    exact ⟨hmsg, hcrc, herr, htype, hslots⟩

end Sys2Proof.Machine
end

section
/-! PROOFS. Host writes to EDGE_MEM and SAMPLE_MEM (10_state.md R48, R49). -/

namespace Sys2Proof.Machine

/-- A sample's value is cut to SAMPLE_W bits (10_state.md R48). -/
theorem sampleMask_toNat (p : Params) (w : Word) : (sampleMask p w).toNat = w.toNat % 2 ^ p.sampleW := by
  rw [sampleMask, BitVec.toNat_ofNat, Nat.mod_eq_of_lt]
  exact (Nat.mod_le _ _).trans_lt w.isLt

/-- A read of an IDLE core with its memory replaced. -/
theorem busRead_idle_mem (a : Addr) (s : State) (m : Memory) (h : s.engState = .idle) :
    busRead a { s with mem := m } = locValue { s with mem := m } (locate s.par a) :=
  busRead_idle a _ (busy_of_idle (s := { s with mem := m }) h)

/-- Settles O51: the address reaches the entry, whose write is a word write into the memory. -/
theorem bufferWritesReadBack : Obligations.BufferWritesReadBack := by
  intro s v a i hp hr hidle
  obtain ⟨-, hsample, hedge, -⟩ := legalParams_bounds s.par hp
  have hwrite : busWrite a v s = locWrite v s (locate s.par a) := busWrite_idle a v s hr (busy_of_idle hidle)
  constructor
  · intro hi ha
    have hloc : locate s.par a = .edge i := by rw [locate, ha, locateAt_edge s.par i hi (by omega)]
    have hw : busWrite a v s = { s with mem := wordWrite s.mem (0x8000 + 4 * i) v } := by rw [hwrite, hloc]; rfl
    rw [hw]
    refine ⟨?_, rfl, fun b hb => byteAt_wordWrite_other _ _ _ _ hb⟩
    rw [busRead_idle_mem a s _ hidle, hloc]
    exact wordRead_wordWrite_same _ _ _ _
  · intro hi ha
    have hloc : locate s.par a = .sample i := by rw [locate, ha, locateAt_sample s.par i hi (by omega)]
    have hw : busWrite a v s = { s with mem := wordWrite s.mem (0x10000 + 4 * i) (sampleMask s.par v) } := by
      rw [hwrite, hloc]; rfl
    rw [hw]
    refine ⟨?_, rfl, fun b hb => byteAt_wordWrite_other _ _ _ _ hb⟩
    have hread : busRead a { s with mem := wordWrite s.mem (0x10000 + 4 * i) (sampleMask s.par v) } =
        sampleMask s.par (sampleMask s.par v) := by
      rw [busRead_idle_mem a s _ hidle, hloc]
      exact congrArg (sampleMask s.par) (wordRead_wordWrite_same _ _ _ _)
    rw [hread, sampleMask_toNat, sampleMask_toNat, Nat.mod_mod]

end Sys2Proof.Machine
end

section
/-! PROOFS. The output sets of 45_control.md R355, by location and by address. -/

namespace Sys2Proof.Machine

/-- Only the OP code of a CMD word decides the output set: ARG and the ignored bits do not. -/
theorem inOutputSet_decodeCmd (w : Word) (l : Loc) :
    inOutputSet (decodeCmd w) l = inOutputSet (decodeCmd (cmdWord (cmdOp w) 0)) l := by
  have hop : ∀ op, cmdOp (cmdWord op 0) = op := by decide
  unfold decodeCmd
  rw [hop]
  generalize cmdOp w = op
  split <;> rfl

/-- Each buffer that a command writes is in the output set of that command alone. -/
theorem inOutputSet_buffer (w : Word) (k : Nat) :
    (inOutputSet (decodeCmd w) (.pulse k) = true ↔ (cmdOp w).toNat = 5) ∧
    (inOutputSet (decodeCmd w) (.result k) = true ↔ (cmdOp w).toNat = 7) ∧
    (inOutputSet (decodeCmd w) (.edge k) = true ↔ (cmdOp w).toNat = 6) ∧
    inOutputSet (decodeCmd w) (.sample k) = false := by
  have hop := (cmdOp w).isLt
  unfold decodeCmd
  generalize (cmdOp w).toNat = op at hop ⊢
  interval_cases op <;> simp [inOutputSet]

/-- A window's word is in the output set where its entries are and where there is an entry. -/
theorem inOutputSet_entryOr (i : Instr) (n cap k : Nat) (mk : Nat → Loc) (hcap : n ≤ cap) :
    inOutputSet i (entryOr n cap mk k) = true ↔ inOutputSet i (mk k) = true ∧ k < n := by
  by_cases hk : k < n
  · simp [entryOr_in n cap mk k hk (hk.trans_le hcap), hk]
  · simp [entryOr_out n cap mk k (.inl (Nat.le_of_not_lt hk)), inOutputSet_unmapped, hk]

/-- The address ranges past the registers that a command may change. -/
theorem inOutputSpans_buffers (p : Params) (w : Word) (a : Nat) (h : 0x100 ≤ a) :
    inOutputSpans p w a = true ↔
      ((cmdOp w).toNat = 5 ∧ 0x1000 ≤ a ∧ a < 0x1000 + 4 * p.nPulse) ∨
      ((cmdOp w).toNat = 6 ∧ 0x8000 ≤ a ∧ a < 0x8000 + 4 * p.nEdge) ∨
      ((cmdOp w).toNat = 7 ∧ 0x4000 ≤ a ∧ a < 0x4000 + 128 * p.nResult) := by
  have hop := (cmdOp w).isLt
  unfold inOutputSpans
  generalize (cmdOp w).toNat = op at hop ⊢
  interval_cases op <;> simp [outputSpans] <;> omega

/-- In the register window the ranges do not depend on the buffers' sizes, and only the OP code decides. -/
theorem inOutputSpans_registers (p : Params) (w : Word) (a : Nat) (h : a < 0x100) :
    inOutputSpans p w a = inOutputSpans defaultParams (cmdWord (cmdOp w) 0) a := by
  have hcmd : ∀ op, cmdOp (cmdWord op 0) = op := by decide
  have hop := (cmdOp w).isLt
  rw [Bool.eq_iff_iff]
  unfold inOutputSpans
  rw [hcmd]
  generalize (cmdOp w).toNat = op at hop ⊢
  interval_cases op <;> simp [outputSpans] <;> omega

/-- A register is in a command's output set exactly when its address is in the command's ranges. -/
theorem inOutputSet_register (p : Params) (w : Word) (a : Nat) (h : a < 0x100) (h4 : a % 4 = 0) :
    inOutputSet (decodeCmd w) (regAt a) = inOutputSpans p w a := by
  have htable : ∀ op : BitVec 4, ∀ n < 64, inOutputSet (decodeCmd (cmdWord op 0)) (regAt (4 * n)) =
      inOutputSpans defaultParams (cmdWord op 0) (4 * n) := by decide
  have hentry := htable (cmdOp w) (a / 4) (by omega)
  rw [show 4 * (a / 4) = a by omega] at hentry
  rw [inOutputSet_decodeCmd, inOutputSpans_registers p w a h, hentry]

/-- The model's output sets are the spec's address ranges (45_control.md R355). -/
theorem inOutputSet_locateAt (p : Params) (w : Word) (a : Nat) (hp : legalParams p = true) (h4 : a % 4 = 0) :
    inOutputSet (decodeCmd w) (locateAt p a) = inOutputSpans p w a := by
  obtain ⟨hpulse, hsample, hedge, hresult⟩ := legalParams_bounds p hp
  have hwindows : a < 0x100 ∨ (0x100 ≤ a ∧ a < 0x1000) ∨ (0x1000 ≤ a ∧ a < 0x4000) ∨ (0x4000 ≤ a ∧ a < 0x8000) ∨
      (0x8000 ≤ a ∧ a < 0x10000) ∨ 0x10000 ≤ a := by omega
  rcases hwindows with h | ⟨hlo, hhi⟩ | ⟨hlo, hhi⟩ | ⟨hlo, hhi⟩ | ⟨hlo, hhi⟩ | hlo
  · rw [locateAt_regs p a h, inOutputSet_register p w a h h4]
  all_goals rw [Bool.eq_iff_iff, inOutputSpans_buffers p w a (by omega)]
  · rw [locateAt_between p a hlo hhi, inOutputSet_unmapped]
    simp only [Bool.false_eq_true, false_iff]
    omega
  · obtain ⟨hset, -⟩ := inOutputSet_buffer w ((a - 0x1000) / 4)
    rw [locateAt_pulseWindow p a hlo hhi, inOutputSet_entryOr _ _ _ _ _ hpulse, hset]
    omega
  · obtain ⟨-, hset, -⟩ := inOutputSet_buffer w ((a - 0x4000) / 4)
    rw [locateAt_resultWindow p a hlo hhi, inOutputSet_entryOr _ _ _ _ _ (by omega), hset]
    omega
  · obtain ⟨-, -, hset, -⟩ := inOutputSet_buffer w ((a - 0x8000) / 4)
    rw [locateAt_edgeWindow p a hlo hhi, inOutputSet_entryOr _ _ _ _ _ hedge, hset]
    omega
  · obtain ⟨-, -, -, hset⟩ := inOutputSet_buffer w ((a - 0x10000) / 4)
    rw [locateAt_sampleWindow p a hlo, inOutputSet_entryOr _ _ _ _ _ hsample, hset]
    simp only [Bool.false_eq_true, false_and, false_iff]
    omega

end Sys2Proof.Machine
end

section
/-! PROOFS. What a bus read returns (70_reset_and_hazards.md R411). -/

namespace Sys2Proof.Machine

/-- A read of an IDLE core, or outside the running command's output set, gives what the location holds. -/
theorem busRead_stands (a : Addr) (s : State)
    (h : s.engState = .idle ∨ inOutputSet (decodeCmd s.engCmd) (locate s.par a) = false) :
    busRead a s = locValue s (locate s.par a) := by
  rcases h with h | h
  · exact busRead_idle a s (busy_of_idle h)
  · exact busRead_outside a s h

/-- The table of register words lists word addresses of the register window. -/
theorem registerWords_addr (s : State) (p : Nat × Word) (hp : p ∈ registerWords s) : p.1 < 0x100 ∧ p.1 % 4 = 0 := by
  have hfst : (registerWords s).map Prod.fst = (registerWords State.reset).map Prod.fst := rfl
  have haddr : ∀ a ∈ (registerWords State.reset).map Prod.fst, a < 0x100 ∧ a % 4 = 0 := by decide
  exact haddr p.1 (hfst ▸ List.mem_map_of_mem hp)

/-- Every register holds the word of the table (10_state.md R31-R50). -/
theorem locValue_registerWords (s : State) (p : Nat × Word) (hp : p ∈ registerWords s) :
    locValue s (regAt p.1) = p.2 := by
  have hmap : (registerWords s).map (fun q => locValue s (regAt q.1)) = (registerWords s).map Prod.snd := by
    simp only [registerWords, ← ctrlWord_eq, ← crcWord_eq]
    rfl
  exact List.map_inj_left.mp hmap p hp

/-- A register reads its word of the table in an IDLE core and outside the running command's ranges. -/
theorem busRead_registerWords (s : State) (p : Nat × Word) (hp : p ∈ registerWords s)
    (h : s.engState = .idle ∨ inOutputSpans s.par s.engCmd p.1 = false) : busRead (BitVec.ofNat 20 p.1) s = p.2 := by
  obtain ⟨hlt, h4⟩ := registerWords_addr s p hp
  have hloc : locate s.par (BitVec.ofNat 20 p.1) = regAt p.1 := locate_register s.par p.1 hlt h4
  rw [← inOutputSet_register s.par s.engCmd p.1 hlt h4, ← hloc] at h
  rw [busRead_stands _ s h, hloc, locValue_registerWords s p hp]

/-- CTRL, CRC_DATA, the timing and Schmitt registers, MSG_TYPE, FIELD, the receive buffer and SAMPLE_CNT. -/
def hostRegisters : List Nat :=
  [0x004, 0x014, 0x020, 0x024, 0x028, 0x02C, 0x030, 0x034, 0x038, 0x040, 0x044, 0x048, 0x04C, 0x050, 0x054, 0x058,
   0x05C, 0x060, 0x080, 0x084, 0x088, 0x0C4]

/-- No command but SOFT_RESET has such a register in its output set (45_control.md R355). -/
theorem inOutputSpans_hostRegisters (p : Params) (w : Word) (a : Nat) (hw : cmdOp w ≠ 15) (ha : a ∈ hostRegisters) :
    inOutputSpans p w a = false := by
  have hlt : ∀ a ∈ hostRegisters, a < 0x100 := by decide
  have htable : ∀ op : BitVec 4, op ≠ 15 → ∀ a ∈ hostRegisters,
      inOutputSpans defaultParams (cmdWord op 0) a = false := by decide
  rw [inOutputSpans_registers p w a (hlt a ha)]
  exact htable (cmdOp w) hw a ha

/-- Settles O56: reads through `busRead_stands`, the output sets through `inOutputSet_locateAt`. -/
theorem busyReadsOutsideOutputSet : Obligations.BusyReadsOutsideOutputSet := by
  refine ⟨busRead_registerWords, ?_, ?_, ?_⟩
  · intro s a i hp h
    obtain ⟨hpulse, hsample, hedge, hresult⟩ := legalParams_bounds s.par hp
    rw [← inOutputSet_locateAt s.par s.engCmd _ hp (wordAddr_mod a)] at h
    have hread : busRead a s = locValue s (locateAt s.par (wordAddr a)) := busRead_stands a s h
    refine ⟨fun hi ha => ?_, fun hi ha => ?_, fun hi ha => ?_, fun hi ha => ?_⟩
    · rw [hread, ha, locateAt_pulse s.par i hi (by omega)]
      rfl
    · rw [hread, ha, locateAt_result s.par i hi (by omega)]
      rfl
    · rw [hread, ha, locateAt_edge s.par i hi (by omega)]
      rfl
    · rw [hread, ha, locateAt_sample s.par i hi (by omega)]
      exact sampleMask_toNat s.par _
  · intro p w a hp
    exact inOutputSet_locateAt p w _ hp (wordAddr_mod a)
  · intro s hop p hp ha
    exact busRead_registerWords s p hp (.inr (inOutputSpans_hostRegisters s.par s.engCmd p.1 hop ha))

end Sys2Proof.Machine
end

section
/-! PROOFS. The word address (20_memory.md R85), and the host's steps that are no acceptance (30_encoding.md R131). -/

namespace Sys2Proof.Machine

/-- Settles O48: a bus access uses its address only through the word address. -/
theorem lowAddressBitsIgnored : Obligations.LowAddressBitsIgnored := by
  refine ⟨fun _ => rfl, fun s a b v h => ?_⟩
  have hloc : locate s.par a = locate s.par b := congrArg (locateAt s.par) h
  unfold busRead busWrite
  rw [hloc, h]
  exact ⟨rfl, rfl⟩

/-! Each host operation at the head of the host's program. -/

theorem popHost_of_cons (s : State) (op : HostOp) (rest : List HostOp) (h : s.host = op :: rest) :
    popHost s = { s with host := rest } := by
  simp [popHost, h]

theorem hostOp_read_of_cons (s : State) (a : Addr) (rest : List HostOp) (h : s.host = .read a :: rest) :
    hostOp (.read a) s = { s with host := rest, reads := busRead a s :: s.reads, draws := s.draws + 1 } := by
  simp [hostOp, popHost, h]

theorem hostOp_write_of_cons (s : State) (a : Addr) (v : Word) (rest : List HostOp) (h : s.host = .write a v :: rest) :
    hostOp (.write a v) s = busWrite a v { s with host := rest } := by
  rw [hostOp, popHost_of_cons s _ rest h]

theorem hostOp_wait_busy (s : State) (hb : s.engState = .busy) : hostOp .wait s = s :=
  if_pos ((busy_iff s).mpr hb)

theorem hostOp_wait_of_cons (s : State) (rest : List HostOp) (h : s.host = .wait :: rest) (hi : s.engState = .idle) :
    hostOp .wait s = { s with host := rest } := by
  simp [hostOp, busy_of_idle hi, popHost, h]

/-- Driving a low `rst` low only passes the operation. -/
theorem hostOp_releaseRst_of_cons (s : State) (rest : List HostOp) (h : s.host = .rst false :: rest)
    (hr : s.rst = false) : hostOp (.rst false) s = { s with host := rest } := by
  simp [hostOp, popHost, h, hr]

/-- Settles O53: each step is the host's operation, the latency counted down while BUSY. -/
theorem readsChangeNothing : Obligations.ReadsChangeNothing := by
  refine ⟨?_, ?_, fun _ _ => rfl, ?_, ?_, ?_, ?_⟩
  · intro s a rest hhost hr hi
    rw [step_idle_host s _ rest hhost hr hi, hostOp_read_of_cons s a rest hhost]
  · intro s a rest hhost hr hb hk
    rw [step_busy_host s _ rest hhost hr hb hk, hostOp_read_of_cons { s with slack := s.slack - 1 } a rest hhost]
    rfl
  · intro s a v rest hhost hr
    refine ⟨fun hi => ?_, fun hb hk => ?_⟩
    · rw [step_idle_host s _ rest hhost hr hi, hostOp_write_of_cons s a v rest hhost]
    · rw [step_busy_host s _ rest hhost hr hb hk, hostOp_write_of_cons { s with slack := s.slack - 1 } a v rest hhost]
  · intro s rest hhost hr
    refine ⟨fun hi => ?_, fun hb hk => ?_⟩
    · rw [step_idle_host s _ rest hhost hr hi, hostOp_wait_of_cons s rest hhost hi]
    · rw [step_busy_host s _ rest hhost hr hb hk, hostOp_wait_busy { s with slack := s.slack - 1 } hb]
  · intro s rest hhost hr
    refine ⟨fun hi => ?_, fun hb hk => ?_⟩
    · rw [step_idle_host s _ rest hhost hr hi, hostOp_releaseRst_of_cons s rest hhost hr]
    · rw [step_busy_host s _ rest hhost hr hb hk,
        hostOp_releaseRst_of_cons { s with slack := s.slack - 1 } rest hhost hr]
  · intro s hhost hr hi
    rw [step_idle s hr (busy_of_idle hi), hostStep_nil s hhost]

end Sys2Proof.Machine
end

section
/-! PROOFS. A command in flight: the host steps before its completion leave what it computes on (45_control.md R351,
70_reset_and_hazards.md R416). -/

namespace Sys2Proof.Machine

/-- The core has the same command and operands in both states: registers, memory, parameters, ENG_STATE, ENG_CMD and
the level of `rst`. STATUS, the host and the counters may differ. -/
structure SameInputs (s u : State) : Prop where
  regs : u.regs = s.regs
  mem : u.mem = s.mem
  engState : u.engState = s.engState
  engCmd : u.engCmd = s.engCmd
  par : u.par = s.par
  rst : u.rst = s.rst

theorem SameInputs.refl (s : State) : SameInputs s s := ⟨rfl, rfl, rfl, rfl, rfl, rfl⟩

theorem SameInputs.trans {s t u : State} (h : SameInputs s t) (h' : SameInputs t u) : SameInputs s u :=
  ⟨h'.regs.trans h.regs, h'.mem.trans h.mem, h'.engState.trans h.engState, h'.engCmd.trans h.engCmd,
    h'.par.trans h.par, h'.rst.trans h.rst⟩

/-- A write while BUSY reaches DONE and WERR only (70_reset_and_hazards.md R410, R412). -/
theorem busWrite_busy_frame (a : Addr) (v : Word) (s : State) (hb : s.busy = true) :
    SameInputs s (busWrite a v s) ∧ (busWrite a v s).slack = s.slack := by
  rcases busWrite_cases a v s with ⟨-, hw⟩ | ⟨-, -, -, hw⟩ | ⟨-, -, -, hw⟩ | ⟨-, hidle, -⟩
  · rw [hw]; exact ⟨.refl s, rfl⟩
  · rw [hw]; exact ⟨⟨rfl, rfl, rfl, rfl, rfl, rfl⟩, rfl⟩
  · rw [hw]; exact ⟨⟨rfl, rfl, rfl, rfl, rfl, rfl⟩, rfl⟩
  · exact absurd (hidle.symm.trans hb) Bool.false_ne_true

/-- A host operation other than on `rst` leaves a running command's inputs and latency, and adds no operation. -/
theorem hostOp_busy_frame (op : HostOp) (s : State) (hb : s.busy = true) (hop : ∀ l, op ≠ .rst l) :
    SameInputs s (hostOp op s) ∧ (hostOp op s).slack = s.slack ∧ (hostOp op s).host ⊆ s.host := by
  have htail : s.host.tail ⊆ s.host := List.tail_subset s.host
  cases op with
  | write a v =>
    obtain ⟨hsame, hslack⟩ := busWrite_busy_frame a v (popHost s) hb
    obtain ⟨-, -, hhost, -⟩ := busWrite_outside a v (popHost s)
    have hpop : SameInputs s (popHost s) := ⟨rfl, rfl, rfl, rfl, rfl, rfl⟩
    exact ⟨hpop.trans hsame, hslack, hhost ▸ htail⟩
  | read a => exact ⟨⟨rfl, rfl, rfl, rfl, rfl, rfl⟩, rfl, htail⟩
  | wait =>
    rw [hostOp_wait_busy s ((busy_iff s).mp hb)]
    exact ⟨.refl s, rfl, List.Subset.refl _⟩
  | rst l => exact absurd rfl (hop l)

/-- From a BUSY core the engine's turn comes within `slack` host steps, on unchanged inputs. -/
theorem engineTurn_reached (n : Nat) (s : State) (hn : s.slack = n) (hr : s.rst = false) (hb : s.engState = .busy)
    (hhost : ∀ l, HostOp.rst l ∉ s.host) :
    ∃ (k : Nat) (u : State), k ≤ n ∧ Sys2Proof.core.run k s = .next u ∧ SameInputs s u ∧ engineTurn u = true := by
  have hbusy : s.busy = true := (busy_iff s).mpr hb
  induction n generalizing s with
  | zero => exact ⟨0, s, le_rfl, rfl, .refl s, (engineTurn_iff s).mpr ⟨hbusy, .inr hn⟩⟩
  | succ n ih =>
    cases hops : s.host with
    | nil => exact ⟨0, s, Nat.zero_le _, rfl, .refl s, (engineTurn_iff s).mpr ⟨hbusy, .inl hops⟩⟩
    | cons op rest =>
      have hop : ∀ l, op ≠ .rst l := fun l h => hhost l (hops ▸ h ▸ List.mem_cons_self)
      obtain ⟨hsame, hslack, hsub⟩ := hostOp_busy_frame op { s with slack := s.slack - 1 } hbusy hop
      have hstep := step_busy_host s op rest hops hr hb (by omega)
      have hcount : SameInputs s { s with slack := s.slack - 1 } := ⟨rfl, rfl, rfl, rfl, rfl, rfl⟩
      have hfirst := hcount.trans hsame
      have hb' := hfirst.engState.trans hb
      obtain ⟨k, u, hk, hrun, hrest, hturn⟩ := ih (hostOp op { s with slack := s.slack - 1 })
        (hslack.trans (show s.slack - 1 = n by omega)) (hfirst.rst.trans hr) hb'
        (fun l h => hhost l (hsub h)) ((busy_iff _).mpr hb')
      exact ⟨k + 1, u, by omega, (coreRun_next k s _ hstep).trans hrun, hfirst.trans hrest, hturn⟩

/-- Settles O47: by `engineTurn_reached`, the step at the engine's turn being the command's effect. -/
theorem commandsCompleteOnFrozenInputs : Obligations.CommandsCompleteOnFrozenInputs := by
  intro s hr hb hhost
  obtain ⟨k, u, hk, hrun, hsame, hturn⟩ := engineTurn_reached s.slack s rfl hr hb hhost
  refine ⟨k, u, hk, hrun, hsame.regs, hsame.mem, hsame.engState.trans hb, hsame.engCmd, hsame.par, ?_⟩
  have hfetch : fetch u = decodeCmd s.engCmd := congrArg decodeCmd hsame.engCmd
  rw [step_engine u (hsame.rst.trans hr) hturn, hfetch]

end Sys2Proof.Machine
end

section
/-! PROOFS. Unmapped words, and words that ignore a write (20_memory.md R82, R86). -/

namespace Sys2Proof.Machine

/-- The locations whose write an IDLE core ignores: read-only registers and memories, and unmapped words. -/
def Loc.ignoresWrites : Loc → Bool
  | .id | .crc | .txType | .txLen | .txBits | .rxType | .rxField _ | .pulseCnt | .resultCnt | .pulse _ | .result _
  | .unmapped => true
  | _ => false

theorem locWrite_ignored (v : Word) (s : State) (l : Loc) (h : l.ignoresWrites = true) : locWrite v s l = s := by
  cases l with
  | id | crc | txType | txLen | txBits | rxType | rxField | pulseCnt | resultCnt | pulse | result | unmapped => rfl
  | _ => cases h

/-- Held in reset or not, an IDLE core keeps its state under such a write. -/
theorem busWrite_ignored (a : Addr) (v : Word) (s : State) (hi : s.engState = .idle)
    (h : (locate s.par a).ignoresWrites = true) : busWrite a v s = s := by
  cases hr : s.rst with
  | true => exact busWrite_held a v s hr
  | false => rw [busWrite_idle a v s hr (busy_of_idle hi), locWrite_ignored v s _ h]

/-- The unassigned offsets of the register window. -/
theorem regAt_gap (a : Nat) (h : a < 0x100) (h4 : a % 4 = 0)
    (hgap : (0x018 ≤ a ∧ a < 0x020) ∨ (0x03C ≤ a ∧ a < 0x040) ∨ (0x064 ≤ a ∧ a < 0x070) ∨ (0x07C ≤ a ∧ a < 0x080) ∨
      (0x08C ≤ a ∧ a < 0x090) ∨ (0x0B4 ≤ a ∧ a < 0x0C0) ∨ 0x0D0 ≤ a) : regAt a = .unmapped := by
  have htable : ∀ n < 64, n ∈ [6, 7, 15, 25, 26, 27, 31, 35, 45, 46, 47] ∨ 52 ≤ n → regAt (4 * n) = .unmapped := by
    decide
  have hentry := htable (a / 4) (by omega)
  rw [show 4 * (a / 4) = a by omega] at hentry
  refine hentry ?_
  simp only [List.mem_cons, List.not_mem_nil, or_false]
  omega

/-- The spec's unmapped addresses reach nothing (20_memory.md R86). -/
theorem locateAt_unmappedAddr (p : Params) (a : Nat) (h4 : a % 4 = 0) (h : unmappedAddr p a) :
    locateAt p a = .unmapped := by
  unfold unmappedAddr at h
  have hwindows : a < 0x100 ∨ (0x100 ≤ a ∧ a < 0x1000) ∨ (0x1000 ≤ a ∧ a < 0x4000) ∨ (0x4000 ≤ a ∧ a < 0x8000) ∨
      (0x8000 ≤ a ∧ a < 0x10000) ∨ 0x10000 ≤ a := by omega
  rcases hwindows with hlt | ⟨hlo, hhi⟩ | ⟨hlo, hhi⟩ | ⟨hlo, hhi⟩ | ⟨hlo, hhi⟩ | hlo
  · rw [locateAt_regs p a hlt, regAt_gap a hlt h4 (by omega)]
  · exact locateAt_between p a hlo hhi
  · rw [locateAt_pulseWindow p a hlo hhi, entryOr_out _ _ _ _ (.inl (by omega))]
  · rw [locateAt_resultWindow p a hlo hhi, entryOr_out _ _ _ _ (.inl (by omega))]
  · rw [locateAt_edgeWindow p a hlo hhi, entryOr_out _ _ _ _ (.inl (by omega))]
  · rw [locateAt_sampleWindow p a hlo, entryOr_out _ _ _ _ (.inl (by omega))]

/-- The spec's read-only addresses reach locations that ignore writes (20_memory.md R82). -/
theorem locateAt_readOnlyAddr (p : Params) (a : Nat) (h : readOnlyAddr p a) :
    (locateAt p a).ignoresWrites = true := by
  rcases h with hreg | ⟨hlo, hn, hhi⟩ | ⟨hlo, hn, hhi⟩
  · have htable : ∀ a ∈ [0x000, 0x010, 0x070, 0x074, 0x078, 0x090, 0x094, 0x098, 0x09C, 0x0A0, 0x0A4, 0x0A8, 0x0AC,
        0x0B0, 0x0C0, 0x0CC], a < 0x100 ∧ (regAt a).ignoresWrites = true := by decide
    obtain ⟨hlt, hignored⟩ := htable a hreg
    rw [locateAt_regs p a hlt, hignored]
  · rw [locateAt_pulseWindow p a hlo (by omega), entryOr_in _ _ _ _ (by omega) (by omega)]
    rfl
  · rw [locateAt_resultWindow p a hlo (by omega), entryOr_in _ _ _ _ (by omega) (by omega)]
    rfl

/-- Settles O49: what the addresses reach, by `locateAt_unmappedAddr` and `locateAt_readOnlyAddr`; no command's output
set holds an unmapped word. -/
theorem unmappedAndReadOnlyWords : Obligations.UnmappedAndReadOnlyWords := by
  constructor
  · intro s a v h
    have hloc : locate s.par a = .unmapped := locateAt_unmappedAddr s.par _ (wordAddr_mod a) h
    refine ⟨?_, fun hi => busWrite_ignored a v s hi (by rw [hloc]; rfl)⟩
    rw [busRead_outside a s (by rw [hloc]; exact inOutputSet_unmapped _), hloc]
    rfl
  · intro s a v h hi
    exact busWrite_ignored a v s hi (locateAt_readOnlyAddr s.par _ h)

end Sys2Proof.Machine
end

section
/-! PROOFS. Register writes: read back, and every other word unchanged (20_memory.md R82, R89). -/

namespace Sys2Proof.Machine

/-- The bits a read/write register stores of a written word; none for every other location. -/
def Loc.storedMask : Loc → Option Word
  | .ctrl => some 0x3
  | .crcData | .tari | .blf | .samplePeriod | .rtTol | .trTol | .rxBits0 | .rxBits1 => some 0xFFFFFFFF
  | .schmittRatio | .schmittHyst | .field _ => some 0xFFFF
  | .msgType => some 0x7
  | .rxLen => some 0x7F
  | .sampleCnt => some 0x1FFFF
  | .edgeCnt => some 0x1FFF
  | _ => none

/-- Cutting a word to `n` bits and extending it again is masking it (00_scope.md R14). -/
theorem setWidth_setWidth_eq_and (v : Word) (n : Nat) (hn : n ≤ 32) :
    (v.setWidth n).setWidth 32 = v &&& BitVec.ofNat 32 (2 ^ n - 1) := by
  have hpow : 2 ^ n ≤ 2 ^ 32 := Nat.pow_le_pow_right (by decide) hn
  have hpos := Nat.two_pow_pos n
  have hmask : (2 ^ n - 1) % 2 ^ 32 = 2 ^ n - 1 := Nat.mod_eq_of_lt (by omega)
  have hcut : v.toNat % 2 ^ n % 2 ^ 32 = v.toNat % 2 ^ n := Nat.mod_eq_of_lt ((Nat.mod_lt _ hpos).trans_le hpow)
  apply BitVec.eq_of_toNat_eq
  rw [BitVec.toNat_setWidth, BitVec.toNat_setWidth, BitVec.toNat_and, BitVec.toNat_ofNat, hmask, hcut,
    Nat.and_two_pow_sub_one_eq_mod]

/-- CTRL reads back its two flags (10_state.md R32). -/
theorem ctrlWord_write (v : Word) (r : Regs) :
    ctrlWord { r with ie := v.getLsbD 0, trunc := v.getLsbD 1 } = v &&& 0x3#32 := by
  have hflags : ∀ w : BitVec 2,
      ((if w.getLsbD 0 then 1#32 else 0#32) ||| if w.getLsbD 1 then 2#32 else 0#32) = w.setWidth 32 := by decide
  have hbits := hflags (v.setWidth 2)
  rw [setWidth_setWidth_eq_and v 2 (by decide)] at hbits
  rw [ctrlWord_eq]
  simpa using hbits

/-- A stored register holds the written word's stored bits. -/
theorem locValue_locWrite_same (v : Word) (s : State) (l : Loc) (m : Word) (h : l.storedMask = some m) :
    locValue (locWrite v s l) l = v &&& m := by
  cases l with
  | ctrl =>
    cases h
    exact ctrlWord_write v s.regs
  | crcData | tari | blf | samplePeriod | rtTol | trTol | rxBits0 | rxBits1 =>
    cases h
    exact (BitVec.and_allOnes (x := v)).symm
  | schmittRatio | schmittHyst =>
    cases h
    exact setWidth_setWidth_eq_and v 16 (by decide)
  | field k =>
    cases h
    exact (congrArg (BitVec.setWidth 32) (slots_get_set_same s.regs.field k _)).trans
      (setWidth_setWidth_eq_and v 16 (by decide))
  | msgType =>
    cases h
    exact setWidth_setWidth_eq_and v 3 (by decide)
  | rxLen =>
    cases h
    exact setWidth_setWidth_eq_and v 7 (by decide)
  | sampleCnt =>
    cases h
    exact setWidth_setWidth_eq_and v 17 (by decide)
  | edgeCnt =>
    cases h
    exact setWidth_setWidth_eq_and v 13 (by decide)
  | _ => cases h

/-- A write to a stored register changes registers only. -/
theorem locWrite_stored_frame (v : Word) (s : State) (l : Loc) (h : l.storedMask.isSome = true) :
    locWrite v s l = { s with regs := (locWrite v s l).regs } := by
  cases l with
  | cmd | status | edge | sample => cases h
  | _ => rfl

/-- A write to a stored register changes the word of no other location. -/
theorem locValue_locWrite_other (v : Word) (s : State) (l l' : Loc) (h : l.storedMask.isSome = true) (hne : l' ≠ l) :
    locValue (locWrite v s l) l' = locValue s l' := by
  cases l with
  | cmd | status | edge | sample => cases h
  | field k =>
    cases l' with
    | field j =>
      have hj : j ≠ k := fun hjk => hne (congrArg Loc.field hjk)
      exact congrArg (BitVec.setWidth 32) (slots_get_set_other s.regs.field k j _ hj)
    | _ => rfl
  | _ => cases l' <;> first | exact absurd rfl hne | rfl

/-- The registers of the spec's table stand at their addresses, with the table's masks. -/
theorem storedBits_regAt (p : Nat × Nat) (hp : p ∈ storedBits) :
    p.1 < 0x100 ∧ p.1 % 4 = 0 ∧ regAt p.1 ≠ .unmapped ∧ (regAt p.1).storedMask = some (BitVec.ofNat 32 p.2) := by
  have htable : ∀ p ∈ storedBits, p.1 < 0x100 ∧ p.1 % 4 = 0 ∧ regAt p.1 ≠ .unmapped ∧
      (regAt p.1).storedMask = some (BitVec.ofNat 32 p.2) := by decide
  exact htable p hp

/-- Settles O50: the address reaches a stored register, and no other word address reaches the same one. -/
theorem registerWritesReadBack : Obligations.RegisterWritesReadBack := by
  rintro s v hr hi p hp t rfl
  obtain ⟨hlt, h4, hmapped, hmask⟩ := storedBits_regAt p hp
  have hstored : (regAt p.1).storedMask.isSome = true := by rw [hmask]; rfl
  have hloc : ∀ q, locate q (BitVec.ofNat 20 p.1) = regAt p.1 := fun q => locate_register q p.1 hlt h4
  have hwrite : busWrite (BitVec.ofNat 20 p.1) v s = locWrite v s (regAt p.1) := by
    rw [busWrite_idle _ v s hr (busy_of_idle hi), hloc]
  have hframe := locWrite_stored_frame v s (regAt p.1) hstored
  have hbusy : (locWrite v s (regAt p.1)).busy = false := by rw [hframe]; exact busy_of_idle hi
  have hpar : (locWrite v s (regAt p.1)).par = s.par := by rw [hframe]
  rw [hwrite]
  refine ⟨?_, hframe, fun b hb => ?_⟩
  · rw [busRead_idle _ _ hbusy, hloc, locValue_locWrite_same v s _ _ hmask]
  · have hother : locate s.par b ≠ regAt p.1 := fun h =>
      hb (locateAt_register_inj s.par p.1 _ hlt h4 (wordAddr_mod b) h hmapped)
    rw [busRead_idle b _ hbusy, hpar, busRead_idle b s (busy_of_idle hi),
      locValue_locWrite_other v s _ _ hstored hother]

end Sys2Proof.Machine
end

section
/-! PROOFS. The same word written twice (20_memory.md R82). -/

namespace Sys2Proof.Machine

/-! The memory: the last write of a byte stands, and writes of different bytes commute, on every list. -/

theorem writeByte_writeByte_same (m : Memory) (a : Nat) (b c : Byte) :
    writeByte (writeByte m a b) a c = writeByte m a c := by
  induction m with
  | nil => simp [writeByte]
  | cons cell rest ih =>
    obtain ⟨k, x⟩ := cell
    by_cases hlt : a < k
    · simp [writeByte, hlt]
    · by_cases heq : a = k
      · simp [writeByte, heq]
      · simp [writeByte, hlt, heq, ih]

theorem writeByte_comm (m : Memory) (a a' : Nat) (b b' : Byte) (h : a < a') :
    writeByte (writeByte m a b) a' b' = writeByte (writeByte m a' b') a b := by
  have hnot : ¬a' < a := by omega
  have hne : a' ≠ a := by omega
  induction m with
  | nil => simp [writeByte, h, hnot, hne]
  | cons cell rest ih =>
    obtain ⟨k, x⟩ := cell
    rcases Nat.lt_trichotomy a k with hlt | rfl | hgt
    · rcases Nat.lt_trichotomy a' k with hlt' | rfl | hgt'
      · simp [writeByte, hlt, hlt', h, hnot, hne]
      · simp [writeByte, h, hnot, hne]
      · simp [writeByte, hlt, hnot, hne, hgt'.ne', hgt'.not_gt]
    · simp [writeByte, hnot, hne]
    · have hgt' : k < a' := by omega
      simp [writeByte, hgt.ne', hgt.not_gt, hgt'.ne', hgt'.not_gt, ih]

/-- The last write of a word stands. -/
theorem wordWrite_wordWrite_same (m : Memory) (a : Nat) (v w : Word) :
    wordWrite (wordWrite m a v) a w = wordWrite m a w := by
  simp only [wordWrite]
  rw [← writeByte_comm _ a (a + 3) _ _ (by omega), ← writeByte_comm _ a (a + 2) _ _ (by omega),
    ← writeByte_comm _ a (a + 1) _ _ (by omega), writeByte_writeByte_same,
    ← writeByte_comm _ (a + 1) (a + 3) _ _ (by omega), ← writeByte_comm _ (a + 1) (a + 2) _ _ (by omega),
    writeByte_writeByte_same, ← writeByte_comm _ (a + 2) (a + 3) _ _ (by omega), writeByte_writeByte_same,
    writeByte_writeByte_same]

/-! The locations. -/

theorem slots_set_set (v : Slots) (k : Fin 8) (c d : Code) : (v.set k c).set k d = v.set k d := by
  fin_cases k <;> rfl

theorem writeStatus_writeStatus (v : Word) (s : State) : writeStatus v (writeStatus v s) = writeStatus v s := by
  simp [writeStatus]

/-- A second write of the same word to a location other than CMD changes nothing. -/
theorem locWrite_locWrite (v : Word) (s : State) (l : Loc) (h : l ≠ .cmd) :
    locWrite v (locWrite v s l) l = locWrite v s l := by
  cases l with
  | cmd => exact absurd rfl h
  | status => exact writeStatus_writeStatus v s
  | field k =>
    exact congrArg (fun f : Slots => ({ s with regs := { s.regs with field := f } } : State))
      (slots_set_set s.regs.field k _ _)
  | edge i =>
    exact congrArg (fun m => ({ s with mem := m } : State)) (wordWrite_wordWrite_same s.mem _ _ _)
  | sample i =>
    exact congrArg (fun m => ({ s with mem := m } : State)) (wordWrite_wordWrite_same s.mem _ _ _)
  | _ => rfl

/-- Only an acceptance changes ENG_STATE. -/
theorem locWrite_busy (v : Word) (s : State) (l : Loc) (h : l ≠ .cmd) : (locWrite v s l).busy = s.busy := by
  rcases locWrite_cases v s l with ⟨hl, -⟩ | ⟨-, hw⟩ | ⟨i, -, hw⟩ | ⟨i, -, hw⟩ | ⟨r, hw, -⟩
  · exact absurd hl h
  all_goals
    rw [hw]
    rfl

/-- Only the word at 0x008 is CMD (10_state.md R33). -/
theorem locate_ne_cmd (p : Params) (a : Addr) (h : wordAddr a ≠ 0x008) : locate p a ≠ .cmd := fun hl =>
  h (locateAt_register_inj p 0x008 _ (by decide) (by decide) (wordAddr_mod a) hl nofun)

/-- Settles O52: in each case of the first write the second one is the same case, and repeats it. -/
theorem writesAreIdempotent : Obligations.WritesAreIdempotent := by
  intro s a v ha
  have hcmd := locate_ne_cmd s.par a ha
  rcases busWrite_cases a v s with ⟨hr, hw⟩ | ⟨hr, hb, hloc, hw⟩ | ⟨hr, hb, hloc, hw⟩ | ⟨hr, hb, hw⟩
  · rw [hw, hw]
  · rw [hw, busWrite_busy_status a v (writeStatus v s) hr hb hloc, writeStatus_writeStatus]
  · rw [hw, busWrite_busy_other a v { s with werr := true } hr hb hloc]
  · obtain ⟨hpar, hrst, -⟩ := locWrite_outside v s (locate s.par a)
    rw [hw, busWrite_idle a v _ (hrst.trans hr) ((locWrite_busy v s _ hcmd).trans hb), hpar,
      locWrite_locWrite v s _ hcmd]

end Sys2Proof.Machine
end

section
/-! PROOFS. The elements of a sequence, of a packed word and of a register (00_scope.md R13, 30_encoding.md R104). -/

namespace Sys2Proof.Machine

/-- Element `j` is the bit of the sequence's value that has as many bits below it as elements follow. -/
theorem uint_testBit (s : Bits) (j : Nat) (h : j < s.length) : (uint s).testBit (s.length - 1 - j) = s[j] := by
  have hsplit : s = s.take j ++ s[j] :: s.drop (j + 1) := by simp
  have hrest : (s.drop (j + 1)).length = s.length - 1 - j := by
    rw [List.length_drop]
    omega
  have hvalue : uint s = (uint (s.take j) * 2 + s[j].toNat) * 2 ^ (s.length - 1 - j) + uint (s.drop (j + 1)) := by
    conv_lhs => rw [hsplit, uint_append, uint_cons, List.length_cons, hrest]
    ring
  have hlow : uint (s.drop (j + 1)) < 2 ^ (s.length - 1 - j) := hrest ▸ uint_lt _
  rw [hvalue, Nat.testBit_eq_decide_div_mod_eq, Nat.mul_comm, Nat.mul_add_div (Nat.two_pow_pos _),
    Nat.div_eq_of_lt hlow]
  cases s[j] <;> simp

/-- Writing out a sequence's value at its own length gives the sequence back. -/
theorem bitsOf_uint (s : Bits) : bitsOf s.length (uint s) = s := by
  refine List.ext_getElem (bitsOf_length _ _) fun j _ hj => ?_
  rw [bitsOf_getElem, ← uint_testBit s j hj, Nat.testBit_eq_decide_div_mod_eq, beq_eq_decide]

/-- Element `j` of a register read out element 0 first is bit `w - 1 - j`. -/
theorem bitsOf_toNat_getElem? {w : Nat} (r : BitVec w) (j : Nat) (h : j < w) :
    (bitsOf w r.toNat)[j]? = some (r.getLsbD (w - 1 - j)) := by
  have hj : j < (bitsOf w r.toNat).length := by rwa [bitsOf_length]
  rw [List.getElem?_eq_getElem hj, bitsOf_getElem, BitVec.getLsbD, Nat.testBit_eq_decide_div_mod_eq, beq_eq_decide]

/-- Element `j` of a word is bit `31 - j` (30_encoding.md R104). -/
theorem unpackWord_getElem? (w : Word) (j : Nat) (h : j < 32) : (unpackWord w)[j]? = some (w.getLsbD (31 - j)) :=
  bitsOf_toNat_getElem? w j h

/-- The first of two words holds elements 0 to 31. -/
theorem unpackPair_getElem?_first (w0 w1 : Word) (j : Nat) (h : j < 32) :
    (unpackPair w0 w1)[j]? = some (w0.getLsbD (31 - j)) := by
  rw [unpackPair, List.getElem?_append_left (by simpa using h), unpackWord_getElem? w0 j h]

/-- The second of two words holds elements 32 to 63. -/
theorem unpackPair_getElem?_second (w0 w1 : Word) (j : Nat) (h : j < 32) :
    (unpackPair w0 w1)[32 + j]? = some (w1.getLsbD (31 - j)) := by
  rw [unpackPair, List.getElem?_append_right (by simp), unpackWord_length, Nat.add_sub_cancel_left,
    unpackWord_getElem? w1 j h]

@[simp] theorem unpackPair_length (w0 w1 : Word) : (unpackPair w0 w1).length = 64 := by
  simp [unpackPair]

/-- A packed word holds element `j` at bit `31 - j`, and 0 past the sequence's length (30_encoding.md R104). -/
theorem packWord_getLsbD (s : Bits) (j : Nat) (h : j < 32) : (packWord s).getLsbD (31 - j) = s.getD j false := by
  have hlen : (s.take 32 ++ List.replicate (32 - s.length) false).length = 32 := by
    simp only [List.length_append, List.length_take, List.length_replicate]
    omega
  have hbit := uint_testBit (s.take 32 ++ List.replicate (32 - s.length) false) j (by omega)
  simp only [hlen] at hbit
  rw [BitVec.getLsbD, packWord_toNat, hbit]
  by_cases hj : j < s.length
  · rw [List.getElem_append_left (by rw [List.length_take]; omega), List.getElem_take, List.getD_eq_getElem s false hj]
  · rw [List.getElem_append_right (by rw [List.length_take]; omega), List.getElem_replicate,
      List.getD_eq_default s false (Nat.le_of_not_lt hj)]

/-- Elements 32 to 63 of a sequence stand in the second word of its pair. -/
theorem packWord_drop_getLsbD (s : Bits) (j : Nat) (h : j < 32) :
    (packWord (s.drop 32)).getLsbD (31 - j) = s.getD (32 + j) false := by
  rw [packWord_getLsbD _ j h, List.getD_eq_getElem?_getD, List.getElem?_drop, List.getD_eq_getElem?_getD]

/-- The pair that a sequence is packed into reads as its elements, 0 past its length. -/
theorem unpackPair_packWord_getElem? (s : Bits) (j : Nat) (h : j < 64) :
    (unpackPair (packWord s) (packWord (s.drop 32)))[j]? = some (s.getD j false) := by
  by_cases hj : j < 32
  · rw [unpackPair_getElem?_first _ _ j hj, packWord_getLsbD s j hj]
  · obtain ⟨i, rfl⟩ := Nat.exists_eq_add_of_le (Nat.le_of_not_lt hj)
    rw [unpackPair_getElem?_second _ _ i (by omega), packWord_drop_getLsbD s i (by omega)]

/-- Packing at most 64 elements loses none of them. -/
theorem unpackPair_packWord_take (s : Bits) (h : s.length ≤ 64) :
    (unpackPair (packWord s) (packWord (s.drop 32))).take s.length = s := by
  refine List.ext_getElem? fun j => ?_
  by_cases hj : j < s.length
  · rw [List.getElem?_take_of_lt hj, unpackPair_packWord_getElem? s j (by omega), List.getD_eq_getElem s false hj,
      List.getElem?_eq_getElem hj]
  · rw [List.getElem?_eq_none (by rw [List.length_take]; omega), List.getElem?_eq_none (by omega)]

/-- Settles O13, from the place of one element in a packed word, in an unpacked one and in CRC_REG. -/
theorem packingPlacesElements : Obligations.PackingPlacesElements := by
  refine ⟨fun s j _ hj => ⟨packWord_getLsbD s j hj, packWord_drop_getLsbD s j hj⟩, unpackPair_packWord_take,
    fun w0 w1 j hj => ⟨unpackPair_getElem?_first w0 w1 j hj, unpackPair_getElem?_second w0 w1 j hj⟩,
    fun r n => ⟨List.length_take_le _ _, List.length_take_le _ _⟩, fun r j hj => ?_, rfl⟩
  rw [crcBits, List.getD_eq_getElem?_getD, bitsOf_toNat_getElem? r j hj, Option.getD_some]

end Sys2Proof.Machine
end

section
/-! PROOFS. Dispatch: no opcode begins another, and a parse reads the declared width alone (42_message_mux.md R203,
R206). -/

namespace Sys2Proof.Machine

/-- No opcode begins another type's opcode (30_encoding.md R105). -/
theorem opcode_prefix_free (t u : MsgType) (h : t.opcode <+: u.opcode) : t = u := by
  revert h
  cases t <;> cases u <;> decide

theorem opens_iff (t : MsgType) (s : Bits) : t.opens s = true ↔ t.opcode <+: s := by
  rw [MsgType.opens, beq_iff_eq, List.prefix_iff_eq_take, eq_comm]

/-- At most one type's opcode opens a sequence: of two opcodes that begin it, one begins the other. -/
theorem opens_unique (s : Bits) (t u : MsgType) (ht : t.opens s = true) (hu : u.opens s = true) : t = u := by
  rw [opens_iff] at ht hu
  rcases List.prefix_or_prefix_of_prefix ht hu with h | h
  · exact opcode_prefix_free t u h
  · exact (opcode_prefix_free u t h).symm

/-- Bits appended to a sequence leave its opcode. -/
theorem opens_append (t : MsgType) (s x : Bits) (h : t.opens s = true) : t.opens (s ++ x) = true := by
  rw [opens_iff] at h ⊢
  exact h.trans (List.prefix_append s x)

theorem mem_registry (t : MsgType) : t ∈ registry := by
  cases t <;> decide

/-- Among candidates that include it, the type whose opcode opens the sequence is parsed. -/
theorem dispatchIn_of_opens (ts : List MsgType) (s : Bits) (t : MsgType) (h : t.opens s = true) (ht : t ∈ ts) :
    dispatchIn ts s = parseAs t s := by
  induction ts with
  | nil => cases ht
  | cons u us ih =>
    by_cases hu : u.opens s = true
    · cases opens_unique s t u h hu
      simp [dispatchIn, hu]
    · have hmem : t ∈ us := List.mem_of_ne_of_mem (by rintro rfl; exact hu h) ht
      simpa [dispatchIn, hu] using ih hmem

/-- Candidates none of which opens the sequence are exhausted (42_message_mux.md R206). -/
theorem dispatchIn_of_not_opens (ts : List MsgType) (s : Bits) (h : ∀ t : MsgType, t.opens s = false) :
    dispatchIn ts s = .error .notFound := by
  induction ts with
  | nil => rfl
  | cons u us ih => simpa [dispatchIn, h u] using ih

/-- Dispatch parses as the type whose opcode opens the sequence. -/
theorem dispatch_of_opens (s : Bits) (t : MsgType) (h : t.opens s = true) : dispatch s = parseAs t s :=
  dispatchIn_of_opens registry s t h (mem_registry t)

theorem parseAs_of_short (t : MsgType) (s : Bits) (h : s.length < t.nBits) : parseAs t s = .error .sizeMismatch :=
  if_pos h

/-- A parse of a sequence long enough is the parse of its fields. -/
theorem parseAs_of_long (t : MsgType) (s : Bits) (h : t.nBits ≤ s.length) :
    parseAs t s = (parseFields (t.opcodeField :: t.fields) s).map fun vals => (t, Slots.ofList vals.tail) := by
  rw [parseAs, if_neg (Nat.not_lt.mpr h)]
  cases parseFields (t.opcodeField :: t.fields) s <;> rfl

/-- Fields read from a sequence that holds them all do not depend on what follows. -/
theorem parseFields_append (cs : List Codec) (s x : Bits) (h : (cs.map Codec.width).sum ≤ s.length) :
    parseFields cs (s ++ x) = parseFields cs s := by
  induction cs generalizing s with
  | nil => rfl
  | cons c cs ih =>
    rw [List.map_cons, List.sum_cons] at h
    have hrest : (cs.map Codec.width).sum ≤ (s.drop c.width).length := by
      rw [List.length_drop]
      omega
    rw [parseFields, parseFields, List.take_append_of_le_length (by omega), List.drop_append_of_le_length (by omega),
      ih _ hrest]

/-- A parse ignores the bits past the declared width (42_message_mux.md R203). -/
theorem parseAs_append (t : MsgType) (s x : Bits) (h : t.nBits ≤ s.length) : parseAs t (s ++ x) = parseAs t s := by
  have hlong : t.nBits ≤ (s ++ x).length := by
    rw [List.length_append]
    omega
  have hwidths : ((t.opcodeField :: t.fields).map Codec.width).sum ≤ s.length := h
  rw [parseAs_of_long t s h, parseAs_of_long t (s ++ x) hlong, parseFields_append _ s x hwidths]

/-- Settles O12: no opcode begins another, so dispatch is the parse as the one type that opens the sequence. -/
theorem dispatchUsesLeadingBits : Obligations.DispatchUsesLeadingBits := by
  refine ⟨opens_unique, fun s t ht hlen => ?_, fun s x t ht hlen => ?_, dispatchIn_of_not_opens registry⟩
  · rw [dispatch_of_opens s t ht, parseAs_of_short t s hlen]
  · rw [dispatch_of_opens s t ht, dispatch_of_opens (s ++ x) t (opens_append t s x ht), parseAs_append t s x hlen]

end Sys2Proof.Machine
end

section
/-! PROOFS. The round trip of the message encoding: fields, messages, dispatch (40_bitfield.md R152, 42_message_mux.md
R212). -/

namespace Sys2Proof.Machine

/-- The codecs that lose no code: a Value no wider than a slot, a LookUp whose patterns differ (40_bitfield.md R145). A
Constant reads back its own code, whatever it was given (R151). -/
def Codec.lossless : Codec → Bool
  | .value n => decide (n ≤ 16)
  | .lookUp _ table => decide (table.map Prod.snd).Nodup
  | .constant _ _ => false

theorem fields_lossless (t : MsgType) : ∀ c ∈ t.fields, c.lossless = true := by
  cases t <;> decide

/-- In a table whose patterns differ, the pattern of a code gives the code back. -/
theorem findCode_of_findPattern (c : Code) (table : List (Code × Bits)) (p : Bits) (hd : (table.map Prod.snd).Nodup)
    (h : findPattern c table = .ok p) : findCode p table = .ok c := by
  induction table with
  | nil => cases h
  | cons entry rest ih =>
    obtain ⟨k, q⟩ := entry
    obtain ⟨hq, hrest⟩ := List.nodup_cons.mp hd
    simp only [findPattern] at h
    split at h
    · rename_i hk
      cases h
      simp [findCode, hk]
    · have hne : q ≠ p := by
        rintro rfl
        obtain ⟨j, hj⟩ := mem_of_findPattern c rest q h
        exact hq (List.mem_map.mpr ⟨(j, q), hj, rfl⟩)
      simpa [findCode, hne] using ih hrest h

/-- A field that loses no code reads back the code it wrote (40_bitfield.md R152). -/
theorem codec_fromBits_toBits (c : Codec) (v : Code) (b : Bits) (hc : c.lossless = true) (h : c.toBits v = .ok b) :
    c.fromBits b = .ok v := by
  cases c with
  | value n =>
    simp only [Codec.toBits] at h
    split at h
    · cases h
    · rename_i hv
      cases h
      rw [Codec.fromBits, uint_bitsOf n _ (by omega), BitVec.ofNat_toNat, BitVec.setWidth_eq]
  | lookUp n table => exact findCode_of_findPattern v table b (of_decide_eq_true hc) h
  | constant p code => cases hc

/-- The encoding of fields, field by field. -/
theorem encodeFields_cons_ok_iff (c : Codec) (cs : List Codec) (v : Code) (vs : List Code) (b : Bits) :
    encodeFields (c :: cs) (v :: vs) = .ok b ↔
      ∃ b₁ b₂, c.toBits v = .ok b₁ ∧ encodeFields cs vs = .ok b₂ ∧ b = b₁ ++ b₂ := by
  simp only [encodeFields, List.headD_cons, List.tail_cons]
  cases c.toBits v with
  | error e => simp
  | ok b₁ =>
    cases encodeFields cs vs with
    | error e => simp
    | ok b₂ => simp [eq_comm]

/-- The fields of an encoding, whatever follows it, are the codes encoded. -/
theorem parseFields_encodeFields (cs : List Codec) (vs : List Code) (b r : Bits)
    (hc : ∀ c ∈ cs, c.uniform = true ∧ c.lossless = true) (hlen : cs.length ≤ vs.length)
    (h : encodeFields cs vs = .ok b) : parseFields cs (b ++ r) = .ok (vs.take cs.length) := by
  induction cs generalizing vs b with
  | nil => rfl
  | cons c cs ih =>
    obtain _ | ⟨v, vs⟩ := vs
    · cases hlen
    · obtain ⟨b₁, b₂, h₁, h₂, rfl⟩ := (encodeFields_cons_ok_iff c cs v vs b).mp h
      obtain ⟨huniform, hlossless⟩ := hc c List.mem_cons_self
      have hwidth : b₁.length = c.width := codec_toBits_length c v b₁ huniform h₁
      have hhead : c.fromBits b₁ = .ok v := codec_fromBits_toBits c v b₁ hlossless h₁
      have hrest := ih vs b₂ (fun d hd => hc d (List.mem_cons_of_mem _ hd)) (Nat.le_of_succ_le_succ hlen) h₂
      simp only [parseFields, List.append_assoc, List.take_left' hwidth, List.drop_left' hwidth, hhead, hrest,
        List.length_cons, List.take_succ_cons]

/-- The opcode in front of a message's fields is read as the type's code (40_bitfield.md R151). -/
theorem parseFields_opcode (t : MsgType) (s : Bits) :
    parseFields (t.opcodeField :: t.fields) (t.opcode ++ s) =
      (parseFields t.fields s).map (BitVec.ofNat 16 t.code :: ·) := by
  simp only [parseFields, MsgType.opcodeField, Codec.width, Codec.fromBits, List.take_left, List.drop_left, if_true]
  cases parseFields t.fields s <;> rfl

/-- A message's sequence is its opcode, its fields' bits, and the checksum of both where the type has one
(42_message_mux.md R202). -/
theorem toBits_ok_iff (t : MsgType) (v : Slots) (s : Bits) :
    toBits t v = .ok s ↔ ∃ b, encodeFields t.fields v.toList = .ok b ∧
      s = t.opcode ++ b ++ if t.hasCheck then crc5 (t.opcode ++ b) else [] := by
  simp only [toBits, encodeFields, MsgType.opcodeField, Codec.toBits, List.headD_cons, List.tail_cons]
  cases encodeFields t.fields v.toList with
  | error e => simp
  | ok b => cases t.hasCheck <;> simp [eq_comm]

/-- Dispatching an assembled message gives its type and the field codes of its slots (42_message_mux.md R212). -/
theorem dispatch_toBits (t : MsgType) (v : Slots) (s : Bits) (h : toBits t v = .ok s) :
    dispatch s = .ok (t, Slots.ofList (v.toList.take t.fields.length)) := by
  obtain ⟨r, hr⟩ := toBits_begins t v s h
  have hopens : t.opens s = true := (opens_iff t s).mpr ⟨r, hr.symm⟩
  have hlong : t.nBits ≤ s.length := by
    rw [toBits_length t v s h]
    exact Nat.le_add_right _ _
  obtain ⟨b, hb, rfl⟩ := (toBits_ok_iff t v s).mp h
  have hcodecs : ∀ c ∈ t.fields, c.uniform = true ∧ c.lossless = true := fun c hc =>
    ⟨fields_uniform t c (List.mem_cons_of_mem _ hc), fields_lossless t c hc⟩
  have hslots : t.fields.length ≤ v.toList.length := by
    cases t <;> simp [MsgType.fields, Slots.toList]
  rw [dispatch_of_opens _ t hopens, parseAs_of_long t _ hlong, List.append_assoc, parseFields_opcode,
    parseFields_encodeFields _ _ b _ hcodecs hslots hb]
  rfl

/-- An instruction is made of its type's own slots alone. -/
theorem ofMessage_ofList_take (t : MsgType) (v : Slots) :
    Instr.ofMessage t (Slots.ofList (v.toList.take t.fields.length)) = Instr.ofMessage t v := by
  cases t <;> rfl

theorem decodeMsg_toBits (t : MsgType) (v : Slots) (s : Bits) (h : toBits t v = .ok s) :
    decodeMsg s = .ok (Instr.ofMessage t v) := by
  rw [decodeMsg, dispatch_toBits t v s h]
  exact congrArg Except.ok (ofMessage_ofList_take t v)

end Sys2Proof.Machine
end

section
/-! PROOFS. Which messages have an encoding, and which errors the others raise (40_bitfield.md R141, R146). -/

namespace Sys2Proof.Machine

/-- A Value holds the codes of its width (40_bitfield.md R141). -/
theorem value_encodes_iff (n : Nat) (v : Code) : (∃ b, (Codec.value n).toBits v = .ok b) ↔ v.toNat < 2 ^ n := by
  by_cases h : 2 ^ n ≤ v.toNat
  · simp [Codec.toBits, h]
  · simp [Codec.toBits, h, Nat.lt_of_not_le h]

/-- A LookUp holds the codes of its table (40_bitfield.md R146). -/
theorem lookUp_encodes_iff (n : Nat) (table : List (Code × Bits)) (v : Code) :
    (∃ b, (Codec.lookUp n table).toBits v = .ok b) ↔ v ∈ table.map Prod.fst := by
  simp only [Codec.toBits]
  induction table with
  | nil => simp [findPattern]
  | cons entry rest ih =>
    by_cases h : entry.1 = v
    · simp [findPattern, h]
    · simpa [findPattern, h, Ne.symm h] using ih

/-- Fields have an encoding if each of them has. -/
theorem encodeFields_encodes_cons_iff (c : Codec) (cs : List Codec) (v : Code) (vs : List Code) :
    (∃ b, encodeFields (c :: cs) (v :: vs) = .ok b) ↔
      (∃ b, c.toBits v = .ok b) ∧ ∃ b, encodeFields cs vs = .ok b := by
  simp only [encodeFields_cons_ok_iff]
  exact ⟨fun ⟨_, b₁, b₂, h₁, h₂, _⟩ => ⟨⟨b₁, h₁⟩, b₂, h₂⟩, fun ⟨⟨b₁, h₁⟩, b₂, h₂⟩ => ⟨_, b₁, b₂, h₁, h₂, rfl⟩⟩

/-- A message has an encoding if its fields have: the opcode and the checksum never fail. -/
theorem toBits_encodes_iff (t : MsgType) (v : Slots) :
    (∃ s, toBits t v = .ok s) ↔ ∃ b, encodeFields t.fields v.toList = .ok b := by
  simp only [toBits_ok_iff]
  exact ⟨fun ⟨_, b, hb, _⟩ => ⟨b, hb⟩, fun ⟨b, hb⟩ => ⟨_, b, hb, rfl⟩⟩

/-! The domain of each field (30_encoding.md R109-R116) against its codec. -/

theorem drField_encodes_iff (v : Code) : (∃ b, drField.toBits v = .ok b) ↔ drOk v = true := by
  simp only [drField, lookUp_encodes_iff, List.map_cons, List.map_nil, List.mem_cons, List.not_mem_nil, or_false,
    drOk, decide_eq_true_iff]
  bv_omega

theorem mField_encodes_iff (v : Code) : (∃ b, mField.toBits v = .ok b) ↔ mOk v = true := by
  simp [mField, lookUp_encodes_iff, mOk, ← BitVec.toNat_inj, or_assoc]

theorem selField_encodes_iff (v : Code) : (∃ b, selField.toBits v = .ok b) ↔ selOk v = true := by
  simp only [selField, lookUp_encodes_iff, List.map_cons, List.map_nil, List.mem_cons, List.not_mem_nil, or_false,
    selOk, decide_eq_true_iff]
  bv_omega

theorem updnField_encodes_iff (v : Code) : (∃ b, updnField.toBits v = .ok b) ↔ updnOk v = true := by
  simp only [updnField, lookUp_encodes_iff, List.map_cons, List.map_nil, List.mem_cons, List.not_mem_nil, or_false,
    updnOk, decide_eq_true_iff]
  bv_omega

theorem sessionField_encodes_iff (v : Code) : (∃ b, sessionField.toBits v = .ok b) ↔ sessionOk v = true := by
  simp [sessionField, value_encodes_iff, sessionOk]

theorem qField_encodes_iff (v : Code) : (∃ b, qField.toBits v = .ok b) ↔ qOk v = true := by
  simp [qField, value_encodes_iff, qOk]

/-- RN16 takes every code (30_encoding.md R116). -/
theorem rn16Field_encodes (v : Code) : ∃ b, rn16Field.toBits v = .ok b :=
  (value_encodes_iff 16 v).mpr v.isLt

/-- TRext has DR's table (30_encoding.md R109, R111). -/
theorem trextField_encodes_iff (v : Code) : (∃ b, trextField.toBits v = .ok b) ↔ trextOk v = true :=
  drField_encodes_iff v

/-- Target has DR's table (30_encoding.md R109, R114). -/
theorem targetField_encodes_iff (v : Code) : (∃ b, targetField.toBits v = .ok b) ↔ targetOk v = true :=
  drField_encodes_iff v

theorem encodeFields_nil_encodes (vs : List Code) : ∃ b, encodeFields [] vs = .ok b := ⟨[], rfl⟩

/-- The well-formed messages are those with an encoding. -/
theorem ofMessage_wellFormed_iff (t : MsgType) (v : Slots) :
    (Instr.ofMessage t v).wellFormed = true ↔ ∃ s, toBits t v = .ok s := by
  rw [toBits_encodes_iff]
  cases t with
  | query =>
    simp only [MsgType.fields, Slots.toList, encodeFields_encodes_cons_iff, drField_encodes_iff, mField_encodes_iff,
      trextField_encodes_iff, selField_encodes_iff, sessionField_encodes_iff, targetField_encodes_iff,
      qField_encodes_iff, encodeFields_nil_encodes, Instr.ofMessage, Instr.wellFormed, Bool.and_eq_true, and_assoc,
      and_true]
  | queryAdjust =>
    simp only [MsgType.fields, Slots.toList, encodeFields_encodes_cons_iff, sessionField_encodes_iff,
      updnField_encodes_iff, encodeFields_nil_encodes, Instr.ofMessage, Instr.wellFormed, Bool.and_eq_true, and_true]
  | queryRep =>
    simp only [MsgType.fields, Slots.toList, encodeFields_encodes_cons_iff, sessionField_encodes_iff,
      encodeFields_nil_encodes, Instr.ofMessage, Instr.wellFormed, and_true]
  | ack =>
    simp only [MsgType.fields, Slots.toList, encodeFields_encodes_cons_iff, rn16Field_encodes,
      encodeFields_nil_encodes, Instr.ofMessage, Instr.wellFormed, and_true]
  | nak => exact ⟨fun _ => encodeFields_nil_encodes _, fun _ => rfl⟩

theorem findPattern_error (c : Code) (table : List (Code × Bits)) (e : Err) (h : findPattern c table = .error e) :
    e = .notFound := by
  induction table with
  | nil =>
    cases h
    rfl
  | cons entry rest ih =>
    simp only [findPattern] at h
    split at h
    · cases h
    · exact ih h

/-- A field fails with Overflow if it is a Value, with NotFound if it is a LookUp, and never if it is a Constant. -/
theorem codec_toBits_error (c : Codec) (v : Code) (e : Err) (h : c.toBits v = .error e) :
    e = .overflow ∨ e = .notFound := by
  cases c with
  | value n =>
    simp only [Codec.toBits] at h
    split at h
    · cases h
      exact .inl rfl
    · cases h
  | lookUp n table => exact .inr (findPattern_error v table e h)
  | constant p code => cases h

/-- Fields fail with the error of one of them. -/
theorem encodeFields_error (cs : List Codec) (vs : List Code) (e : Err) (h : encodeFields cs vs = .error e) :
    e = .overflow ∨ e = .notFound := by
  induction cs generalizing vs with
  | nil => cases h
  | cons c cs ih =>
    simp only [encodeFields] at h
    split at h
    · rename_i hc
      cases h
      exact codec_toBits_error c _ e hc
    · split at h
      · rename_i hcs
        cases h
        exact ih _ hcs
      · cases h

/-- An assembly of a registered type fails with Overflow or NotFound. -/
theorem toBits_error (t : MsgType) (v : Slots) (e : Err) (h : toBits t v = .error e) :
    e = .overflow ∨ e = .notFound := by
  simp only [toBits] at h
  split at h
  · rename_i hs
    cases h
    exact encodeFields_error _ _ e hs
  · cases h

end Sys2Proof.Machine
end

section
/-! PROOFS. The instruction encoding: decode of encode, and which instructions have an encoded form (30_encoding.md
R100, R120, R132). -/

namespace Sys2Proof.Machine

/-- OP is read from where CMD's word holds it (30_encoding.md R120, R132). -/
theorem cmdOp_cmdWord (op : BitVec 4) (arg : BitVec 6) : cmdOp (cmdWord op arg) = op := by
  ext i hi
  have hbelow : i < 8 := by omega
  have hword : i < 32 := by omega
  simp [cmdOp, cmdWord, hi, hbelow, hword]

/-- ARG is read from where CMD's word holds it (30_encoding.md R120, R132). -/
theorem cmdArg_cmdWord (op : BitVec 4) (arg : BitVec 6) : cmdArg (cmdWord op arg) = arg := by
  ext i hi
  have hword : 8 + i < 32 := by omega
  simp [cmdArg, cmdWord, hi, hword, BitVec.getLsbD_of_ge op (8 + i) (by omega)]

/-- CRC_FEED keeps every count its six bits hold. -/
theorem decodeCmd_crcFeed (n : BitVec 6) : decodeCmd (cmdWord 0x2 n) = .crcFeed n := by
  rw [decodeCmd, cmdOp_cmdWord, cmdArg_cmdWord]
  rfl

/-- The two encodings: an instruction is a message of a type, or a host command, whose CMD word selects it. -/
theorem encode_cases (i : Instr) :
    (∃ t v, i = Instr.ofMessage t v ∧ encode i = encodeMsg t v) ∨
    (∃ w, encode i = .ok (.cmd w) ∧ decodeCmd w = i ∧ i.wellFormed = true) := by
  cases i with
  | query dr m trext sel session target q => exact .inl ⟨.query, ⟨dr, m, trext, sel, session, target, q, 0⟩, rfl, rfl⟩
  | queryAdjust session updn => exact .inl ⟨.queryAdjust, ⟨session, updn, 0, 0, 0, 0, 0, 0⟩, rfl, rfl⟩
  | queryRep session => exact .inl ⟨.queryRep, ⟨session, 0, 0, 0, 0, 0, 0, 0⟩, rfl, rfl⟩
  | ack rn16 => exact .inl ⟨.ack, ⟨rn16, 0, 0, 0, 0, 0, 0, 0⟩, rfl, rfl⟩
  | nak => exact .inl ⟨.nak, Slots.zero, rfl, rfl⟩
  | crcFeed n => exact .inr ⟨_, rfl, decodeCmd_crcFeed n, rfl⟩
  | _ => exact .inr ⟨_, rfl, rfl, rfl⟩

theorem encodeMsg_eq_map (t : MsgType) (v : Slots) : encodeMsg t v = (toBits t v).map Encoded.msg := by
  rw [encodeMsg]
  cases toBits t v <;> rfl

/-- Settles O7: a command is read back from its word's fields, a message by the round trip of its fields. -/
theorem decodeInvertsEncode : Obligations.DecodeInvertsEncode := by
  intro i hwf
  rcases encode_cases i with ⟨t, v, rfl, henc⟩ | ⟨w, henc, hdec, -⟩
  · obtain ⟨s, hs⟩ := (ofMessage_wellFormed_iff t v).mp hwf
    refine ⟨.msg s, ?_, decodeMsg_toBits t v s hs⟩
    rw [henc, encodeMsg_eq_map, hs]
    rfl
  · exact ⟨.cmd w, henc, congrArg Except.ok hdec⟩

/-- Settles O8: every command is encoded; a message is encoded, or fails, as its fields do. -/
theorem onlyWellFormedEncode : Obligations.OnlyWellFormedEncode := by
  intro i
  rcases encode_cases i with ⟨t, v, rfl, henc⟩ | ⟨w, henc, -, hwf⟩
  · rw [henc, encodeMsg_eq_map, ofMessage_wellFormed_iff]
    cases hbits : toBits t v with
    | ok s => exact ⟨⟨fun _ => ⟨.msg s, rfl⟩, fun _ => ⟨s, rfl⟩⟩, nofun⟩
    | error e =>
      refine ⟨⟨nofun, nofun⟩, fun e' he => ?_⟩
      cases he
      exact toBits_error t v e hbits
  · rw [henc]
    exact ⟨⟨fun _ => ⟨.cmd w, rfl⟩, fun _ => hwf⟩, nofun⟩

/-- Settles O6: the decoder evaluated on each written-out form. -/
theorem writtenOutWordsDecode : Obligations.WrittenOutWordsDecode := by
  refine ⟨?query, ?queryAdjust, ?queryRep, ?ack, ?nak, ?nop, ?crcFeed, ?softReset⟩
  all_goals rfl

end Sys2Proof.Machine
end

section
/-! PROOFS. The round trip of one field, and its converse on the entries of a LookUp table (40_bitfield.md R145,
R152). -/

namespace Sys2Proof.Machine

/-- The codes of a LookUp table differ, so each entry is the one its code finds (40_bitfield.md R145); the other codecs
have no table. -/
def Codec.distinctCodes : Codec → Bool
  | .lookUp _ table => decide (table.map Prod.fst).Nodup
  | _ => true

theorem fields_distinctCodes (t : MsgType) : ∀ c ∈ t.fields, c.distinctCodes = true := by
  cases t <;> decide

/-- In a table whose codes differ, the code of an entry gives the entry's pattern. -/
theorem findPattern_of_mem (table : List (Code × Bits)) (k : Code) (p : Bits) (hd : (table.map Prod.fst).Nodup)
    (h : (k, p) ∈ table) : findPattern k table = .ok p := by
  induction table with
  | nil => cases h
  | cons entry rest ih =>
    obtain ⟨j, q⟩ := entry
    obtain ⟨hj, hrest⟩ := List.nodup_cons.mp hd
    rcases List.mem_cons.mp h with heq | hmem
    · cases heq
      exact if_pos rfl
    · have hne : j ≠ k := by
        rintro rfl
        exact hj (List.mem_map.mpr ⟨(j, p), hmem, rfl⟩)
      simpa [findPattern, hne] using ih hrest hmem

/-- Settles O11: a Value has an encoding for each code of its domain, a LookUp has its entry's pattern for the entry's
code, and both kinds of field read back the code they wrote. -/
theorem fieldRoundTrip : Obligations.FieldRoundTrip := by
  refine ⟨fun n v hn hv => ?value, fun t n table hfield k p hentry => ?lookUp⟩
  case value =>
    obtain ⟨s, hs⟩ := (value_encodes_iff n v).mpr hv
    exact ⟨s, hs, codec_fromBits_toBits _ v s (decide_eq_true hn) hs⟩
  case lookUp =>
    have huniform := fields_uniform t _ (List.mem_cons_of_mem _ hfield)
    have hdistinct := fields_distinctCodes t _ hfield
    have hbits : (Codec.lookUp n table).toBits k = .ok p :=
      findPattern_of_mem table k p (of_decide_eq_true hdistinct) hentry
    exact ⟨codec_toBits_length _ k p huniform hbits, hbits,
      codec_fromBits_toBits _ k p (fields_lossless t _ hfield) hbits⟩

end Sys2Proof.Machine
end

section
/-! PROOFS. The CRC5 generator: its step in register bits and as a sequence, the residue of a checksum, and the error of
one inverted bit (41_crc5.md R170-R174, R181). -/

namespace Sys2Proof.Machine

/-- The bits of a register read out element 0 first, from its top bit down. -/
theorem bitsOf_toNat {w : Nat} (r : BitVec w) :
    bitsOf w r.toNat = (List.range w).map fun j => r.getLsbD (w - 1 - j) := by
  refine List.ext_getElem? fun j => ?_
  by_cases hj : j < w
  · rw [bitsOf_toNat_getElem? r j hj, List.getElem?_map, List.getElem?_range hj, Option.map_some]
  · rw [List.getElem?_eq_none (by rw [bitsOf_length]; omega), List.getElem?_eq_none (by simpa using hj)]

/-- CRC_REG as a sequence, element 0 at bit 4 (10_state.md R35). -/
theorem crcBits_eq (reg : BitVec 5) :
    crcBits reg = [reg.getLsbD 4, reg.getLsbD 3, reg.getLsbD 2, reg.getLsbD 1, reg.getLsbD 0] :=
  bitsOf_toNat reg

theorem crcBits_eq_cons (reg : BitVec 5) : crcBits reg = reg.getLsbD 4 :: (crcBits reg).drop 1 := by
  rw [crcBits_eq]
  rfl

@[simp] theorem crcBits_length (reg : BitVec 5) : (crcBits reg).length = 5 := bitsOf_length 5 _

theorem crcBits_injective : Function.Injective crcBits := by
  intro x y h
  have hvalue : uint (crcBits x) = uint (crcBits y) := congrArg uint h
  rw [crcBits, crcBits, uint_bitsOf 5 _ x.isLt, uint_bitsOf 5 _ y.isLt] at hvalue
  exact BitVec.eq_of_toNat_eq hvalue

/-- The register shifted left, as a sequence: element 0 is discarded and 0 appended. -/
theorem crcBits_shiftLeft_one (reg : BitVec 5) : crcBits (reg <<< 1) = (crcBits reg).drop 1 ++ [false] := by
  simp [crcBits_eq]

theorem crcBits_xor (x y : BitVec 5) : crcBits (x ^^^ y) = List.zipWith Bool.xor (crcBits x) (crcBits y) := by
  simp [crcBits_eq]

theorem crcFeed_append (reg : BitVec 5) (a b : Bits) : crcFeed reg (a ++ b) = crcFeed (crcFeed reg a) b :=
  List.foldl_append

@[simp] theorem crc5_length (d : Bits) : (crc5 d).length = 5 := crcBits_length _

/-- An input bit that equals the leading bit shifts the register plainly, under every mask (41_crc5.md R173). -/
theorem crcStepWith_leading (mask reg : BitVec 5) (b : Bool) (h : reg.getLsbD 4 = b) :
    crcStepWith mask reg b = reg <<< 1 := by
  rw [crcStepWith, h, bne_self_eq_false, if_neg Bool.false_ne_true, BitVec.xor_zero]

/-- An input bit that differs from the leading bit shifts the register and adds the mask. -/
theorem crcStepWith_differing (mask reg : BitVec 5) (b : Bool) (h : reg.getLsbD 4 ≠ b) :
    crcStepWith mask reg b = (reg <<< 1) ^^^ mask := by
  rw [crcStepWith, if_pos (bne_iff_ne.mpr h)]

/-- The step on register bits is the step on the sequence (41_crc5.md R170). -/
theorem crcBits_crcStep (reg : BitVec 5) (b : Bool) : crcBits (crcStep reg b) = crcStepSeq (crcBits reg) b := by
  have hhead : (crcBits reg).headD false = reg.getLsbD 4 := congrArg (List.headD · false) (crcBits_eq_cons reg)
  by_cases h : reg.getLsbD 4 = b
  · rw [crcStep, crcStepWith_leading _ _ _ h, crcBits_shiftLeft_one]
    simp only [crcStepSeq, hhead, h, bne_self_eq_false, Bool.false_eq_true, if_false]
  · rw [crcStep, crcStepWith_differing _ _ _ h, crcBits_xor, crcBits_shiftLeft_one]
    simp only [crcStepSeq, hhead, bne_iff_ne.mpr h, if_true]
    rfl

/-- Element `k` of the register is the leading bit after `k` plain shifts. -/
theorem crcBits_getElem?_eq_leading (reg : BitVec 5) (k : Nat) (hk : k < 5) :
    (crcBits reg)[k]? = some ((reg <<< k).getLsbD 4) := by
  rw [crcBits, bitsOf_toNat_getElem? reg k hk, BitVec.getLsbD_shiftLeft]
  simp [show ¬ 4 < k by omega]

/-- Fed its own first `k` bits, the register shifts plainly `k` times, under every mask (41_crc5.md R173). -/
theorem foldl_crcStepWith_take (mask reg : BitVec 5) (k : Nat) (hk : k ≤ 5) :
    ((crcBits reg).take k).foldl (crcStepWith mask) reg = reg <<< k := by
  induction k with
  | zero => simp
  | succ k ih =>
    rw [List.take_add_one, crcBits_getElem?_eq_leading reg k (by omega), List.foldl_append, ih (by omega),
      BitVec.shiftLeft_add]
    exact crcStepWith_leading mask _ _ rfl

/-- Fed its own five bits, the register ends at zero, under every mask (41_crc5.md R173). -/
theorem foldl_crcStepWith_crcBits (mask reg : BitVec 5) :
    (crcBits reg).foldl (crcStepWith mask) reg = 0 := by
  have hfive := foldl_crcStepWith_take mask reg 5 le_rfl
  rw [List.take_of_length_le (crcBits_length reg).le] at hfive
  rw [hfive, BitVec.shiftLeft_eq_zero le_rfl]
  rfl

/-- Data followed by its checksum has the zero residue. -/
theorem crc5_append_crc5 (d : Bits) : crc5 (d ++ crc5 d) = [false, false, false, false, false] := by
  have hzero : crcFeed crcPreset (d ++ crc5 d) = 0 := by
    rw [crcFeed_append]
    exact foldl_crcStepWith_crcBits crcMask (crcFeed crcPreset d)
  rw [crc5, hzero]
  rfl

/-- The mask's last element is 1, so bit 0 of the next register tells whether the mask was added. -/
theorem crcStep_getLsbD_zero (reg : BitVec 5) (b : Bool) : (crcStep reg b).getLsbD 0 = (reg.getLsbD 4 != b) := by
  have hmask : crcMask.getLsbD 0 = true := rfl
  by_cases h : reg.getLsbD 4 = b
  · rw [crcStep, crcStepWith_leading _ _ _ h, BitVec.getLsbD_shiftLeft, h, bne_self_eq_false]
    rfl
  · rw [crcStep, crcStepWith_differing _ _ _ h, BitVec.getLsbD_xor, BitVec.getLsbD_shiftLeft, hmask,
      bne_iff_ne.mpr h]
    rfl

/-- A step with an inverted input bit gives another register. -/
theorem crcStep_not_ne (reg : BitVec 5) (b : Bool) : crcStep reg (!b) ≠ crcStep reg b := by
  intro h
  have hbit := congrArg (BitVec.getLsbD · 0) h
  simp only [crcStep_getLsbD_zero, Bool.bne_right_inj, Bool.not_eq_self] at hbit

/-- A step with a given input bit loses nothing of the register: bit 0 tells the leading bit, the others the shifted
ones. -/
theorem crcStep_injective (b : Bool) : Function.Injective (crcStep · b) := by
  intro x y (h : crcStep x b = crcStep y b)
  have hlead : x.getLsbD 4 = y.getLsbD 4 := by
    have hbit := congrArg (BitVec.getLsbD · 0) h
    simpa only [crcStep_getLsbD_zero, Bool.bne_left_inj] using hbit
  have hshift : x <<< 1 = y <<< 1 := by
    rw [crcStep, crcStep, crcStepWith, crcStepWith, hlead] at h
    exact BitVec.xor_left_inj _ |>.mp h
  have hrest : (crcBits x).drop 1 = (crcBits y).drop 1 := by
    have hbits := congrArg crcBits hshift
    rw [crcBits_shiftLeft_one, crcBits_shiftLeft_one] at hbits
    exact List.append_cancel_right hbits
  refine crcBits_injective ?_
  rw [crcBits_eq_cons x, crcBits_eq_cons y, hlead, hrest]

/-- The steps of a sequence lose nothing of the register. -/
theorem crcFeed_injective (d : Bits) : Function.Injective (crcFeed · d) := by
  induction d with
  | nil => exact fun _ _ h => h
  | cons b d ih => exact ih.comp (crcStep_injective b)

/-- One inverted bit changes the register: the step at that bit gives another one, and the steps after it keep the two
apart. -/
theorem crcFeed_flipBit_ne (s : Bits) (i : Nat) (reg : BitVec 5) (hi : i < s.length) :
    crcFeed reg (flipBit i s) ≠ crcFeed reg s := by
  induction s generalizing i reg with
  | nil => exact absurd hi (Nat.not_lt_zero i)
  | cons b s ih =>
    cases i with
    | zero => exact fun h => crcStep_not_ne reg b (crcFeed_injective s h)
    | succ i => exact ih i (crcStep reg b) (Nat.lt_of_succ_lt_succ hi)

theorem crc5_flipBit_ne (s : Bits) (i : Nat) (hi : i < s.length) : crc5 (flipBit i s) ≠ crc5 s :=
  fun h => crcFeed_flipBit_ne s i crcPreset hi (crcBits_injective h)

/-- Settles O16: each of the register's own bits is the leading bit at its step, so all five steps are plain shifts. -/
theorem crcResidueIsZero : Obligations.CrcResidueIsZero := by
  refine ⟨crc5_append_crc5, fun mask preset d => foldl_crcStepWith_crcBits mask _, fun mask reg k hk => ⟨?_, ?_⟩⟩
  · exact foldl_crcStepWith_take mask reg k hk.le
  · rw [List.getD_eq_getElem?_getD, crcBits_getElem?_eq_leading reg k hk, Option.getD_some]

/-- Settles O17: an inverted bit changes the checksum of a sequence, and that of data with its checksum is zero. -/
theorem crcDetectsSingleBitErrors : Obligations.CrcDetectsSingleBitErrors := by
  intro d i hi
  rw [← crc5_append_crc5 d]
  exact crc5_flipBit_ne _ i hi

/-- Settles O14: the sequence form is `crcBits_crcStep`, whose register form is the step at CRC_MASK. -/
theorem crcStepFollowsSequenceForm : Obligations.CrcStepFollowsSequenceForm := by
  refine ⟨fun reg b r0 r1 r2 r3 r4 hreg => ?elements, fun reg b => ?register, crcBits_crcStep⟩
  case elements =>
    rw [crcBits_crcStep, hreg]
    by_cases h : r0 = b <;> simp [crcStepSeq, h, crcMask, bitsOf]
  case register =>
    by_cases h : reg.getLsbD 4 = b
    · rw [crcStep, crcStepWith_leading _ _ _ h, if_pos h, BitVec.xor_zero]
    · rw [crcStep, crcStepWith_differing _ _ _ h, if_neg h, crcMask]

/-- Settles O15: the vectors by evaluation, the plain shift by `crcStepWith_leading`. -/
theorem crcVectorsAndCorners : Obligations.CrcVectorsAndCorners :=
  ⟨rfl, rfl, rfl, rfl, fun reg h => crcStepWith_leading crcMask reg false h, crc5_length⟩

end Sys2Proof.Machine
end

section
/-! PROOFS. The host commands CRC_INIT and CRC_FEED (41_crc5.md R175, R176). -/

namespace Sys2Proof.Machine

theorem decodeCmd_of_op_one (w : Word) (h : cmdOp w = 1) : decodeCmd w = .crcInit := by
  rw [decodeCmd, h]
  rfl

theorem decodeCmd_of_op_two (w : Word) (h : cmdOp w = 2) : decodeCmd w = .crcFeed (cmdArg w) := by
  rw [decodeCmd, h]
  rfl

/-- CRC_FEED's operand is CRC_DATA from bit 31 down (41_crc5.md R176). -/
theorem crcOperand_eq (r : Regs) (n : Nat) (hn : n ≤ 32) :
    crcOperand r n = (List.range n).map fun j => r.crcData.getLsbD (31 - j) := by
  rw [crcOperand, unpackWord, bitsOf_toNat, ← List.map_take, List.take_range, Nat.min_eq_left hn]

/-- CRC_FEED leaves the engine IDLE, with or without an error. -/
theorem exec_crcFeed_idle (n : BitVec 6) (s t : State) (h : exec (.crcFeed n) s = .next t) : t.engState = .idle := by
  change execCrcFeed n s = .next t at h
  rcases execCrcFeed_cases n s with ⟨-, he⟩ | ⟨-, he⟩ <;> rw [he] at h <;> cases h <;> rfl

/-- An IDLE core reads CRC as CRC_REG, or as ZERO alone when CRC_REG is 0 (10_state.md R35). -/
theorem busRead_crc_idle (s : State) (h : s.engState = .idle) :
    busRead 0x010 s = if s.regs.crcReg = 0 then 0x100#32 else s.regs.crcReg.setWidth 32 := by
  rw [busRead_stands _ s (.inl h), locate_of_wordAddr s.par _ 0x010 (by decide) (by decide)]
  exact crcWord_eq s.regs

/-- Settles O19, by the two cases of CRC_FEED and the place of its operand's bits. -/
theorem crcFeedAppliesSteps : Obligations.CrcFeedAppliesSteps := by
  refine ⟨fun s n hpos hle => ?feeds, fun s n hbad => ?param, fun s t n h => ?word, decodeCmd_of_op_two,
    fun reg a b => (crcFeed_append reg a b).symm⟩
  case feeds =>
    rcases execCrcFeed_cases n s with ⟨hbad, -⟩ | ⟨-, he⟩
    · omega
    · rw [crcOperand_eq _ _ hle] at he
      exact he
  case param =>
    rcases execCrcFeed_cases n s with ⟨-, he⟩ | ⟨hgood, -⟩
    · exact he
    · omega
  case word => exact ⟨rfl, busRead_crc_idle t (exec_crcFeed_idle n s t h)⟩

/-- Settles O18: the state that CRC_INIT answers holds the preset already. -/
theorem crcInitLoadsPreset : Obligations.CrcInitLoadsPreset := by
  refine ⟨fun s => rfl, decodeCmd_of_op_one, fun s t h => ?_⟩
  cases h
  exact ⟨crcWord_eq _, rfl, rfl⟩

end Sys2Proof.Machine
end

section
/-! PROOFS. The converse of the message encoding: what dispatch reads from a sequence assembles to its own leading bits
(42_message_mux.md R203, R206, R212). -/

namespace Sys2Proof.Machine

/-- The code that a table gives a pattern stands in it. -/
theorem mem_of_findCode (s : Bits) (table : List (Code × Bits)) (k : Code) (h : findCode s table = .ok k) :
    (k, s) ∈ table := by
  induction table with
  | nil => cases h
  | cons entry rest ih =>
    obtain ⟨j, q⟩ := entry
    simp only [findCode] at h
    split at h
    · rename_i hq
      cases h
      cases hq
      exact List.mem_cons_self
    · exact List.mem_cons_of_mem _ (ih h)

/-- A field read from a slice of its width is written back as that slice. -/
theorem codec_toBits_fromBits (c : Codec) (s : Bits) (v : Code) (hlossless : c.lossless = true)
    (hdistinct : c.distinctCodes = true) (hlen : s.length = c.width) (h : c.fromBits s = .ok v) :
    c.toBits v = .ok s := by
  cases c with
  | value n =>
    cases h
    have hn : s.length = n := hlen
    have hfits : uint s < 2 ^ n := hn ▸ uint_lt s
    have hslot : 2 ^ n ≤ 2 ^ 16 := Nat.pow_le_pow_right (by decide) (of_decide_eq_true hlossless)
    have hcode : (BitVec.ofNat 16 (uint s)).toNat = uint s := by
      rw [BitVec.toNat_ofNat, Nat.mod_eq_of_lt (Nat.lt_of_lt_of_le hfits hslot)]
    rw [Codec.toBits, hcode, if_neg (Nat.not_le.mpr hfits), ← hn, bitsOf_uint]
  | lookUp n table => exact findPattern_of_mem table v s (of_decide_eq_true hdistinct) (mem_of_findCode s table v h)
  | constant p code => cases hlossless

/-- Fields read from a sequence that holds them all are written back as its leading bits, whatever codes follow. -/
theorem encodeFields_parseFields (cs : List Codec) (s : Bits) (vals more : List Code)
    (hc : ∀ c ∈ cs, c.lossless = true ∧ c.distinctCodes = true) (hlen : (cs.map Codec.width).sum ≤ s.length)
    (h : parseFields cs s = .ok vals) :
    encodeFields cs (vals ++ more) = .ok (s.take (cs.map Codec.width).sum) := by
  induction cs generalizing s vals with
  | nil => rfl
  | cons c cs ih =>
    rw [List.map_cons, List.sum_cons] at hlen ⊢
    simp only [parseFields] at h
    split at h
    · cases h
    · rename_i v hv
      split at h
      · cases h
      · rename_i r hr
        cases h
        obtain ⟨hlossless, hdistinct⟩ := hc c List.mem_cons_self
        have hslice : (s.take c.width).length = c.width := List.length_take_of_le (by omega)
        have hrest : (cs.map Codec.width).sum ≤ (s.drop c.width).length := by
          rw [List.length_drop]
          omega
        have hhead := codec_toBits_fromBits c _ v hlossless hdistinct hslice hv
        have htail := ih _ r (fun d hd => hc d (List.mem_cons_of_mem _ hd)) hrest hr
        rw [List.cons_append, encodeFields_cons_ok_iff]
        exact ⟨_, _, hhead, htail, List.take_add⟩

/-- Slots filled from a list of at most eight codes hold them in order (30_encoding.md R107). -/
theorem slots_ofList_take (l : List Code) (h : l.length ≤ 8) : (Slots.ofList l).toList.take l.length = l := by
  have hslots : (Slots.ofList l).toList = (List.range 8).map (fun i => l.getD i 0) := rfl
  refine List.ext_getElem (by simp [hslots, h]) fun i _ hi => ?_
  simp [hslots, hi]

theorem fields_length_le (t : MsgType) : t.fields.length ≤ 8 := by
  cases t <;> decide

/-- What a dispatched sequence is: an opcode, then elements that hold the type's fields, read into the slots. -/
theorem dispatch_ok (s : Bits) (t : MsgType) (v : Slots) (h : dispatch s = .ok (t, v)) :
    ∃ r vals, s = t.opcode ++ r ∧ (t.fields.map Codec.width).sum ≤ r.length ∧
      parseFields t.fields r = .ok vals ∧ v = Slots.ofList vals := by
  by_cases hnone : ∀ u : MsgType, u.opens s = false
  · rw [dispatch, dispatchIn_of_not_opens registry s hnone] at h
    cases h
  · obtain ⟨u, hu⟩ := not_forall.mp hnone
    have hopens : u.opens s = true := Bool.eq_true_of_not_eq_false hu
    rw [dispatch_of_opens s u hopens] at h
    obtain ⟨r, rfl⟩ := (opens_iff u s).mp hopens
    rcases Nat.lt_or_ge (u.opcode ++ r).length u.nBits with hshort | hlong
    · rw [parseAs_of_short u _ hshort] at h
      cases h
    · rw [parseAs_of_long u _ hlong, parseFields_opcode] at h
      cases hvals : parseFields u.fields r with
      | error e =>
        rw [hvals] at h
        cases h
      | ok vals =>
        rw [hvals] at h
        cases h
        refine ⟨r, vals, rfl, ?_, hvals, rfl⟩
        rw [List.length_append] at hlong
        exact Nat.le_of_add_le_add_left hlong

/-- A dispatched message's slots are the codes of its type's fields alone. -/
theorem dispatch_slots (s : Bits) (t : MsgType) (v : Slots) (h : dispatch s = .ok (t, v)) :
    Slots.ofList (v.toList.take t.fields.length) = v := by
  obtain ⟨r, vals, -, -, hvals, rfl⟩ := dispatch_ok s t v h
  have hlen := parseFields_length _ r vals hvals
  rw [← hlen, slots_ofList_take vals (hlen ▸ fields_length_le t)]

/-- A dispatched message assembles: the sequence's own elements over the declared width, then the checksum if the type
has one. -/
theorem toBits_of_dispatch (s : Bits) (t : MsgType) (v : Slots) (h : dispatch s = .ok (t, v)) :
    t.nBits ≤ s.length ∧
      toBits t v = .ok (s.take t.nBits ++ if t.hasCheck then crc5 (s.take t.nBits) else []) := by
  obtain ⟨r, vals, rfl, hlen, hvals, rfl⟩ := dispatch_ok s t v h
  have hcodecs : ∀ c ∈ t.fields, c.lossless = true ∧ c.distinctCodes = true := fun c hc =>
    ⟨fields_lossless t c hc, fields_distinctCodes t c hc⟩
  have hcount := parseFields_length _ r vals hvals
  have hslots : (Slots.ofList vals).toList = vals ++ (Slots.ofList vals).toList.drop vals.length := by
    conv_lhs => rw [← List.take_append_drop vals.length (Slots.ofList vals).toList,
      slots_ofList_take vals (hcount ▸ fields_length_le t)]
  have hfields : encodeFields t.fields (Slots.ofList vals).toList = .ok (r.take (t.fields.map Codec.width).sum) :=
    hslots ▸ encodeFields_parseFields _ r vals _ hcodecs hlen hvals
  have htake : (t.opcode ++ r).take t.nBits = t.opcode ++ r.take (t.fields.map Codec.width).sum :=
    List.take_length_add_append _
  refine ⟨?_, (toBits_ok_iff t _ _).mpr ⟨_, hfields, by rw [htake]⟩⟩
  rw [List.length_append]
  exact Nat.add_le_add_left hlen _

theorem isCommand_ofMessage (t : MsgType) (v : Slots) : isCommand (Instr.ofMessage t v) = false := by
  cases t <;> rfl

/-- The decoder reads a sequence as the instruction of the message dispatched from it. -/
theorem decodeMsg_ok_iff (s : Bits) (i : Instr) :
    decodeMsg s = .ok i ↔ ∃ t v, dispatch s = .ok (t, v) ∧ i = Instr.ofMessage t v := by
  rw [decodeMsg]
  cases dispatch s with
  | error e => simp
  | ok m =>
    obtain ⟨t, v⟩ := m
    simp [eq_comm]

/-- Settles O9: a decoded message is a dispatched one, and that assembles to the sequence's own elements. -/
theorem decodedMessageReassembles : Obligations.DecodedMessageReassembles := by
  intro s i h
  obtain ⟨t, v, hdispatch, rfl⟩ := (decodeMsg_ok_iff s i).mp h
  obtain ⟨hlen, hbits⟩ := toBits_of_dispatch s t v hdispatch
  refine ⟨(ofMessage_wellFormed_iff t v).mpr ⟨_, hbits⟩, isCommand_ofMessage t v, t, v, _, hdispatch, rfl, hbits, ?_,
    hlen⟩
  exact List.take_left' (List.length_take_of_le hlen)

/-- Settles O10: dispatch of an assembled sequence fills the slots with the field codes it was assembled from. -/
theorem messageRoundTrip : Obligations.MessageRoundTrip := by
  intro t v s h
  have hlen : (v.toList.take t.fields.length).length = t.fields.length :=
    List.length_take_of_le (fields_length_le t)
  have hcodes := slots_ofList_take (v.toList.take t.fields.length) (hlen.trans_le (fields_length_le t))
  rw [hlen] at hcodes
  exact ⟨_, dispatch_toBits t v s h, hcodes, by simp [sameMessage, hcodes]⟩

end Sys2Proof.Machine
end

section
/-! PROOFS. The error of an assembly, the first in field order, and the host command ASSEMBLE (42_message_mux.md
R207-R211, R220, R221). -/

namespace Sys2Proof.Machine

/-- The error of a result, none if it succeeded. -/
def errorOf {α : Type} : Except Err α → Option Err
  | .error e => some e
  | .ok _ => none

theorem errorOf_eq_some_iff {α : Type} (x : Except Err α) (e : Err) : errorOf x = some e ↔ x = .error e := by
  cases x <;> simp [errorOf]

/-- A result that fails on one condition and with one error. -/
theorem errorOf_eq_ite {α : Type} {x : Except Err α} {p : Prop} [Decidable p] {a : Err}
    (hok : (∃ b, x = .ok b) ↔ ¬p) (herr : ∀ e, x = .error e → e = a) : errorOf x = if p then some a else none := by
  cases x with
  | error e =>
    have hp : p := by simpa using hok
    rw [if_pos hp, ← herr e rfl, errorOf]
  | ok b => rw [if_neg (hok.mp ⟨b, rfl⟩), errorOf]

/-- A Value fails with Overflow alone (40_bitfield.md R141). -/
theorem value_toBits_error (n : Nat) (v : Code) (e : Err) (h : (Codec.value n).toBits v = .error e) :
    e = .overflow := by
  simp only [Codec.toBits] at h
  split at h
  · cases h
    rfl
  · cases h

/-! The error of each field (30_encoding.md R109-R116), by its domain. -/

theorem drField_error (v : Code) :
    errorOf (drField.toBits v) = if 2 ≤ v.toNat then some .notFound else none :=
  errorOf_eq_ite ((drField_encodes_iff v).trans (by simp [drOk])) (findPattern_error v _)

theorem mField_error (v : Code) :
    errorOf (mField.toBits v) = if ¬(v = 1 ∨ v = 2 ∨ v = 4 ∨ v = 8) then some .notFound else none :=
  errorOf_eq_ite ((mField_encodes_iff v).trans (by rw [not_not]; simp [mOk, ← BitVec.toNat_inj, or_assoc]))
    (findPattern_error v _)

theorem selField_error (v : Code) :
    errorOf (selField.toBits v) = if 4 ≤ v.toNat then some .notFound else none :=
  errorOf_eq_ite ((selField_encodes_iff v).trans (by simp [selOk])) (findPattern_error v _)

theorem updnField_error (v : Code) :
    errorOf (updnField.toBits v) = if 3 ≤ v.toNat then some .notFound else none :=
  errorOf_eq_ite ((updnField_encodes_iff v).trans (by simp [updnOk])) (findPattern_error v _)

theorem sessionField_error (v : Code) :
    errorOf (sessionField.toBits v) = if 4 ≤ v.toNat then some .overflow else none :=
  errorOf_eq_ite ((sessionField_encodes_iff v).trans (by simp [sessionOk])) (value_toBits_error 2 v)

theorem qField_error (v : Code) :
    errorOf (qField.toBits v) = if 16 ≤ v.toNat then some .overflow else none :=
  errorOf_eq_ite ((qField_encodes_iff v).trans (by simp [qOk])) (value_toBits_error 4 v)

theorem rn16Field_error (v : Code) : errorOf (rn16Field.toBits v) = none := by
  obtain ⟨b, hb⟩ := rn16Field_encodes v
  rw [hb, errorOf]

/-- TRext has DR's table (30_encoding.md R109, R111). -/
theorem trextField_error (v : Code) :
    errorOf (trextField.toBits v) = if 2 ≤ v.toNat then some .notFound else none :=
  drField_error v

/-- Target has DR's table (30_encoding.md R109, R114). -/
theorem targetField_error (v : Code) :
    errorOf (targetField.toBits v) = if 2 ≤ v.toNat then some .notFound else none :=
  drField_error v

/-- The first field that fails gives the error (42_message_mux.md R202). -/
theorem encodeFields_cons_error (c : Codec) (cs : List Codec) (v : Code) (vs : List Code) :
    errorOf (encodeFields (c :: cs) (v :: vs)) = (errorOf (c.toBits v)).or (errorOf (encodeFields cs vs)) := by
  simp only [encodeFields, List.headD_cons, List.tail_cons]
  cases c.toBits v with
  | error e => rfl
  | ok b => cases encodeFields cs vs <;> rfl

theorem encodeFields_nil_error (vs : List Code) : errorOf (encodeFields [] vs) = none := rfl

/-- An assembly fails as its fields do: the opcode and the checksum never fail. -/
theorem toBits_error_eq (t : MsgType) (v : Slots) :
    errorOf (toBits t v) = errorOf (encodeFields t.fields v.toList) := by
  simp only [toBits, encodeFields, MsgType.opcodeField, Codec.toBits, List.tail_cons]
  cases encodeFields t.fields v.toList <;> rfl

/-- Assembly by the type that the code names. -/
theorem assembleMsg_of_ofCode (code : Nat) (field : Slots) (t : MsgType) (h : MsgType.ofCode code = some t) :
    assembleMsg code field = (toBits t field).map fun b => (t, b) := by
  simp only [assembleMsg, h]
  cases toBits t field <;> rfl

theorem errorOf_map {α β : Type} (f : α → β) (x : Except Err α) : errorOf (x.map f) = errorOf x := by
  cases x <;> rfl

theorem ite_none_or {p : Prop} [Decidable p] (e : Err) (x : Option Err) :
    (if p then some e else none).or x = if p then some e else x := by
  split <;> rfl

/-- The error lists of the message rules are the errors of the codecs, in field order (42_message_mux.md R207-R211,
R220). -/
theorem assemblyError_eq (code : Nat) (v : Slots) : assemblyError code v = errorOf (assembleMsg code v) := by
  rw [assemblyError]
  cases hcode : MsgType.ofCode code with
  | none => simp only [assembleMsg, hcode, errorOf]
  | some t =>
    rw [assembleMsg_of_ofCode code v t hcode, errorOf_map, toBits_error_eq]
    cases t with
    | query =>
      simp only [MsgType.fields, Slots.toList, encodeFields_cons_error, encodeFields_nil_error, drField_error,
        mField_error, trextField_error, selField_error, sessionField_error, targetField_error, qField_error,
        ite_none_or]
    | queryAdjust =>
      simp only [MsgType.fields, Slots.toList, encodeFields_cons_error, encodeFields_nil_error, sessionField_error,
        updnField_error, ite_none_or]
    | queryRep =>
      simp only [MsgType.fields, Slots.toList, encodeFields_cons_error, encodeFields_nil_error, sessionField_error,
        ite_none_or]
    | ack =>
      simp only [MsgType.fields, Slots.toList, encodeFields_cons_error, encodeFields_nil_error, rn16Field_error,
        Option.none_or]
    | nak => rfl

/-- The encoder's form of a message is the form of its type and slots; slots past its fields do not matter. -/
theorem encode_ofMessage (t : MsgType) (v : Slots) : encode (Instr.ofMessage t v) = encodeMsg t v := by
  cases t <;> rfl

/-- Settles O21: a well-formed message assembles, and its sequence is what ASSEMBLE and the encoder write. -/
theorem assembleWritesTransmitBuffer : Obligations.AssembleWritesTransmitBuffer := by
  intro s t hcode hwf
  obtain ⟨b, hb⟩ := (ofMessage_wellFormed_iff t s.regs.field).mp hwf
  refine ⟨b, hb, by rw [encode_ofMessage, encodeMsg_eq_map, hb]; rfl, ?_⟩
  have hmsg : assembleMsg s.regs.msgType.toNat s.regs.field = .ok (t, b) := by
    rw [assembleMsg_of_ofCode _ _ t hcode, hb]
    rfl
  rcases execAssemble_cases s with ⟨e, he, -⟩ | ⟨t', b', hok, hexec⟩
  · cases hmsg.symm.trans he
  · cases hmsg.symm.trans hok
    exact hexec

/-- Settles O22: the error of the rules' lists is the assembly's, and ASSEMBLE completes with it. -/
theorem assembleErrorsWriteNothing : Obligations.AssembleErrorsWriteNothing := by
  intro s e h
  rw [assemblyError_eq, errorOf_eq_some_iff] at h
  rcases execAssemble_cases s with ⟨e', he, hexec⟩ | ⟨t, b, hok, -⟩
  · cases h.symm.trans he
    exact hexec
  · cases h.symm.trans hok

end Sys2Proof.Machine
end

section
/-! PROOFS. Reception: the receive buffer, the host command PARSE, and the messages it dispatches (42_message_mux.md
R207-R211, R222). -/

namespace Sys2Proof.Machine

/-- PARSE of a receive buffer that is not too long is the reception of the message dispatched. -/
theorem execParse_of_dispatch (s : State) (t : MsgType) (v : Slots) (hlen : s.regs.rxLen.toNat ≤ maxBits)
    (h : dispatch (rxSequence s.regs) = .ok (t, v)) : execParse s = .next (receive t v s) := by
  rcases execParse_cases s with ⟨hbad, -⟩ | ⟨e, -, he, -⟩ | ⟨t', v', -, hok, hexec⟩
  · omega
  · cases h.symm.trans he
  · cases h.symm.trans hok
    exact hexec

/-- The receive buffer holds RX_LEN elements. -/
theorem rxSequence_length (r : Regs) (h : r.rxLen.toNat ≤ 64) : (rxSequence r).length = r.rxLen.toNat := by
  rw [rxSequence, List.length_take_of_le (by rwa [unpackPair_length])]

/-- Element `j` of the receive buffer stands in RX_BITS0 from bit 31 down, then in RX_BITS1 (30_encoding.md R104). -/
theorem rxSequence_getElem? (r : Regs) (j : Nat) (h : r.rxLen.toNat ≤ 64) (hj : j < r.rxLen.toNat) :
    (rxSequence r)[j]? = some (if j < 32 then r.rxBits0.getLsbD (31 - j) else r.rxBits1.getLsbD (63 - j)) := by
  rw [rxSequence, List.getElem?_take_of_lt hj]
  by_cases hfirst : j < 32
  · rw [if_pos hfirst, unpackPair_getElem?_first _ _ j hfirst]
  · obtain ⟨i, rfl⟩ := Nat.exists_eq_add_of_le (Nat.le_of_not_lt hfirst)
    have hbit : 63 - (32 + i) = 31 - i := by omega
    rw [if_neg hfirst, unpackPair_getElem?_second _ _ i (by omega), hbit]

/-- Settles O23, by the cases of PARSE and the place of its operand's bits. -/
theorem parseRecordsDispatchedMessage : Obligations.ParseRecordsDispatchedMessage := by
  refine ⟨fun s hbad => ?param, fun s e hlen he => ?error, fun s t v hlen hok => ?received,
    fun r hlen => ⟨rxSequence_length r hlen, fun j hj => rxSequence_getElem? r j hlen hj⟩⟩
  case param =>
    rcases execParse_cases s with ⟨-, hexec⟩ | ⟨_, hlen, -⟩ | ⟨_, _, hlen, -⟩
    · exact hexec
    · exact absurd hlen (Nat.not_le.mpr hbad)
    · exact absurd hlen (Nat.not_le.mpr hbad)
  case error =>
    rcases execParse_cases s with ⟨hbad, -⟩ | ⟨e', -, he', hexec⟩ | ⟨t, v, -, hok, -⟩
    · exact absurd hbad (Nat.not_lt.mpr hlen)
    · cases he.symm.trans he'
      exact hexec
    · cases he.symm.trans hok
  case received => exact ⟨execParse_of_dispatch s t v hlen hok, dispatch_unusedSlotsZero _ t v hok⟩

/-- The meaning of a message instruction is the reception of its type and of its own slots, the others 0 (log 1). -/
theorem exec_ofMessage (t : MsgType) (v : Slots) (s : State) :
    exec (Instr.ofMessage t v) s = .next (receive t (Slots.ofList (v.toList.take t.fields.length)) s) := by
  cases t <;> rfl

theorem decodeCmd_of_op_four (w : Word) (h : cmdOp w = 4) : decodeCmd w = .parse := by
  rw [decodeCmd, h]
  rfl

/-- Settles O4: PARSE receives the message dispatched, and so does the message's own instruction. -/
theorem stepRunsDispatchedMessage : Obligations.StepRunsDispatchedMessage := by
  intro s i hrst hbusy hturn hop hlen hdecode
  obtain ⟨t, v, hdispatch, rfl⟩ := (decodeMsg_ok_iff _ i).mp hdecode
  have hengine : engineTurn s = true := (engineTurn_iff s).mpr ⟨(busy_iff s).mpr hbusy, hturn⟩
  calc step s = exec (fetch s) s := step_engine s hrst hengine
    _ = execParse s := by rw [fetch, decodeCmd_of_op_four _ hop]; rfl
    _ = .next (receive t v s) := execParse_of_dispatch s t v hlen hdispatch
    _ = exec (Instr.ofMessage t v) s := by rw [exec_ofMessage, dispatch_slots _ t v hdispatch]

/-- Settles O20: each message's meaning is its reception. -/
theorem receivedMessagesFillRxRegisters : Obligations.ReceivedMessagesFillRxRegisters := fun s =>
  ⟨fun dr m trext sel session target q => exec_ofMessage .query ⟨dr, m, trext, sel, session, target, q, 0⟩ s,
    fun session updn => exec_ofMessage .queryAdjust ⟨session, updn, 0, 0, 0, 0, 0, 0⟩ s,
    fun session => exec_ofMessage .queryRep ⟨session, 0, 0, 0, 0, 0, 0, 0⟩ s,
    fun rn16 => exec_ofMessage .ack ⟨rn16, 0, 0, 0, 0, 0, 0, 0⟩ s,
    exec_ofMessage .nak Slots.zero s⟩

end Sys2Proof.Machine
end

section
/-! PROOFS. How many pulses a sequence becomes (43_pie_encoder.md R253-R257). -/

namespace Sys2Proof.Machine

/-- Every data symbol is a high phase and a low phase (43_pie_encoder.md R253). -/
theorem dataSymbol_length (t : Nat) (b : Bool) : (dataSymbol t b).length = 2 := by
  cases b <;> rfl

theorem dataSymbols_length (t : Nat) (b : Bits) : (b.flatMap (dataSymbol t)).length = 2 * b.length := by
  induction b with
  | nil => rfl
  | cons x b ih =>
    rw [List.flatMap_cons, List.length_append, dataSymbol_length, ih, List.length_cons]
    omega

/-- Five pulses begin a frame, seven a Query's, and each bit is two (43_pie_encoder.md R257). -/
theorem toPulses_length (m : MsgType) (b : Bits) (dr : Code) (t blf : Nat) :
    (toPulses m b dr t blf).length = (if m = .query then 7 else 5) + 2 * b.length := by
  rw [toPulses, List.length_append, dataSymbols_length, apply_ite List.length]
  rfl

/-- Settles O24, by the length of an assembled sequence and the pulses per bit. -/
theorem messageWidthsAndPulseCounts : Obligations.MessageWidthsAndPulseCounts := by
  intro m v b dr t blf h
  have hlen := toBits_length m v b h
  rw [toPulses_length, hlen]
  cases m <;> exact ⟨rfl, rfl⟩

end Sys2Proof.Machine
end

section
/-! PROOFS. The pulses of a message, their truncation and their range, and the timing checks (43_pie_encoder.md
R252-R258). -/

namespace Sys2Proof.Machine

/-- The mask 0xFFFF0000 by its bits: the upper half alone. -/
theorem wholeMicrosMask_getLsbD (i : Nat) : (0xFFFF0000#32).getLsbD i = decide (16 ≤ i ∧ i < 32) := by
  have hmask : (0xFFFF0000#32) = BitVec.allOnes 32 <<< 16 := by decide
  rw [hmask, BitVec.getLsbD_shiftLeft, BitVec.getLsbD_allOnes, Bool.eq_iff_iff]
  simp only [Bool.and_eq_true, Bool.not_eq_true', decide_eq_true_eq, decide_eq_false_iff_not]
  omega

/-- Truncation clears the fraction's bits (43_pie_encoder.md R258). -/
theorem truncatePulse_eq_and (u : Nat) :
    BitVec.ofNat 32 (truncatePulse u) = BitVec.ofNat 32 u &&& 0xFFFF0000#32 := by
  apply BitVec.eq_of_getLsbD_eq
  intro i hi
  rw [BitVec.getLsbD_and, wholeMicrosMask_getLsbD, BitVec.getLsbD_ofNat, BitVec.getLsbD_ofNat, truncatePulse,
    Nat.testBit_mul_two_pow, Nat.testBit_div_two_pow]
  by_cases h : 16 ≤ i
  · simp [h, hi]
  · simp [h]

theorem truncatePulse_eq_sub (u : Nat) : truncatePulse u = u - u % 2 ^ 16 := by
  rw [truncatePulse]
  omega

/-- Settles O25, by the bits of the mask. -/
theorem truncationKeepsWholeMicroseconds : Obligations.TruncationKeepsWholeMicroseconds := by
  refine ⟨fun u _ => ⟨truncatePulse_eq_and u, ?_, ?_⟩, fun m b dr t blf => ⟨rfl, rfl⟩⟩
  · rw [truncatePulse_eq_sub]
    exact Nat.sub_le _ _
  · rw [truncatePulse_eq_sub]
    omega

/-- The symbol of a bit, its two phases written out (43_pie_encoder.md R253). -/
theorem dataSymbol_eq (t : Nat) : dataSymbol t = fun x => if x then [3 * t / 2, t / 2] else [t / 2, t / 2] := rfl

/-- The pulses of a message are those of the rules (43_pie_encoder.md R252-R257). -/
theorem toPulses_eq_pulseCodes (m : MsgType) (b : Bits) (dr : Code) (t blf : Nat) :
    toPulses m b dr t blf = pulseCodes m b dr t blf := by
  have hsync : frameSync t = [819200, t / 2, t / 2, 3 * t - t / 2, t / 2] := by rw [frameSync, delim_eq]; rfl
  rw [toPulses, pulseCodes, preamble, hsync, dataSymbol_eq]
  cases m <;> rfl

/-- The pulses ENCODE synthesises are those stored, truncated or not (43_pie_encoder.md R258). -/
theorem synthesise_eq_storedPulses (trunc : Bool) (m : MsgType) (b : Bits) (dr : Code) (t blf : Nat) :
    synthesise trunc m b dr t blf = storedPulses trunc (pulseCodes m b dr t blf) := by
  rw [synthesise, storedPulses, toPulses_eq_pulseCodes, funext truncatePulse_eq_sub]

/-- The encoder's TRC is the rule's (43_pie_encoder.md R255). -/
theorem divideRatioOver_eq_trcCode (dr : Code) (x : Nat) : divideRatioOver dr x = trcCode dr x := rfl

/-- The encoder's checks pass on the conditions of 43_pie_encoder.md R256. -/
theorem checkTiming_of_timingOk (m : MsgType) (dr : Code) (t blf : Nat) (h : timingOk m dr t blf) :
    checkTiming m dr t blf = .ok () := by
  obtain ⟨hmin, hmax, hquery⟩ := h
  rw [checkTiming, minTari_eq, maxTari_eq, divideRatioOver_eq_trcCode, pulseWidth,
    if_neg (not_not.mpr ⟨hmin, hmax⟩)]
  by_cases hm : m = .query
  · obtain ⟨hblf, hpulse, htrc⟩ := hquery hm
    rw [if_neg (not_not.mpr hm), if_neg hblf, if_neg (not_not.mpr hpulse), if_neg (not_not.mpr htrc)]
  · rw [if_pos hm]

/-- Whichever of the conditions of 43_pie_encoder.md R256 fails, the error is Param. -/
theorem checkTiming_of_not_timingOk (m : MsgType) (dr : Code) (t blf : Nat) (h : ¬timingOk m dr t blf) :
    checkTiming m dr t blf = .error .param := by
  rw [checkTiming, minTari_eq, maxTari_eq, divideRatioOver_eq_trcCode, pulseWidth]
  by_cases hwindow : 409600 ≤ t ∧ t ≤ 1638400
  · obtain ⟨hmin, hmax⟩ := hwindow
    have hquery : m = .query := by
      by_contra hm
      exact h ⟨hmin, hmax, fun hq => absurd hq hm⟩
    rw [if_neg (not_not.mpr ⟨hmin, hmax⟩), if_neg (not_not.mpr hquery)]
    split_ifs with hblf hpulse htrc
    · rfl
    · exact absurd ⟨hmin, hmax, fun _ => ⟨hblf, hpulse, htrc⟩⟩ h
    · rfl
    · rfl
  · rw [if_pos hwindow]

/-- With a legal timing every pulse is a code of 32 bits (43_pie_encoder.md R256). -/
theorem pulseCodes_lt (m : MsgType) (b : Bits) (dr : Code) (t blf : Nat) (h : timingOk m dr t blf) :
    ∀ u ∈ pulseCodes m b dr t blf, u < 2 ^ 32 := by
  obtain ⟨-, hmax, hquery⟩ := h
  intro u hu
  simp only [pulseCodes, List.mem_append, List.mem_flatMap] at hu
  rcases hu with (hsync | htrcal) | ⟨x, -, hdata⟩
  · simp only [List.mem_cons, List.not_mem_nil, or_false] at hsync
    omega
  · split at htrcal
    · rename_i hm
      obtain ⟨-, -, htrc⟩ := hquery hm
      simp only [List.mem_cons, List.not_mem_nil, or_false] at htrcal
      omega
    · cases htrcal
  · cases x with
    | false =>
      have hphase : u = t / 2 := by simpa using hdata
      omega
    | true =>
      have hphase : u = 3 * t / 2 ∨ u = t / 2 := by simpa using hdata
      omega

theorem storedPulses_lt (trunc : Bool) (l : List Nat) (h : ∀ u ∈ l, u < 2 ^ 32) :
    ∀ u ∈ storedPulses trunc l, u < 2 ^ 32 := by
  cases trunc with
  | false => exact h
  | true =>
    intro u hu
    obtain ⟨v, hv, rfl⟩ := List.mem_map.mp hu
    exact (Nat.sub_le _ _).trans_lt (h v hv)

/-- Codes written as words are read back, entry by entry, whatever the draw. -/
theorem wordRead_wordsWrite_codes (draw : Nat) (l : List Nat) (m : Memory) (a i u : Nat) (hu : l[i]? = some u)
    (hlt : u < 2 ^ 32) : (wordRead draw (wordsWrite m a (l.map (BitVec.ofNat 32))) (a + 4 * i)).toNat = u := by
  obtain ⟨hi, rfl⟩ := List.getElem?_eq_some_iff.mp hu
  rw [wordRead_wordsWrite draw _ m a i (by simpa using hi), List.getElem_map, BitVec.toNat_ofNat,
    Nat.mod_eq_of_lt hlt]

end Sys2Proof.Machine
end

section
/-! PROOFS. The host command ENCODE (43_pie_encoder.md R259). -/

namespace Sys2Proof.Machine

theorem assembleMsg_eq_ok (code : Nat) (v : Slots) (m : MsgType) (b : Bits) (hm : MsgType.ofCode code = some m)
    (hb : toBits m v = .ok b) : assembleMsg code v = .ok (m, b) := by
  rw [assembleMsg_of_ofCode code v m hm, hb]
  rfl

/-- The pulses that ENCODE stores for a message, by the registers it reads (43_pie_encoder.md R259). -/
def encodedPulses (m : MsgType) (b : Bits) (r : Regs) : List Nat :=
  storedPulses r.trunc (pulseCodes m b r.field.f0 r.tari.toNat r.blf.toNat)

theorem execEncode_of_assembly_error (s : State) (e : Err)
    (h : assembleMsg s.regs.msgType.toNat s.regs.field = .error e) : execEncode s = .next (complete e s) := by
  rw [execEncode, h]

section
variable {s : State} {m : MsgType} {b : Bits} (hmsg : assembleMsg s.regs.msgType.toNat s.regs.field = .ok (m, b))
include hmsg

theorem execEncode_of_timing_error (h : ¬timingOk m s.regs.field.f0 s.regs.tari.toNat s.regs.blf.toNat) :
    execEncode s = .next (complete .param s) := by
  simp only [execEncode, hmsg, checkTiming_of_not_timingOk _ _ _ _ h]

/-- ENCODE of a message with legal timing: Capacity, or the pulses from PULSE_MEM's first entry upwards. -/
theorem execEncode_of_timingOk (h : timingOk m s.regs.field.f0 s.regs.tari.toNat s.regs.blf.toNat) :
    execEncode s =
      if s.par.nPulse < (encodedPulses m b s.regs).length then .next (complete .capacity s)
      else .next (complete .none
        { s with regs := { writeTx m b s.regs with pulseCnt := BitVec.ofNat 7 (encodedPulses m b s.regs).length },
                 mem := wordsWrite s.mem pulseBase ((encodedPulses m b s.regs).map (BitVec.ofNat 32)) }) := by
  rw [execEncode, hmsg, encodedPulses, ← synthesise_eq_storedPulses]
  simp only [checkTiming_of_timingOk _ _ _ _ h]

end

/-- Settles O26: the pulses are the rules', fit their words, and are written as a run of words. -/
theorem encodeWritesPulses : Obligations.EncodeWritesPulses := by
  refine ⟨toPulses_eq_pulseCodes, ?_⟩
  rintro s m b p hm hb htiming rfl hfits
  refine ⟨wordsWrite s.mem pulseBase ((encodedPulses m b s.regs).map (BitVec.ofNat 32)), ?_, ?_, ?_⟩
  · exact (execEncode_of_timingOk (assembleMsg_eq_ok _ _ m b hm hb) htiming).trans (if_neg (Nat.not_lt.mpr hfits))
  · intro i u draw hu
    have hlt : u < 2 ^ 32 :=
      storedPulses_lt _ _ (pulseCodes_lt m b _ _ _ htiming) u (List.mem_of_getElem? hu)
    exact wordRead_wordsWrite_codes draw _ s.mem pulseBase i u hu hlt
  · intro a ha
    exact byteAt_wordsWrite_other _ s.mem pulseBase a (by rwa [List.length_map])

/-- Settles O27: ENCODE's three checks in their order, each with the completion alone. -/
theorem encodeErrorsWriteNothing : Obligations.EncodeErrorsWriteNothing := by
  refine ⟨fun s e he => ?_, fun s m hm hwf htiming => ?_, fun s m b hm hb htiming hfull => ?_⟩
  · rw [assemblyError_eq, errorOf_eq_some_iff] at he
    exact execEncode_of_assembly_error s e he
  · obtain ⟨b, hb⟩ := (ofMessage_wellFormed_iff m s.regs.field).mp hwf
    exact execEncode_of_timing_error (assembleMsg_eq_ok _ _ m b hm hb) htiming
  · exact (execEncode_of_timingOk (assembleMsg_eq_ok _ _ m b hm hb) htiming).trans (if_pos hfull)

end Sys2Proof.Machine
end

section
/-! PROOFS. The decode session over the symbol intervals of an encoded frame (43_pie_encoder.md R260, 44_edge_decoder.md
R300-R307). -/

namespace Sys2Proof.Machine

/-- The interval of a symbol of an even Tari: one Tari for 0, two for 1 (43_pie_encoder.md R260). -/
theorem symbolTotal_eq (t : Nat) (b : Bool) (heven : t % 2 = 0) : symbolTotal t b = if b then 2 * t else t := by
  cases b <;> simp [symbolTotal, dataSymbol, data0Symbol, data1Symbol, pulseWidth] <;> omega

/-- The session right after its calibrating pair, the first two durations of the frame (44_edge_decoder.md R302). -/
def calibratedSession (tari rtCal : Nat) : Session :=
  { Session.fresh with phase := .awaitTRcalOrData, tari := some tari, rtCal := some rtCal, used := 2 }

/-- A first pair that calibrates (44_edge_decoder.md R301, R302). -/
theorem fromEdges_of_calibrating_pair (cmdEnd rtTol trTol p r : Nat) (ds : List Nat) (hp : p ≤ cmdEnd)
    (hr : r ≤ cmdEnd) (htari : inTari p = true) (hrt : inRT rtTol p r = true) :
    fromEdges cmdEnd rtTol trTol (p :: r :: ds) =
      runSession cmdEnd rtTol trTol ds (some r) (calibratedSession p r) := by
  simp [fromEdges, runSession, Nat.not_lt.mpr hp, Nat.not_lt.mpr hr, sessionStep, htari, hrt, Session.fresh,
    calibratedSession]

/-- A duration in the TRcal band is TRcal and no bit (44_edge_decoder.md R304). -/
theorem runSession_cons_of_inTR (cmdEnd rtTol trTol d r : Nat) (ds : List Nat) (prev : Option Nat) (x : Session)
    (hphase : x.phase = .awaitTRcalOrData) (hrt : x.rtCal = some r) (hd : d ≤ cmdEnd)
    (hband : inTR trTol r d = true) :
    runSession cmdEnd rtTol trTol (d :: ds) prev x =
      runSession cmdEnd rtTol trTol ds (some d) { x with used := x.used + 1, trCal := some d, phase := .data } := by
  rw [runSession, if_neg (Nat.not_lt.mpr hd)]
  simp only [sessionStep, hphase, hrt, Option.getD_some, hband, if_true]

/-- A duration outside the TRcal band is the first data bit (44_edge_decoder.md R304, R305). -/
theorem runSession_cons_of_not_inTR (cmdEnd rtTol trTol d r : Nat) (ds : List Nat) (prev : Option Nat) (x : Session)
    (hphase : x.phase = .awaitTRcalOrData) (hrt : x.rtCal = some r) (hd : d ≤ cmdEnd)
    (hband : inTR trTol r d = false) :
    runSession cmdEnd rtTol trTol (d :: ds) prev x =
      runSession cmdEnd rtTol trTol (d :: ds) prev { x with phase := .data } := by
  rw [runSession, runSession, if_neg (Nat.not_lt.mpr hd), if_neg (Nat.not_lt.mpr hd)]
  simp only [sessionStep, hphase, hrt, Option.getD_some, hband, Bool.false_eq_true, if_false, classify, pushBit]
  by_cases hroom : x.bits.length < maxBits
  · rw [if_pos hroom, if_pos hroom]
  · rw [if_neg hroom, if_neg hroom]

/-- In the data phase a duration is a bit, appended while the buffer has room (44_edge_decoder.md R305). -/
theorem runSession_cons_of_data (cmdEnd rtTol trTol d r : Nat) (ds : List Nat) (prev : Option Nat) (x : Session)
    (hphase : x.phase = .data) (hrt : x.rtCal = some r) (hd : d ≤ cmdEnd) (hroom : x.bits.length < 64) :
    runSession cmdEnd rtTol trTol (d :: ds) prev x =
      runSession cmdEnd rtTol trTol ds (some d)
        { x with used := x.used + 1, bits := x.bits ++ [decide (r < 2 * d)] } := by
  rw [runSession, if_neg (Nat.not_lt.mpr hd)]
  simp only [sessionStep, hphase, pushBit, maxBits, if_pos hroom, classify, hrt, Option.getD_some]

/-- No data symbol is longer than RTcal, so none ends the command (44_edge_decoder.md R306). -/
theorem symbolTotal_le (cmdEnd t : Nat) (b : Bool) (heven : t % 2 = 0) (hend : 3 * t ≤ cmdEnd) :
    symbolTotal t b ≤ cmdEnd := by
  rw [symbolTotal_eq t b heven]
  split <;> omega

section
variable (cmdEnd rtTol t : Nat) (hpos : 0 < t) (heven : t % 2 = 0) (hend : 3 * t ≤ cmdEnd)
include hpos heven

/-- Half of RTcal separates the two symbols (44_edge_decoder.md R305). -/
theorem threshold_symbolTotal (b : Bool) : decide (3 * t < 2 * symbolTotal t b) = b := by
  rw [symbolTotal_eq t b heven]
  cases b
  · exact decide_eq_false (by rw [if_neg Bool.false_ne_true]; omega)
  · exact decide_eq_true (by rw [if_pos rfl]; omega)

/-- No data symbol reaches the TRcal band's lower end of 1.1 RTcal (44_edge_decoder.md R304). -/
theorem inTR_symbolTotal (b : Bool) : inTR 0 (3 * t) (symbolTotal t b) = false := by
  rw [inTR, symbolTotal_eq t b heven, decide_eq_false_iff_not]
  split <;> omega

include hend

/-- The symbols of a sequence append it to the bits of a session in its data phase. -/
theorem runSession_symbolTotals (trTol : Nat) (b : Bits) (prev : Option Nat) (x : Session) (hphase : x.phase = .data)
    (hrt : x.rtCal = some (3 * t)) (hroom : x.bits.length + b.length ≤ 64) :
    runSession cmdEnd rtTol trTol (b.map (symbolTotal t)) prev x =
      { x with used := x.used + b.length, bits := x.bits ++ b } := by
  induction b generalizing prev x with
  | nil => simp [runSession]
  | cons c b ih =>
    rw [List.length_cons] at hroom
    rw [List.map_cons, runSession_cons_of_data cmdEnd rtTol trTol _ _ _ prev x hphase hrt
        (symbolTotal_le cmdEnd t c heven hend) (by omega),
      threshold_symbolTotal t hpos heven c, ih]
    · simp only [List.length_cons, List.append_assoc, List.singleton_append, Nat.add_assoc, Nat.add_comm 1]
    · exact hphase
    · exact hrt
    · rw [List.length_append, List.length_singleton]
      omega

/-- From the phase before too the session ends with the sequence: with TR_TOL = 0 its first symbol is no TRcal. -/
theorem runSession_symbolTotals_awaiting (b : Bits) (prev : Option Nat) (x : Session)
    (hphase : x.phase = .awaitTRcalOrData) (hrt : x.rtCal = some (3 * t)) (hroom : x.bits.length + b.length ≤ 64) :
    runSession cmdEnd rtTol 0 (b.map (symbolTotal t)) prev x =
      { x with phase := if b = [] then x.phase else .data, used := x.used + b.length, bits := x.bits ++ b } := by
  cases b with
  | nil => simp [runSession]
  | cons c b =>
    rw [List.map_cons, runSession_cons_of_not_inTR cmdEnd rtTol 0 _ _ _ prev x hphase hrt
        (symbolTotal_le cmdEnd t c heven hend) (inTR_symbolTotal t hpos heven c),
      ← List.map_cons,
      runSession_symbolTotals cmdEnd rtTol t hpos heven hend 0 (c :: b) prev { x with phase := .data } rfl hrt hroom,
      if_neg (List.cons_ne_nil c b)]

end

/-- Settles O39: the first pair calibrates, a TRcal in its band is taken, and each symbol is its bit. -/
theorem symbolIntervalsDecodeBack : Obligations.SymbolIntervalsDecodeBack := by
  intro cmdEnd t b hmin hmax heven hend hlen
  have hpos : 0 < t := by omega
  have htari : inTari t = true := by
    rw [inTari, minTari_eq, maxTari_eq]
    exact decide_eq_true ⟨hmin, hmax⟩
  have hband : inRT 0 t (3 * t) = true := decide_eq_true (by omega)
  have hcalibrated : ∀ ds, fromEdges cmdEnd 0 0 (symbolTotal t false :: 3 * t :: ds) =
      runSession cmdEnd 0 0 ds (some (3 * t)) (calibratedSession t (3 * t)) := fun ds => by
    rw [symbolTotal_eq t false heven]
    exact fromEdges_of_calibrating_pair cmdEnd 0 0 t (3 * t) ds (by omega) hend htari hband
  have hroom : (calibratedSession t (3 * t)).bits.length + b.length ≤ 64 := by
    rwa [calibratedSession, Session.fresh, List.length_nil, Nat.zero_add]
  rw [hcalibrated, runSession_symbolTotals_awaiting cmdEnd 0 t hpos heven hend b _ _ rfl rfl hroom]
  refine ⟨rfl, rfl, rfl, fun trc hlow hhigh htrcEnd => ?_⟩
  have htrcal : inTR 0 (3 * t) trc = true := decide_eq_true (by omega)
  rw [hcalibrated, runSession_cons_of_inTR cmdEnd 0 0 trc (3 * t) _ _ _ rfl rfl htrcEnd htrcal,
    runSession_symbolTotals cmdEnd 0 t hpos heven hend]
  · exact ⟨rfl, rfl⟩
  · rfl
  · rfl
  · exact hroom

end Sys2Proof.Machine
end

section
/-! PROOFS. Calibration of a decode session: which pairs calibrate, the durations before the first pair that does, the
end of a command, and the bits after the pair (44_edge_decoder.md R300-R307, R324). -/

namespace Sys2Proof.Machine

/-- Whether an adjacent pair of durations calibrates a session (44_edge_decoder.md R301, R302). -/
def calibrates (rtTol p d : Nat) : Bool := inTari p && inRT rtTol p d

theorem calibrates_iff (rtTol p d : Nat) :
    calibrates rtTol p d = true ↔ (409600 ≤ p ∧ p ≤ 1638400) ∧ 5 * p ≤ 2 * d + 2 * rtTol ∧ d ≤ 3 * p + rtTol := by
  rw [calibrates, inTari, inRT, minTari_eq, maxTari_eq, Bool.and_eq_true, decide_eq_true_eq, decide_eq_true_eq]

theorem calibrates_eq_false_iff (rtTol p d : Nat) :
    calibrates rtTol p d = false ↔
      p < 409600 ∨ 1638400 < p ∨ 2 * d + 2 * rtTol < 5 * p ∨ 3 * p + rtTol < d := by
  rw [← Bool.not_eq_true, calibrates_iff]
  omega

/-- No adjacent pair of a sequence of durations calibrates. -/
def Uncalibrated (rtTol : Nat) (l : List Nat) : Prop := l.IsChain fun p d => calibrates rtTol p d = false

theorem uncalibrated_of_getElem? (rtTol : Nat) (l : List Nat)
    (h : ∀ i p d, l[i]? = some p → l[i + 1]? = some d →
      p < 409600 ∨ 1638400 < p ∨ 2 * d + 2 * rtTol < 5 * p ∨ 3 * p + rtTol < d) : Uncalibrated rtTol l := by
  rw [Uncalibrated, List.isChain_iff_getElem]
  intro i hi
  exact (calibrates_eq_false_iff _ _ _).mpr
    (h i _ _ (List.getElem?_eq_getElem (Nat.lt_of_succ_lt hi)) (List.getElem?_eq_getElem hi))

/-- A session in progress, as each duration that does not end the command continues it (44_edge_decoder.md R307). -/
theorem runSession_cons (cmdEnd rtTol trTol d : Nat) (ds : List Nat) (prev : Option Nat) (x : Session)
    (hd : d ≤ cmdEnd) :
    runSession cmdEnd rtTol trTol (d :: ds) prev x =
      runSession cmdEnd rtTol trTol ds (some d) (sessionStep rtTol trTol prev d { x with used := x.used + 1 }) := by
  rw [runSession, if_neg (Nat.not_lt.mpr hd)]

/-- A duration that calibrates with none before it leaves the session waiting (44_edge_decoder.md R302). -/
theorem sessionStep_of_uncalibrated (rtTol trTol d : Nat) (prev : Option Nat) (x : Session)
    (hphase : x.phase = .awaitRTcal) (h : ∀ p ∈ prev, calibrates rtTol p d = false) :
    sessionStep rtTol trTol prev d x = x := by
  cases prev with
  | none => simp only [sessionStep, hphase]
  | some p =>
    have hp : (inTari p && inRT rtTol p d) = false := h p rfl
    simp only [sessionStep, hphase, hp, Bool.false_eq_true, if_false]

/-- Durations of which no adjacent pair calibrates are used and change nothing else (44_edge_decoder.md R307). -/
theorem runSession_append_of_uncalibrated (cmdEnd rtTol trTol : Nat) (ds rest : List Nat) (prev : Option Nat)
    (x : Session) (hphase : x.phase = .awaitRTcal) (hend : ∀ d ∈ ds, d ≤ cmdEnd)
    (h : Uncalibrated rtTol (prev.toList ++ ds)) :
    runSession cmdEnd rtTol trTol (ds ++ rest) prev x =
      runSession cmdEnd rtTol trTol rest (prev.toList ++ ds).getLast? { x with used := x.used + ds.length } := by
  induction ds generalizing prev x with
  | nil => cases prev <;> rfl
  | cons d ds ih =>
    obtain ⟨-, htail, hpair⟩ := List.isChain_append.mp h
    have hstep := sessionStep_of_uncalibrated rtTol trTol d prev { x with used := x.used + 1 } hphase
      fun p hp => hpair p (by cases hp; rfl) d rfl
    have hlast : (prev.toList ++ d :: ds).getLast? = (d :: ds).getLast? :=
      List.getLast?_append_of_ne_nil _ (List.cons_ne_nil d ds)
    rw [List.cons_append, runSession_cons cmdEnd rtTol trTol d _ prev x (hend d List.mem_cons_self), hstep,
      ih (some d) { x with used := x.used + 1 } hphase (fun e he => hend e (List.mem_cons_of_mem d he)) htail, hlast,
      List.length_cons, Nat.add_assoc, Nat.add_comm 1]
    rfl

/-- A sub-sequence of which no pair calibrates leaves the session as it began (44_edge_decoder.md R307). -/
theorem fromEdges_of_uncalibrated (cmdEnd rtTol trTol : Nat) (sub : List Nat) (hend : ∀ d ∈ sub, d ≤ cmdEnd)
    (h : Uncalibrated rtTol sub) :
    fromEdges cmdEnd rtTol trTol sub = { Session.fresh with used := sub.length } := by
  have hrun := runSession_append_of_uncalibrated cmdEnd rtTol trTol sub [] none Session.fresh rfl hend h
  rw [List.append_nil] at hrun
  rw [fromEdges, hrun, runSession, Session.fresh, Nat.zero_add]

/-- The session at the first pair that calibrates, whatever stands before it (44_edge_decoder.md R302). -/
theorem fromEdges_of_first_calibrating_pair (cmdEnd rtTol trTol p r : Nat) (pre ds : List Nat)
    (hend : ∀ d ∈ pre ++ [p], d ≤ cmdEnd) (hr : r ≤ cmdEnd) (hpre : Uncalibrated rtTol (pre ++ [p]))
    (hpair : calibrates rtTol p r = true) :
    fromEdges cmdEnd rtTol trTol (pre ++ p :: r :: ds) =
      runSession cmdEnd rtTol trTol ds (some r) { calibratedSession p r with used := pre.length + 2 } := by
  have hrun := runSession_append_of_uncalibrated cmdEnd rtTol trTol (pre ++ [p]) (r :: ds) none Session.fresh rfl hend
    hpre
  have hlast : ((none : Option Nat).toList ++ (pre ++ [p])).getLast? = some p := by
    rw [Option.toList_none, List.nil_append, List.getLast?_concat]
  rw [List.append_assoc, List.singleton_append, hlast, runSession_cons cmdEnd rtTol trTol r ds _ _ hr] at hrun
  rw [fromEdges, hrun]
  have hband : (inTari p && inRT rtTol p r) = true := hpair
  simp only [sessionStep, Session.fresh, hband, if_true, calibratedSession, List.length_append, List.length_singleton,
    Nat.zero_add]

/-- In the data phase a duration that finds the buffer full is no bit and sets BITOVF (44_edge_decoder.md R305). -/
theorem runSession_cons_of_full (cmdEnd rtTol trTol d : Nat) (ds : List Nat) (prev : Option Nat) (x : Session)
    (hphase : x.phase = .data) (hd : d ≤ cmdEnd) (hfull : x.bits.length = 64) :
    runSession cmdEnd rtTol trTol (d :: ds) prev x =
      runSession cmdEnd rtTol trTol ds (some d) { x with used := x.used + 1, bitovf := true } := by
  rw [runSession_cons cmdEnd rtTol trTol d ds prev x hd]
  simp only [sessionStep, hphase, pushBit, hfull, maxBits, Nat.lt_irrefl, if_false]

/-- In the data phase every duration is a bit: the buffer keeps the first 64, and BITOVF says whether more came
(44_edge_decoder.md R305). -/
theorem runSession_data (cmdEnd rtTol trTol r : Nat) (ds : List Nat) (prev : Option Nat) (x : Session)
    (hphase : x.phase = .data) (hrt : x.rtCal = some r) (hend : ∀ d ∈ ds, d ≤ cmdEnd) (hlen : x.bits.length ≤ 64) :
    runSession cmdEnd rtTol trTol ds prev x =
      { x with
        used := x.used + ds.length, bits := (x.bits ++ ds.map fun d => decide (r < 2 * d)).take 64,
        bitovf := x.bitovf || decide (64 < x.bits.length + ds.length) } := by
  induction ds generalizing prev x with
  | nil => simp [runSession, List.take_of_length_le hlen, Nat.not_lt.mpr hlen]
  | cons d ds ih =>
    have hd : d ≤ cmdEnd := hend d List.mem_cons_self
    have htail : ∀ e ∈ ds, e ≤ cmdEnd := fun e he => hend e (List.mem_cons_of_mem d he)
    rcases Nat.lt_or_eq_of_le hlen with hroom | hfull
    · rw [runSession_cons_of_data cmdEnd rtTol trTol d r ds prev x hphase hrt hd hroom]
      rw [ih _ { x with used := x.used + 1, bits := x.bits ++ [decide (r < 2 * d)] } hphase hrt htail
        (by rw [List.length_append, List.length_singleton]; exact hroom)]
      simp only [List.map_cons, List.length_cons, List.append_assoc, List.singleton_append, List.length_append,
        List.length_nil, Nat.zero_add, Nat.add_assoc, Nat.add_comm 1]
    · rw [runSession_cons_of_full cmdEnd rtTol trTol d ds prev x hphase hd hfull,
        ih _ { x with used := x.used + 1, bitovf := true } hphase hrt htail hlen]
      simp [List.take_append_of_le_length hfull.ge, hfull, Nat.add_assoc, Nat.add_comm 1]

/-- The first duration above CMD_END ends the command (44_edge_decoder.md R306). -/
theorem runSession_append_of_commandEnd (cmdEnd rtTol trTol d : Nat) (pre post : List Nat) (prev : Option Nat)
    (x : Session) (hpre : ∀ e ∈ pre, e ≤ cmdEnd) (hd : cmdEnd < d) :
    runSession cmdEnd rtTol trTol (pre ++ d :: post) prev x =
      { runSession cmdEnd rtTol trTol pre prev x with term := true } := by
  induction pre generalizing prev x with
  | nil => simp only [List.nil_append, runSession, if_pos hd]
  | cons e pre ih =>
    have he : e ≤ cmdEnd := hpre e List.mem_cons_self
    rw [List.cons_append, runSession_cons _ _ _ e _ prev x he, runSession_cons _ _ _ e _ prev x he,
      ih _ _ fun f hf => hpre f (List.mem_cons_of_mem e hf)]

/-- Settles O34, by induction on the durations before the one that ends the command. -/
theorem commandEndStopsSession : Obligations.CommandEndStopsSession :=
  fun cmdEnd rtTol trTol d pre post hpre hd =>
    runSession_append_of_commandEnd cmdEnd rtTol trTol d pre post none Session.fresh hpre hd

/-- Settles O32: inside the closed band the pair is the first that calibrates, outside it none does. -/
theorem toleranceBoundary : Obligations.ToleranceBoundary := by
  intro cmdEnd trTol p d hp hd hmin hmax
  constructor
  · intro hband
    have hpair : calibrates 0 p d = true := (calibrates_iff 0 p d).mpr ⟨⟨hmin, hmax⟩, hband⟩
    obtain ⟨htari, hrt⟩ := Bool.and_eq_true_iff.mp hpair
    rw [fromEdges_of_calibrating_pair cmdEnd 0 trTol p d [] hp hd htari hrt]
    exact ⟨rfl, rfl⟩
  · intro hout
    have hpair : Uncalibrated 0 [p, d] :=
      List.isChain_pair.mpr ((calibrates_eq_false_iff 0 p d).mpr (by omega))
    rw [fromEdges_of_uncalibrated cmdEnd 0 trTol [p, d] (by simp [hp, hd]) hpair]
    exact ⟨rfl, rfl⟩

/-- Settles O33: the durations up to the pair change nothing but the count; after it TRcal, if it is there, then
`runSession_data`. -/
theorem dataBitsFollowThreshold : Obligations.DataBitsFollowThreshold := by
  rintro cmdEnd rtTol trTol p r pre ds hmin hmax hlow hhigh hend hpre q data y hq rfl
  have hpair : calibrates rtTol p r = true := (calibrates_iff rtTol p r).mpr ⟨⟨hmin, hmax⟩, hlow, hhigh⟩
  simp only [List.mem_append, List.mem_cons] at hend
  have hds : ∀ d ∈ ds, d ≤ cmdEnd := fun d hd => hend d (.inr (.inr (.inr hd)))
  rw [fromEdges_of_first_calibrating_pair cmdEnd rtTol trTol p r pre ds
    (fun d hd => hend d (by simp only [List.mem_append, List.mem_singleton] at hd; tauto)) (hend r (by tauto))
    (uncalibrated_of_getElem? rtTol _ hpre) hpair]
  rcases hq with ⟨rfl, d, rfl, hband⟩ | ⟨rfl, rfl, hband⟩
  · rw [runSession_cons_of_inTR cmdEnd rtTol trTol d r data _ _ rfl rfl (hds d List.mem_cons_self)
        (decide_eq_true hband),
      runSession_data cmdEnd rtTol trTol r data]
    · refine ⟨rfl, rfl, rfl, rfl, congrArg (decide <| 64 < ·) (Nat.zero_add _), ?_, rfl⟩
      show pre.length + 2 + 1 + data.length = pre.length + (data.length + 1) + 2
      omega
    · rfl
    · rfl
    · exact fun e he => hds e (List.mem_cons_of_mem d he)
    · exact Nat.zero_le 64
  · cases data with
    | nil => exact ⟨rfl, rfl, rfl, rfl, rfl, rfl, rfl⟩
    | cons d data =>
      rw [runSession_cons_of_not_inTR cmdEnd rtTol trTol d r data _ _ rfl rfl (hds d List.mem_cons_self)
          (decide_eq_false (by have := hband d rfl; omega)),
        runSession_data cmdEnd rtTol trTol r (d :: data)]
      · refine ⟨rfl, rfl, rfl, rfl, congrArg (decide <| 64 < ·) (Nat.zero_add _),
          Nat.add_right_comm pre.length 2 _, rfl⟩
      · rfl
      · rfl
      · exact hds
      · exact Nat.zero_le 64

/-- Settles O35: the session is a fresh one, and no message is dispatched from its empty buffer. -/
theorem uncalibratedRecordsNotFound : Obligations.UncalibratedRecordsNotFound := by
  intro cmdEnd rtTol trTol start sub hend hpairs
  rw [recordWords, fromEdges_of_uncalibrated cmdEnd rtTol trTol sub hend (uncalibrated_of_getElem? rtTol sub hpairs)]
  have hdispatch : dispatch [] = .error .notFound := rfl
  refine ⟨rfl, rfl, ?_⟩
  simp [hdispatch, flagsOf_error, recordFlags, flagBit, observedBlf, Session.fresh, Err.code]

end Sys2Proof.Machine
end

section
/-! PROOFS. The observed backscatter frequency (44_edge_decoder.md R311). -/

namespace Sys2Proof.Machine

/-- Settles O36, by the dispatch result and the TRcal. -/
theorem backscatterFrequency : Obligations.BackscatterFrequency := by
  refine ⟨fun v r hr => ?_, fun v => ?_, fun res => ?_, fun e r => rfl, fun t v r ht => ?_⟩
  · simp only [observedBlf, hr, true_and, divideRatioOver_eq_trcCode]
  · rfl
  · rcases res with e | ⟨t, v⟩
    · rfl
    · cases t <;> rfl
  · cases t with
    | query => exact absurd rfl ht
    | queryAdjust | queryRep | ack | nak => rfl

end Sys2Proof.Machine
end

section
/-! PROOFS. The split at idle gaps (44_edge_decoder.md R297, R321). -/

namespace Sys2Proof.Machine

/-- Every stream of durations is gap-free, or a gap-free part, a gap and a stream. -/
theorem gap_induction {motive : List Nat → Prop} (gapFree : ∀ es, (∀ e ∈ es, e ≤ 16384000) → motive es)
    (gap : ∀ pre g post, (∀ e ∈ pre, e ≤ 16384000) → 16384000 < g → motive post → motive (pre ++ g :: post))
    (es : List Nat) : motive es := by
  suffices h : ∀ pre, (∀ e ∈ pre, e ≤ 16384000) → motive (pre ++ es) from h [] nofun
  induction es with
  | nil =>
    intro pre hpre
    rw [List.append_nil]
    exact gapFree pre hpre
  | cons e es ih =>
    intro pre hpre
    rcases Nat.lt_or_ge 16384000 e with he | he
    · exact gap pre e es hpre he (ih [] nofun)
    · rw [List.append_cons]
      refine ih _ fun x hx => ?_
      rcases List.mem_append.mp hx with hx | hx
      · exact hpre x hx
      · rw [List.mem_singleton.mp hx]
        exact he

theorem closeSub_of_ne_nil (start : Nat) (cur : List Nat) (h : cur ≠ []) : closeSub start cur = [(start, cur)] := by
  rw [closeSub, if_neg (by simpa using h)]

theorem mem_closeSub (start : Nat) (cur : List Nat) (p : Nat × List Nat) :
    p ∈ closeSub start cur ↔ cur ≠ [] ∧ p = (start, cur) := by
  cases cur <;> simp [closeSub]

theorem closeSub_flatMap (start : Nat) (cur : List Nat) : (closeSub start cur).flatMap (·.2) = cur := by
  cases cur <;> simp [closeSub]

theorem splitFrom_cons_gap (i start g : Nat) (cur es : List Nat) (hg : 16384000 < g) :
    splitFrom i start cur (g :: es) = closeSub start cur ++ splitFrom (i + 1) start [] es := by
  rw [← maxSymbol_eq] at hg
  simp only [splitFrom, if_pos hg]

theorem splitFrom_cons_symbol (i start e : Nat) (cur es : List Nat) (he : e ≤ 16384000) :
    splitFrom i start cur (e :: es) = splitFrom (i + 1) (if cur.isEmpty then i else start) (cur ++ [e]) es := by
  rw [← maxSymbol_eq, ← Nat.not_lt] at he
  simp only [splitFrom, if_neg he]

/-- Durations that are no gap go on with the open sub-sequence, or open one (44_edge_decoder.md R297). -/
theorem splitFrom_of_gapFree (i start : Nat) (cur es : List Nat) (h : ∀ e ∈ es, e ≤ 16384000) :
    splitFrom i start cur es = closeSub (if cur.isEmpty then i else start) (cur ++ es) := by
  induction es generalizing i start cur with
  | nil => cases cur <;> simp [splitFrom, closeSub]
  | cons e es ih =>
    rw [splitFrom_cons_symbol i start e cur es (h e List.mem_cons_self),
      ih _ _ _ fun x hx => h x (List.mem_cons_of_mem e hx), List.append_assoc, List.singleton_append]
    congr 1
    cases cur <;> rfl

/-- A stream with no gap is one sub-sequence, if it is not empty. -/
theorem splitEdges_of_gapFree (es : List Nat) (h : ∀ e ∈ es, e ≤ 16384000) : splitEdges es = closeSub 0 es := by
  rw [splitEdges, splitFrom_of_gapFree 0 0 [] es h]
  rfl

/-- With no sub-sequence open the start carried along is not used. -/
theorem splitFrom_start (i start start' : Nat) (es : List Nat) :
    splitFrom i start [] es = splitFrom i start' [] es := by
  induction es generalizing i with
  | nil => rfl
  | cons e es ih =>
    rcases Nat.lt_or_ge 16384000 e with he | he
    · rw [splitFrom_cons_gap i start e [] es he, splitFrom_cons_gap i start' e [] es he, ih]
      rfl
    · rw [splitFrom_cons_symbol i start e [] es he, splitFrom_cons_symbol i start' e [] es he]
      rfl

/-- The start indices move with the index of the first duration. -/
theorem splitFrom_shift (k i start : Nat) (cur es : List Nat) :
    splitFrom (i + k) (start + k) cur es = (splitFrom i start cur es).map fun p => (p.1 + k, p.2) := by
  induction es generalizing i start cur with
  | nil => cases cur <;> simp [splitFrom, closeSub]
  | cons e es ih =>
    have hclose : closeSub (start + k) cur = (closeSub start cur).map fun p => (p.1 + k, p.2) := by
      cases cur <;> simp [closeSub]
    rcases Nat.lt_or_ge 16384000 e with he | he
    · rw [splitFrom_cons_gap _ _ e cur es he, splitFrom_cons_gap _ _ e cur es he, Nat.add_right_comm, hclose, ih,
        List.map_append]
    · rw [splitFrom_cons_symbol _ _ e cur es he, splitFrom_cons_symbol _ _ e cur es he, Nat.add_right_comm, ← ih]
      congr 1
      cases cur <;> rfl

/-- A gap closes the open sub-sequence, and the split begins again behind it (44_edge_decoder.md R297). -/
theorem splitFrom_append_gap (i start g : Nat) (cur es fs : List Nat) (hg : 16384000 < g) :
    splitFrom i start cur (es ++ g :: fs) = splitFrom i start cur es ++ splitFrom (i + es.length + 1) 0 [] fs := by
  induction es generalizing i start cur with
  | nil =>
    rw [List.nil_append, splitFrom_cons_gap i start g cur fs hg, splitFrom_start (i + 1) start 0, splitFrom]
    rfl
  | cons e es ih =>
    rw [List.cons_append, List.length_cons, ← Nat.add_assoc, Nat.add_right_comm i]
    rcases Nat.lt_or_ge 16384000 e with he | he
    · rw [splitFrom_cons_gap i start e cur _ he, splitFrom_cons_gap i start e cur _ he, ih, List.append_assoc]
    · rw [splitFrom_cons_symbol i start e cur _ he, splitFrom_cons_symbol i start e cur _ he, ih]

/-- Settles O31: the split begins again behind the gap, with the start indices moved past it. -/
theorem gapSeparatesCommands : Obligations.GapSeparatesCommands := by
  intro es fs g hg
  have hshift := splitFrom_shift (es.length + 1) 0 0 [] fs
  rw [splitEdges, splitFrom_append_gap 0 0 g [] es fs hg, splitEdges, splitEdges, Nat.add_assoc,
    splitFrom_start _ 0 (0 + (es.length + 1)) fs, hshift]
  rfl

/-- What R297 asks of a sub-sequence and its start index. -/
def IsSubSequence (es : List Nat) (p : Nat × List Nat) : Prop :=
  p.2 ≠ [] ∧ (∀ e ∈ p.2, e ≤ 16384000) ∧ (es.drop p.1).take p.2.length = p.2 ∧
    (p.1 = 0 ∨ ∃ g, es[p.1 - 1]? = some g ∧ 16384000 < g) ∧
    (p.1 + p.2.length = es.length ∨ ∃ g, es[p.1 + p.2.length]? = some g ∧ 16384000 < g)

/-- The part before the first gap is a sub-sequence. -/
theorem isSubSequence_before_gap (pre post : List Nat) (g : Nat) (hpre : ∀ e ∈ pre, e ≤ 16384000)
    (hg : 16384000 < g) (hne : pre ≠ []) : IsSubSequence (pre ++ g :: post) (0, pre) := by
  refine ⟨hne, hpre, ?_, .inl rfl, .inr ⟨g, ?_, hg⟩⟩
  · rw [List.drop_zero, List.take_left]
  · rw [Nat.zero_add, List.getElem?_append_right (Nat.le_refl _), Nat.sub_self, List.getElem?_cons_zero]

/-- A sub-sequence of the stream behind a gap is one of the whole stream. -/
theorem isSubSequence_after_gap (pre post : List Nat) (g : Nat) (hg : 16384000 < g) (p : Nat × List Nat)
    (h : IsSubSequence post p) : IsSubSequence (pre ++ g :: post) (p.1 + pre.length + 1, p.2) := by
  obtain ⟨start, sub⟩ := p
  obtain ⟨hne, hsub, hstand, hleft, hright⟩ := h
  have hget : ∀ i, (pre ++ g :: post)[i + pre.length + 1]? = post[i]? := fun i => by
    rw [List.getElem?_append_right (by omega), show i + pre.length + 1 - pre.length = i + 1 by omega,
      List.getElem?_cons_succ]
  refine ⟨hne, hsub, ?_, .inr ?_, ?_⟩
  · have hdrop : (pre ++ g :: post).drop (start + pre.length + 1) = post.drop start := by
      rw [show start + pre.length + 1 = pre.length + (start + 1) by omega, List.drop_length_add_append,
        List.drop_succ_cons]
    exact (congrArg (List.take sub.length) hdrop).trans hstand
  · rw [Nat.add_sub_cancel]
    rcases Nat.eq_zero_or_pos start with rfl | hpos
    · exact ⟨g, by simp, hg⟩
    · rcases hleft with hzero | hgap
      · exact absurd hzero hpos.ne'
      · have hindex : start + pre.length = start - 1 + pre.length + 1 := by omega
        rw [hindex, hget]
        exact hgap
  · rcases hright with hend | hgap
    · left
      have hend' : start + sub.length = post.length := hend
      simp only [List.length_append, List.length_cons]
      omega
    · right
      have hindex : start + pre.length + 1 + sub.length = start + sub.length + pre.length + 1 := by omega
      rw [hindex, hget]
      exact hgap

theorem isSubSequence_of_mem_splitEdges (es : List Nat) : ∀ p ∈ splitEdges es, IsSubSequence es p := by
  induction es using gap_induction with
  | gapFree es h =>
    intro p hp
    rw [splitEdges_of_gapFree es h] at hp
    obtain ⟨hne, rfl⟩ := (mem_closeSub 0 es p).mp hp
    exact ⟨hne, h, List.take_length, .inl rfl, .inl (Nat.zero_add _)⟩
  | gap pre g post hpre hg ih =>
    intro p hp
    rw [gapSeparatesCommands pre post g hg, splitEdges_of_gapFree pre hpre] at hp
    rcases List.mem_append.mp hp with hp | hp
    · obtain ⟨hne, rfl⟩ := (mem_closeSub 0 pre p).mp hp
      exact isSubSequence_before_gap pre post g hpre hg hne
    · obtain ⟨q, hq, rfl⟩ := List.mem_map.mp hp
      exact isSubSequence_after_gap pre post g hg q (ih q hq)

theorem filter_isSymbolEdge_of_gapFree (es : List Nat) (h : ∀ e ∈ es, e ≤ 16384000) :
    es.filter isSymbolEdge = es :=
  List.filter_eq_self.mpr fun e he => decide_eq_true (h e he)

theorem splitEdges_flatMap (es : List Nat) : (splitEdges es).flatMap (·.2) = es.filter isSymbolEdge := by
  induction es using gap_induction with
  | gapFree es h => rw [splitEdges_of_gapFree es h, closeSub_flatMap, filter_isSymbolEdge_of_gapFree es h]
  | gap pre g post hpre hg ih =>
    have hgap : ¬isSymbolEdge g = true := by
      rw [isSymbolEdge, decide_eq_true_eq]
      exact Nat.not_le.mpr hg
    rw [gapSeparatesCommands pre post g hg, splitEdges_of_gapFree pre hpre, List.flatMap_append, closeSub_flatMap,
      List.flatMap_map, ih, List.filter_append, List.filter_cons_of_neg hgap, filter_isSymbolEdge_of_gapFree pre hpre]

/-- Settles O30, by induction on the gaps of the stream. -/
theorem splitPartitionsStream : Obligations.SplitPartitionsStream :=
  fun es => ⟨isSubSequence_of_mem_splitEdges es, splitEdges_flatMap es⟩

end Sys2Proof.Machine
end

section
/-! PROOFS. Stage A: the comparator of a window, the recording loop, its corner cases (44_edge_decoder.md R290-R293,
R296). -/

namespace Sys2Proof.Machine

theorem foldl_min_of_least (w : List Nat) (mn : Nat) (hmem : mn ∈ w) (hle : ∀ x ∈ w, mn ≤ x) :
    w.foldl Nat.min (w.headD 0) = mn := by
  obtain _ | ⟨x, xs⟩ := w
  · cases hmem
  · have hmin : (x :: xs).min? = some mn := List.min?_eq_some_iff.mpr ⟨hmem, hle⟩
    rw [List.min?_cons', Option.some_inj] at hmin
    rw [List.headD_cons, List.foldl_cons, ← hmin]
    exact congrArg (List.foldl Nat.min · xs) (Nat.min_self x)

theorem foldl_max_of_greatest (w : List Nat) (mx : Nat) (hmem : mx ∈ w) (hle : ∀ x ∈ w, x ≤ mx) :
    w.foldl Nat.max 0 = mx := by
  have hmax : (0 :: w).max? = some mx := by
    refine List.max?_eq_some_iff.mpr ⟨List.mem_cons_of_mem 0 hmem, fun x hx => ?_⟩
    rcases List.mem_cons.mp hx with rfl | hx
    · exact Nat.zero_le mx
    · exact hle x hx
  rw [List.max?_cons', Option.some_inj] at hmax
  exact hmax

/-- The comparator takes the window's least and greatest sample (44_edge_decoder.md R290). -/
theorem schmittOf_eq (ratio hyst : Nat) (w : List Nat) (mn mx : Nat) (hmn : mn ∈ w) (hmx : mx ∈ w)
    (hle : ∀ x ∈ w, mn ≤ x ∧ x ≤ mx) : schmittOf ratio hyst w = ⟨ratio, hyst, mn, mx - mn⟩ := by
  rw [schmittOf, foldl_min_of_least w mn hmn fun x hx => (hle x hx).1,
    foldl_max_of_greatest w mx hmx fun x hx => (hle x hx).2]

/-- A window that holds a sample has a least and a greatest one. -/
theorem exists_least_greatest (w : List Nat) (h : w ≠ []) :
    ∃ mn mx, mn ∈ w ∧ mx ∈ w ∧ ∀ x ∈ w, mn ≤ x ∧ x ≤ mx := by
  obtain ⟨mn, hmn⟩ := Option.ne_none_iff_exists'.mp (mt List.min?_eq_none_iff.mp h)
  obtain ⟨mx, hmx⟩ := Option.ne_none_iff_exists'.mp (mt List.max?_eq_none_iff.mp h)
  obtain ⟨hmn, hleast⟩ := List.min?_eq_some_iff.mp hmn
  obtain ⟨hmx, hgreatest⟩ := List.max?_eq_some_iff.mp hmx
  exact ⟨mn, mx, hmn, hmx, fun x hx => ⟨hleast x hx, hgreatest x hx⟩⟩

theorem rises_iff (c : Schmitt) (x : Nat) :
    c.rises x = true ↔ 2 ^ 16 * c.mn + (c.ratio + c.hyst) * c.rng < 2 ^ 16 * x := decide_eq_true_iff

theorem falls_iff (c : Schmitt) (x : Nat) :
    c.falls x = true ↔ 2 ^ 16 * x + c.hyst * c.rng < 2 ^ 16 * c.mn + c.ratio * c.rng := decide_eq_true_iff

/-- The integer comparison with thHigh is the exact rational one (44_edge_decoder.md R290). -/
theorem rises_iff_rat (ratio hyst mn mx x : Nat) (h : mn ≤ mx) :
    (Schmitt.mk ratio hyst mn (mx - mn)).rises x = true ↔
      (mn : ℚ) + ((ratio : ℚ) / 2 ^ 16 + (hyst : ℚ) / 2 ^ 16) * ((mx : ℚ) - mn) < x := by
  rw [rises_iff, ← Nat.cast_lt (α := ℚ)]
  push_cast [Nat.cast_sub h]
  constructor <;> intro hlt <;> linarith

/-- The integer comparison with thLow is the exact rational one (44_edge_decoder.md R290). -/
theorem falls_iff_rat (ratio hyst mn mx x : Nat) (h : mn ≤ mx) :
    (Schmitt.mk ratio hyst mn (mx - mn)).falls x = true ↔
      (x : ℚ) < mn + ((ratio : ℚ) / 2 ^ 16 - (hyst : ℚ) / 2 ^ 16) * ((mx : ℚ) - mn) := by
  rw [falls_iff, ← Nat.cast_lt (α := ℚ)]
  push_cast [Nat.cast_sub h]
  constructor <;> intro hlt <;> linarith

/-! The recording loop, by what the sample does. -/

section
variable (c : Schmitt) (ts x : Nat) (xs : List Nat) (i last : Nat)

/-- A rise is recorded: the duration since the last one. -/
theorem recordEdges_cons_rise (h : c.rises x = true) :
    recordEdges c ts (x :: xs) i last false =
      (sat32 ((i - last) * ts) :: (recordEdges c ts xs (i + 1) i true).1,
        (recordEdges c ts xs (i + 1) i true).2) := by
  simp [recordEdges, h]

/-- A window that is not raised goes on past a sample that does not rise. -/
theorem recordEdges_cons_low (h : c.rises x = false) :
    recordEdges c ts (x :: xs) i last false = recordEdges c ts xs (i + 1) last false := by
  simp [recordEdges, h]

/-- A fall ends the raised state and is not recorded. -/
theorem recordEdges_cons_fall (h : c.falls x = true) :
    recordEdges c ts (x :: xs) i last true = recordEdges c ts xs (i + 1) last false := by
  simp [recordEdges, h]

/-- A raised window goes on past a sample that does not fall. -/
theorem recordEdges_cons_high (h : c.falls x = false) :
    recordEdges c ts (x :: xs) i last true = recordEdges c ts xs (i + 1) last true := by
  simp [recordEdges, h]

end

/-- The recording loop is R291's, at any thresholds that the comparator's two comparisons agree with. -/
theorem foldl_detectSample (c : Schmitt) (ts : Nat) (thHigh thLow : ℚ)
    (hhigh : ∀ x : Nat, c.rises x = true ↔ thHigh < x) (hlow : ∀ x : Nat, c.falls x = true ↔ (x : ℚ) < thLow)
    (w : List Nat) (i last : Nat) (raised : Bool) (e : List Nat) :
    (w.zipIdx i).foldl (detectSample thHigh thLow ts) (e, last, raised) =
      (e ++ (recordEdges c ts w i last raised).1, (recordEdges c ts w i last raised).2) := by
  induction w generalizing i last raised e with
  | nil => simp [recordEdges]
  | cons x w ih =>
    rw [List.zipIdx_cons, List.foldl_cons]
    cases raised with
    | false =>
      cases hrise : c.rises x with
      | true =>
        have hth : thHigh < x := (hhigh x).mp hrise
        rw [recordEdges_cons_rise c ts x w i last hrise, detectSample, if_pos ⟨rfl, hth⟩, ih, List.append_assoc]
        rfl
      | false =>
        have hth : ¬thHigh < x := fun h => Bool.false_ne_true (hrise ▸ (hhigh x).mpr h)
        rw [recordEdges_cons_low c ts x w i last hrise, ← ih, detectSample, if_neg fun h => hth h.2,
          if_neg fun h => Bool.false_ne_true h.1]
    | true =>
      have hraised : ¬(true = false ∧ thHigh < x) := fun h => Bool.false_ne_true h.1.symm
      cases hfall : c.falls x with
      | true =>
        have hth : (x : ℚ) < thLow := (hlow x).mp hfall
        rw [recordEdges_cons_fall c ts x w i last hfall, ← ih, detectSample, if_neg hraised, if_pos ⟨rfl, hth⟩]
      | false =>
        have hth : ¬(x : ℚ) < thLow := fun h => Bool.false_ne_true (hfall ▸ (hlow x).mpr h)
        rw [recordEdges_cons_high c ts x w i last hfall, ← ih, detectSample, if_neg hraised,
          if_neg fun h => hth h.2]

/-- Where no sample rises nothing is recorded. -/
theorem recordEdges_of_not_rises (c : Schmitt) (ts : Nat) (w : List Nat) (i last : Nat)
    (h : ∀ x ∈ w, c.rises x = false) : recordEdges c ts w i last false = ([], last, false) := by
  induction w generalizing i with
  | nil => rfl
  | cons x w ih =>
    rw [recordEdges_cons_low c ts x w i last (h x List.mem_cons_self), ih _ fun y hy => h y (List.mem_cons_of_mem x hy)]

/-- Where no sample falls the raised state stays, with nothing more recorded. -/
theorem recordEdges_raised_of_not_falls (c : Schmitt) (ts : Nat) (w : List Nat) (i last : Nat)
    (h : ∀ x ∈ w, c.falls x = false) : recordEdges c ts w i last true = ([], last, true) := by
  induction w generalizing i with
  | nil => rfl
  | cons x w ih =>
    rw [recordEdges_cons_high c ts x w i last (h x List.mem_cons_self),
      ih _ fun y hy => h y (List.mem_cons_of_mem x hy)]

/-- Where no sample falls there is no edge, or one that leaves the window raised (44_edge_decoder.md R293). -/
theorem recordEdges_of_not_falls (c : Schmitt) (ts : Nat) (w : List Nat) (i last : Nat)
    (h : ∀ x ∈ w, c.falls x = false) :
    (recordEdges c ts w i last false).1 = [] ∨
      (recordEdges c ts w i last false).1.length = 1 ∧ (recordEdges c ts w i last false).2.2 = true := by
  induction w generalizing i with
  | nil => exact .inl rfl
  | cons x w ih =>
    have hw : ∀ y ∈ w, c.falls y = false := fun y hy => h y (List.mem_cons_of_mem x hy)
    cases hrise : c.rises x with
    | true =>
      rw [recordEdges_cons_rise c ts x w i last hrise, recordEdges_raised_of_not_falls c ts w _ _ hw]
      exact .inr ⟨rfl, rfl⟩
    | false =>
      rw [recordEdges_cons_low c ts x w i last hrise]
      exact ih (i + 1) hw

theorem sat32_le (x : Nat) : sat32 x ≤ 0xFFFFFFFF := Nat.min_le_right x _

theorem sat32_of_lt (x : Nat) (h : x < 2 ^ 32) : sat32 x = x := Nat.min_eq_left (by omega)

theorem recordEdges_le (c : Schmitt) (ts : Nat) (w : List Nat) (i last : Nat) (raised : Bool) :
    ∀ u ∈ (recordEdges c ts w i last raised).1, u ≤ 0xFFFFFFFF := by
  induction w generalizing i last raised with
  | nil => nofun
  | cons x w ih =>
    cases raised with
    | false =>
      cases hrise : c.rises x with
      | true =>
        rw [recordEdges_cons_rise c ts x w i last hrise]
        intro u hu
        rcases List.mem_cons.mp hu with rfl | hu
        · exact sat32_le _
        · exact ih _ _ _ u hu
      | false =>
        rw [recordEdges_cons_low c ts x w i last hrise]
        exact ih _ _ _
    | true =>
      cases hfall : c.falls x with
      | true =>
        rw [recordEdges_cons_fall c ts x w i last hfall]
        exact ih _ _ _
      | false =>
        rw [recordEdges_cons_high c ts x w i last hfall]
        exact ih _ _ _

/-! Stage A as a whole. -/

/-- The recording loop over a whole window, from its first sample (44_edge_decoder.md R291). -/
def windowEdges (ratio hyst ts : Nat) (w : List Nat) : List Nat × Nat × Bool :=
  recordEdges (schmittOf ratio hyst w) ts w 0 0 false

/-- Stage A is the loop's durations, then the closing one where R292 asks for it. -/
theorem stageA_eq (flush : Bool) (ratio hyst ts : Nat) (w : List Nat) :
    stageA flush ratio hyst ts w = (windowEdges ratio hyst ts w).1 ++
      (if flush = true ∧ (windowEdges ratio hyst ts w).1 ≠ [] ∧ (windowEdges ratio hyst ts w).2.2 = false then
        [sat32 ((w.length - (windowEdges ratio hyst ts w).2.1) * ts)] else []) := by
  rw [stageA, ← windowEdges]
  generalize windowEdges ratio hyst ts w = r
  have hclosing : (flush && !r.1.isEmpty && !r.2.2) = true ↔ flush = true ∧ r.1 ≠ [] ∧ r.2.2 = false := by
    simp [and_assoc]
  simp only [hclosing]
  split
  · rfl
  · exact (List.append_nil _).symm

theorem stageA_false (ratio hyst ts : Nat) (w : List Nat) :
    stageA false ratio hyst ts w = (windowEdges ratio hyst ts w).1 := by
  rw [stageA_eq, if_neg fun h => Bool.false_ne_true h.1, List.append_nil]

/-- With nothing recorded there is no closing duration either. -/
theorem stageA_of_windowEdges_nil (flush : Bool) (ratio hyst ts : Nat) (w : List Nat)
    (h : (windowEdges ratio hyst ts w).1 = []) : stageA flush ratio hyst ts w = [] := by
  rw [stageA_eq, if_neg fun h' => h'.2.1 h, h, List.append_nil]

theorem stageA_of_not_rises (flush : Bool) (ratio hyst ts : Nat) (w : List Nat)
    (h : ∀ x ∈ w, (schmittOf ratio hyst w).rises x = false) : stageA flush ratio hyst ts w = [] :=
  stageA_of_windowEdges_nil flush ratio hyst ts w (by rw [windowEdges, recordEdges_of_not_rises _ ts w 0 0 h])

/-- The loop at the exact thresholds of R290. -/
theorem windowEdges_eq_detectWindow (ratio hyst ts : Nat) (w : List Nat) (mn mx : Nat) (hmn : mn ∈ w) (hmx : mx ∈ w)
    (hle : ∀ x ∈ w, mn ≤ x ∧ x ≤ mx) :
    windowEdges ratio hyst ts w =
      detectWindow (mn + ((ratio : ℚ) / 2 ^ 16 + (hyst : ℚ) / 2 ^ 16) * ((mx : ℚ) - mn))
        (mn + ((ratio : ℚ) / 2 ^ 16 - (hyst : ℚ) / 2 ^ 16) * ((mx : ℚ) - mn)) ts w := by
  obtain ⟨hrange, -⟩ := hle mx hmx
  rw [windowEdges, schmittOf_eq ratio hyst w mn mx hmn hmx hle, detectWindow,
    foldl_detectSample ⟨ratio, hyst, mn, mx - mn⟩ ts _ _ (fun x => rises_iff_rat ratio hyst mn mx x hrange)
      (fun x => falls_iff_rat ratio hyst mn mx x hrange), List.nil_append]

/-- At `ratio + hyst >= 1` no sample exceeds thHigh (44_edge_decoder.md R293). -/
theorem not_rises_of_sum_ge_one (ratio hyst : Nat) (w : List Nat) (h : 2 ^ 16 ≤ ratio + hyst) :
    ∀ x ∈ w, (schmittOf ratio hyst w).rises x = false := by
  intro x hx
  obtain ⟨mn, mx, hmn, hmx, hle⟩ := exists_least_greatest w (List.ne_nil_of_mem hx)
  obtain ⟨hlo, hhi⟩ := hle x hx
  rw [schmittOf_eq ratio hyst w mn mx hmn hmx hle, ← Bool.not_eq_true, rises_iff, Nat.not_lt]
  calc 2 ^ 16 * x ≤ 2 ^ 16 * (mn + (mx - mn)) := Nat.mul_le_mul_left _ (by omega)
    _ = 2 ^ 16 * mn + 2 ^ 16 * (mx - mn) := Nat.mul_add _ _ _
    _ ≤ 2 ^ 16 * mn + (ratio + hyst) * (mx - mn) := Nat.add_le_add_left (Nat.mul_le_mul_right _ h) _

/-- In a constant window thHigh is the sample itself, which does not exceed it (44_edge_decoder.md R293). -/
theorem not_rises_of_constant (ratio hyst x : Nat) (w : List Nat) (h : ∀ y ∈ w, y = x) :
    ∀ y ∈ w, (schmittOf ratio hyst w).rises y = false := by
  intro y hy
  obtain rfl := h y hy
  rw [schmittOf_eq ratio hyst w y y hy hy fun z hz => ⟨(h z hz).ge, (h z hz).le⟩, ← Bool.not_eq_true, rises_iff,
    Nat.sub_self, Nat.mul_zero]
  exact Nat.lt_irrefl _

/-- At `ratio <= hyst` no sample is below thLow (44_edge_decoder.md R293). -/
theorem not_falls_of_ratio_le (ratio hyst : Nat) (w : List Nat) (h : ratio ≤ hyst) :
    ∀ x ∈ w, (schmittOf ratio hyst w).falls x = false := by
  intro x hx
  obtain ⟨mn, mx, hmn, hmx, hle⟩ := exists_least_greatest w (List.ne_nil_of_mem hx)
  obtain ⟨hlo, -⟩ := hle x hx
  rw [schmittOf_eq ratio hyst w mn mx hmn hmx hle, ← Bool.not_eq_true, falls_iff, Nat.not_lt]
  exact Nat.add_le_add (Nat.mul_le_mul_left _ hlo) (Nat.mul_le_mul_right _ h)

theorem stageA_length_of_ratio_le (flush : Bool) (ratio hyst ts : Nat) (w : List Nat) (h : ratio ≤ hyst) :
    (stageA flush ratio hyst ts w).length ≤ 1 := by
  rcases recordEdges_of_not_falls _ ts w 0 0 (not_falls_of_ratio_le ratio hyst w h) with hnone | ⟨hone, hraised⟩
  · rw [stageA_of_windowEdges_nil flush ratio hyst ts w hnone]
    exact Nat.zero_le 1
  · rw [← windowEdges] at hone hraised
    rw [stageA_eq, hraised, if_neg fun h' => Bool.false_ne_true h'.2.2.symm, List.append_nil, hone]

/-- Every duration fits its word (44_edge_decoder.md R296). -/
theorem stageA_le (flush : Bool) (ratio hyst ts : Nat) (w : List Nat) :
    ∀ u ∈ stageA flush ratio hyst ts w, u ≤ 0xFFFFFFFF := by
  intro u hu
  rw [stageA_eq] at hu
  rcases List.mem_append.mp hu with hloop | hclosing
  · exact recordEdges_le _ ts w 0 0 false u hloop
  · split at hclosing
    · rw [List.mem_singleton.mp hclosing]
      exact sat32_le _
    · cases hclosing

/-- Settles O29: the loop by its samples, then each corner case by which comparison never holds. -/
theorem stageACorners : Obligations.StageACorners := by
  intro flush ratio hyst ts w
  refine ⟨?_, ?_, ?_, fun h => ?_, stageA_length_of_ratio_le flush ratio hyst ts w, stageA_le flush ratio hyst ts w⟩
  · rintro mn mx thHigh thLow d hmn hmx hle rfl rfl rfl
    rw [← windowEdges_eq_detectWindow ratio hyst ts w mn mx hmn hmx hle]
    exact ⟨stageA_eq flush ratio hyst ts w, stageA_false ratio hyst ts w⟩
  · rintro rfl
    exact stageA_of_not_rises flush ratio hyst ts [] nofun
  · rintro ⟨x, hx⟩
    exact stageA_of_not_rises flush ratio hyst ts w (not_rises_of_constant ratio hyst x w hx)
  · exact stageA_of_not_rises flush ratio hyst ts w (not_rises_of_sum_ge_one ratio hyst w h)

end Sys2Proof.Machine
end

section
/-! PROOFS. The host commands EDGES and DECODE (44_edge_decoder.md R294, R295, R320). -/

namespace Sys2Proof.Machine

@[simp] theorem sampleWindow_length (s : State) : (sampleWindow s).length = s.regs.sampleCnt.toNat := by
  rw [sampleWindow, List.length_map, wordsRead_length]

/-- Sample `i` of the window is the low SAMPLE_W bits of its word (10_state.md R48). -/
theorem sampleWindow_getElem? (s : State) (i : Nat) (h : i < s.regs.sampleCnt.toNat) :
    (sampleWindow s)[i]? = some ((wordRead s.draws s.mem (sampleBase + 4 * i)).toNat % 2 ^ s.par.sampleW) := by
  rw [sampleWindow, List.getElem?_map, wordsRead_getElem? s.draws s.mem sampleBase _ i h, Option.map_some,
    sampleMask_toNat]

@[simp] theorem edgeStream_length (s : State) : (edgeStream s).length = s.regs.edgeCnt.toNat := by
  rw [edgeStream, List.length_map, wordsRead_length]

/-- Duration `i` of the stream is its word (44_edge_decoder.md R320). -/
theorem edgeStream_getElem? (s : State) (i : Nat) (h : i < s.regs.edgeCnt.toNat) :
    (edgeStream s)[i]? = some (wordRead s.draws s.mem (edgeBase + 4 * i)).toNat := by
  rw [edgeStream, List.getElem?_map, wordsRead_getElem? s.draws s.mem edgeBase _ i h, Option.map_some]

/-- Settles O28: the kept edges are written as a run of words, and each fits its word. -/
theorem edgesRecordsWindow : Obligations.EdgesRecordsWindow := by
  refine ⟨fun s _ hcnt hperiod => ?_, fun s hparam => ?_, fun s => ⟨sampleWindow_length s, sampleWindow_getElem? s⟩⟩
  · rcases execEdges_cases s with ⟨hbad, -⟩ | ⟨-, -, e, he, hexec⟩
    · rcases hbad with hbad | hbad
      · exact absurd hcnt (Nat.not_le.mpr hbad)
      · exact absurd hbad hperiod
    have hkept : (e.take s.par.nEdge).length = min e.length s.par.nEdge := by rw [List.length_take, Nat.min_comm]
    refine ⟨e, _, he, by rw [← hkept]; exact hexec, fun i u draw hi hu => ?_, fun a ha => ?_⟩
    · have hword : u ≤ 0xFFFFFFFF := stageA_le _ _ _ _ _ u (he ▸ List.mem_of_getElem? hu)
      exact wordRead_wordsWrite_codes draw (e.take s.par.nEdge) s.mem edgeBase i u
        (by rw [List.getElem?_take_of_lt hi, hu]) (by omega)
    · exact byteAt_wordsWrite_other _ s.mem edgeBase a (by rwa [List.length_map, hkept])
  · rcases execEdges_cases s with ⟨-, hexec⟩ | ⟨hcnt, hperiod, -⟩
    · exact hexec
    · rcases hparam with hparam | hparam
      · exact absurd hcnt (Nat.not_le.mpr hparam)
      · exact absurd hparam hperiod

/-- The words of a run of records, word `w` of record `r` at its place (10_state.md R50). -/
theorem recordsWords_getElem? (cmdEnd rtTol trTol : Nat) (subs : List (Nat × List Nat)) (r w start : Nat)
    (sub : List Nat) (hw : w < 32) (hr : subs[r]? = some (start, sub)) :
    (subs.flatMap fun p => recordWords cmdEnd rtTol trTol p.1 p.2)[32 * r + w]? =
      (recordWords cmdEnd rtTol trTol start sub)[w]? := by
  induction subs generalizing r with
  | nil => cases hr
  | cons p subs ih =>
    have hlen := recordWords_length cmdEnd rtTol trTol p.1 p.2
    rw [List.flatMap_cons]
    cases r with
    | zero =>
      cases hr
      rw [Nat.mul_zero, Nat.zero_add, List.getElem?_append_left (hlen.symm ▸ hw)]
    | succ r =>
      rw [List.getElem?_append_right (by omega), hlen, show 32 * (r + 1) + w - 32 = 32 * r + w by omega]
      exact ih r hr

/-- Settles O38: the kept records are written as a run of words, 32 to a record. -/
theorem decodeWritesRecords : Obligations.DecodeWritesRecords := by
  refine ⟨fun s _ hcnt => ?_, fun s hparam => ?_, fun s => ⟨edgeStream_length s, edgeStream_getElem? s⟩⟩
  · rcases execDecode_cases s with ⟨hbad, -⟩ | ⟨-, subs, hsubs, hexec⟩
    · exact absurd hcnt (Nat.not_le.mpr hbad)
    have hkept : (subs.take s.par.nResult).length = min subs.length s.par.nResult := by
      rw [List.length_take, Nat.min_comm]
    refine ⟨subs, _, hsubs, by rw [← hkept]; exact hexec, fun r w start draw sub hr hw hsub => ?_, fun a ha => ?_⟩
    · have hword := recordsWords_getElem? s.par.cmdEnd s.regs.rtTol.toNat s.regs.trTol.toNat
        (subs.take s.par.nResult) r w start sub hw (by rw [List.getElem?_take_of_lt hr, hsub])
      have hlt : 32 * r + w < ((subs.take s.par.nResult).flatMap fun p =>
          recordWords s.par.cmdEnd s.regs.rtTol.toNat s.regs.trTol.toNat p.1 p.2).length := by
        rw [recordsWords_length, hkept]
        have hr' : r < subs.length := (List.getElem?_eq_some_iff.mp hsub).1
        omega
      rw [← hword, List.getElem?_eq_getElem hlt, ← wordRead_wordsWrite draw _ s.mem resultBase _ hlt]
      congr 2
      rw [resultBase]
      omega
    · refine byteAt_wordsWrite_other _ s.mem resultBase a ?_
      rw [recordsWords_length, hkept, resultBase]
      omega
  · rcases execDecode_cases s with ⟨-, hexec⟩ | ⟨hcnt, -⟩
    · exact hexec
    · exact absurd hcnt (Nat.not_le.mpr hparam)

end Sys2Proof.Machine
end

section
/-! PROOFS. Stage A over the samples of high and low phases in turn: one duration for each rise, and the closing one
(43_pie_encoder.md R260, R262, 44_edge_decoder.md R291, R292). -/

namespace Sys2Proof.Machine

/-- Symbols as their pulses: of each a high phase, then a low phase (43_pie_encoder.md R253). -/
def symbolPulses (l : List (Nat × Nat)) : List Nat := l.flatMap fun s => [s.1, s.2]

/-- The samples of symbols whose levels are 1 and 0, each phase cut to whole sample periods. -/
def symbolSamples (ts : Nat) (l : List (Nat × Nat)) : List Nat :=
  l.flatMap fun s => List.replicate (s.1 / ts) 1 ++ List.replicate (s.2 / ts) 0

theorem symbolSamples_cons (ts : Nat) (s : Nat × Nat) (l : List (Nat × Nat)) :
    symbolSamples ts (s :: l) =
      List.replicate (s.1 / ts) 1 ++ (List.replicate (s.2 / ts) 0 ++ symbolSamples ts l) := by
  rw [symbolSamples, List.flatMap_cons, List.append_assoc]
  rfl

theorem samplesFrom_symbolPulses (ts : Nat) (l : List (Nat × Nat)) :
    samplesFrom ts 1 (symbolPulses l) = symbolSamples ts l := by
  induction l with
  | nil => rfl
  | cons s l ih =>
    rw [symbolSamples_cons, ← ih]
    rfl

/-- A first pulse is low, and symbols follow it (43_pie_encoder.md R262). -/
theorem toSamples_symbolPulses (ts d : Nat) (l : List (Nat × Nat)) :
    toSamples ts (d :: symbolPulses l) = List.replicate (d / ts) 0 ++ symbolSamples ts l := by
  rw [← samplesFrom_symbolPulses]
  rfl

section
variable (c : Schmitt) (ts : Nat) (hrise : c.rises 1 = true) (hlow : c.rises 0 = false) (hfall : c.falls 0 = true)
  (hhigh : c.falls 1 = false)

include hlow in
theorem recordEdges_replicate_low (n : Nat) (rest : List Nat) (i last : Nat) :
    recordEdges c ts (List.replicate n 0 ++ rest) i last false = recordEdges c ts rest (i + n) last false := by
  induction n generalizing i with
  | zero => rfl
  | succ n ih =>
    rw [List.replicate_succ, List.cons_append, recordEdges_cons_low c ts 0 _ i last hlow, ih, Nat.add_assoc,
      Nat.add_comm 1]

include hhigh in
theorem recordEdges_replicate_high (n : Nat) (rest : List Nat) (i last : Nat) :
    recordEdges c ts (List.replicate n 1 ++ rest) i last true = recordEdges c ts rest (i + n) last true := by
  induction n generalizing i with
  | zero => rfl
  | succ n ih =>
    rw [List.replicate_succ, List.cons_append, recordEdges_cons_high c ts 1 _ i last hhigh, ih, Nat.add_assoc,
      Nat.add_comm 1]

include hlow hfall in
/-- A low phase of at least one sample ends the raised state. -/
theorem recordEdges_replicate_fall (n : Nat) (rest : List Nat) (i last : Nat) (hn : 0 < n) :
    recordEdges c ts (List.replicate n 0 ++ rest) i last true = recordEdges c ts rest (i + n) last false := by
  obtain ⟨k, rfl⟩ := Nat.exists_eq_add_one_of_ne_zero hn.ne'
  rw [List.replicate_succ, List.cons_append, recordEdges_cons_fall c ts 0 _ i last hfall,
    recordEdges_replicate_low c ts hlow, Nat.add_assoc, Nat.add_comm 1]

include hrise hlow hfall hhigh in
/-- A symbol is one recorded rise, at its first sample. -/
theorem recordEdges_symbol (h l : Nat) (rest : List Nat) (i last : Nat) (hh : 0 < h) (hl : 0 < l) :
    recordEdges c ts (List.replicate h 1 ++ (List.replicate l 0 ++ rest)) i last false =
      (sat32 ((i - last) * ts) :: (recordEdges c ts rest (i + h + l) i false).1,
        (recordEdges c ts rest (i + h + l) i false).2) := by
  obtain ⟨k, rfl⟩ := Nat.exists_eq_add_one_of_ne_zero hh.ne'
  rw [List.replicate_succ, List.cons_append, recordEdges_cons_rise c ts 1 _ i last hrise,
    recordEdges_replicate_high c ts hhigh, recordEdges_replicate_fall c ts hlow hfall l rest _ i hl, Nat.add_assoc i 1,
    Nat.add_comm 1]

include hrise hlow hfall hhigh in
/-- Symbols of whole sample periods: the interval to the first rise, then, the closing one counted with them, their
totals; and the window ends low. -/
theorem recordEdges_symbolSamples (hts : 0 < ts) (l : List (Nat × Nat)) (i last : Nat)
    (hl : ∀ s ∈ l, (0 < s.1 ∧ s.1 % ts = 0) ∧ 0 < s.2 ∧ s.2 % ts = 0) :
    (recordEdges c ts (symbolSamples ts l) i last false).2.2 = false ∧
    (recordEdges c ts (symbolSamples ts l) i last false).1 ++
        [sat32 ((i + (symbolSamples ts l).length - (recordEdges c ts (symbolSamples ts l) i last false).2.1) * ts)] =
      sat32 ((i - last) * ts) :: l.map fun s => sat32 (s.1 + s.2) := by
  induction l generalizing i last with
  | nil => exact ⟨rfl, rfl⟩
  | cons s l ih =>
    obtain ⟨⟨hpos, hmod⟩, hpos', hmod'⟩ := hl s List.mem_cons_self
    have hhighPhase : s.1 / ts * ts = s.1 := Nat.div_mul_cancel (Nat.dvd_of_mod_eq_zero hmod)
    have hlowPhase : s.2 / ts * ts = s.2 := Nat.div_mul_cancel (Nat.dvd_of_mod_eq_zero hmod')
    have hsamples : 0 < s.1 / ts := Nat.div_pos (Nat.le_of_dvd hpos (Nat.dvd_of_mod_eq_zero hmod)) hts
    have hsamples' : 0 < s.2 / ts := Nat.div_pos (Nat.le_of_dvd hpos' (Nat.dvd_of_mod_eq_zero hmod')) hts
    obtain ⟨hends, hdurations⟩ := ih (i + s.1 / ts + s.2 / ts) i fun x hx => hl x (List.mem_cons_of_mem s hx)
    have htotal : (i + s.1 / ts + s.2 / ts - i) * ts = s.1 + s.2 := by
      rw [Nat.add_assoc, Nat.add_sub_cancel_left, Nat.add_mul, hhighPhase, hlowPhase]
    have hlen : i + (symbolSamples ts (s :: l)).length = i + s.1 / ts + s.2 / ts + (symbolSamples ts l).length := by
      rw [symbolSamples_cons, List.length_append, List.length_append, List.length_replicate, List.length_replicate]
      omega
    rw [hlen, symbolSamples_cons, recordEdges_symbol c ts hrise hlow hfall hhigh _ _ _ i last hsamples hsamples']
    refine ⟨hends, ?_⟩
    rw [List.cons_append, hdurations, htotal, List.map_cons]

end

/-- The comparator of a window with samples of 0 and 1 alone. -/
theorem schmittOf_levels (ratio hyst : Nat) (w : List Nat) (hzero : 0 ∈ w) (hone : 1 ∈ w) (hle : ∀ x ∈ w, x ≤ 1) :
    schmittOf ratio hyst w = ⟨ratio, hyst, 0, 1⟩ :=
  schmittOf_eq ratio hyst w 0 1 hzero hone fun x hx => ⟨Nat.zero_le x, hle x hx⟩

theorem symbolSamples_le (ts : Nat) (l : List (Nat × Nat)) : ∀ x ∈ symbolSamples ts l, x ≤ 1 := by
  intro x hx
  obtain ⟨s, -, hs⟩ := List.mem_flatMap.mp hx
  rcases List.mem_append.mp hs with hs | hs
  · exact (List.eq_of_mem_replicate hs).le
  · rw [List.eq_of_mem_replicate hs]
    exact Nat.zero_le 1

/-- The comparator separates the two levels when the hysteresis is below the ratio and their sum below 1. -/
theorem levels_separated (ratio hyst : Nat) (hband : hyst < ratio) (hsum : ratio + hyst < 2 ^ 16) :
    (Schmitt.mk ratio hyst 0 1).rises 1 = true ∧ (Schmitt.mk ratio hyst 0 1).rises 0 = false ∧
    (Schmitt.mk ratio hyst 0 1).falls 0 = true ∧ (Schmitt.mk ratio hyst 0 1).falls 1 = false := by
  rw [rises_iff, falls_iff, ← Bool.not_eq_true, ← Bool.not_eq_true, rises_iff, falls_iff]
  dsimp only
  omega

section
variable (ratio hyst ts d : Nat) (l : List (Nat × Nat)) (hts : 0 < ts) (hd : 0 < d) (hdmod : d % ts = 0)
  (hl : ∀ s ∈ l, (0 < s.1 ∧ s.1 % ts = 0) ∧ 0 < s.2 ∧ s.2 % ts = 0) (hne : l ≠ [])
include hts hd hdmod hl hne

/-- A low pulse and a symbol have samples at both levels. -/
theorem schmittOf_symbols :
    schmittOf ratio hyst (List.replicate (d / ts) 0 ++ symbolSamples ts l) = ⟨ratio, hyst, 0, 1⟩ := by
  refine schmittOf_levels ratio hyst _ ?_ ?_ fun x hx => ?_
  · have hsamples : 0 < d / ts := Nat.div_pos (Nat.le_of_dvd hd (Nat.dvd_of_mod_eq_zero hdmod)) hts
    exact List.mem_append_left _ (List.mem_replicate.mpr ⟨hsamples.ne', rfl⟩)
  · obtain ⟨s, l, rfl⟩ := List.exists_cons_of_ne_nil hne
    obtain ⟨⟨hpos, hmod⟩, -⟩ := hl s List.mem_cons_self
    have hsamples : 0 < s.1 / ts := Nat.div_pos (Nat.le_of_dvd hpos (Nat.dvd_of_mod_eq_zero hmod)) hts
    rw [symbolSamples_cons]
    exact List.mem_append_right _ (List.mem_append_left _ (List.mem_replicate.mpr ⟨hsamples.ne', rfl⟩))
  · rcases List.mem_append.mp hx with hx | hx
    · rw [List.eq_of_mem_replicate hx]
      exact Nat.zero_le 1
    · exact symbolSamples_le ts l x hx

/-- Stage A with the flush, over a low pulse and then symbols, all of whole sample periods: the first pulse, then the
symbols' totals. -/
theorem stageA_symbols (hband : hyst < ratio) (hsum : ratio + hyst < 2 ^ 16) :
    stageA true ratio hyst ts (toSamples ts (d :: symbolPulses l)) =
      sat32 d :: l.map fun s => sat32 (s.1 + s.2) := by
  obtain ⟨hrise, hlow, hfall, hhigh⟩ := levels_separated ratio hyst hband hsum
  have hloop : windowEdges ratio hyst ts (List.replicate (d / ts) 0 ++ symbolSamples ts l) =
      recordEdges ⟨ratio, hyst, 0, 1⟩ ts (symbolSamples ts l) (d / ts) 0 false := by
    rw [windowEdges, schmittOf_symbols ratio hyst ts d l hts hd hdmod hl hne, recordEdges_replicate_low _ ts hlow,
      Nat.zero_add]
  obtain ⟨hends, hdurations⟩ :=
    recordEdges_symbolSamples ⟨ratio, hyst, 0, 1⟩ ts hrise hlow hfall hhigh hts l (d / ts) 0 hl
  rw [← hloop] at hends hdurations
  have hsome : (windowEdges ratio hyst ts (List.replicate (d / ts) 0 ++ symbolSamples ts l)).1 ≠ [] := by
    intro hnone
    have hcount := congrArg List.length hdurations
    rw [hnone, List.length_cons, List.length_map] at hcount
    exact hne (List.length_eq_zero_iff.mp (by simpa using hcount.symm))
  rw [toSamples_symbolPulses, stageA_eq, if_pos ⟨rfl, hsome, hends⟩, List.length_append, List.length_replicate,
    hdurations, Nat.sub_zero, Nat.div_mul_cancel (Nat.dvd_of_mod_eq_zero hdmod)]

end

end Sys2Proof.Machine
end

section
/-! PROOFS. The end-to-end property: a message encoded, sampled and decoded (44_edge_decoder.md R322). -/

namespace Sys2Proof.Machine

/-- The symbols of a frame behind its delimiter: data-0, RTcal, for a Query TRcal, then one for each bit
(43_pie_encoder.md R254, R255, R257). -/
def frameSymbols (m : MsgType) (b : Bits) (dr : Code) (t blf : Nat) : List (Nat × Nat) :=
  [(t / 2, t / 2), (3 * t - t / 2, t / 2)] ++ (if m = .query then [(trcCode dr blf - t / 2, t / 2)] else []) ++
    b.map fun x => (if x then 3 * t / 2 else t / 2, t / 2)

/-- The durations of a frame behind its calibrating pair: for a Query TRcal, then the symbol totals. -/
def frameIntervals (m : MsgType) (b : Bits) (dr : Code) (t blf : Nat) : List Nat :=
  (if m = .query then [trcCode dr blf] else []) ++ b.map (symbolTotal t)

theorem frameIntervals_of_query (m : MsgType) (b : Bits) (dr : Code) (t blf : Nat) (hm : m = .query) :
    frameIntervals m b dr t blf = trcCode dr blf :: b.map (symbolTotal t) := by
  rw [frameIntervals, if_pos hm, List.singleton_append]

theorem frameIntervals_of_not_query (m : MsgType) (b : Bits) (dr : Code) (t blf : Nat) (hm : m ≠ .query) :
    frameIntervals m b dr t blf = b.map (symbolTotal t) := by
  rw [frameIntervals, if_neg hm, List.nil_append]

theorem symbolPulses_append (l l' : List (Nat × Nat)) :
    symbolPulses (l ++ l') = symbolPulses l ++ symbolPulses l' := List.flatMap_append

theorem toPulses_eq_symbolPulses (m : MsgType) (b : Bits) (dr : Code) (t blf : Nat) :
    toPulses m b dr t blf = 819200 :: symbolPulses (frameSymbols m b dr t blf) := by
  have hbits : symbolPulses (b.map fun x => (if x then 3 * t / 2 else t / 2, t / 2)) = b.flatMap (dataSymbol t) := by
    rw [symbolPulses, List.flatMap_map, dataSymbol_eq]
    congr 1
    funext x
    cases x <;> rfl
  rw [toPulses_eq_pulseCodes, pulseCodes, frameSymbols, symbolPulses_append, symbolPulses_append, hbits, dataSymbol_eq]
  split <;> rfl

section
variable {m : MsgType} {dr : Code} {t blf : Nat} (b : Bits) (htiming : timingOk m dr t blf)
include htiming

theorem frameSymbols_pos : ∀ s ∈ frameSymbols m b dr t blf, 0 < s.1 ∧ 0 < s.2 := by
  obtain ⟨hmin, -, hquery⟩ := htiming
  intro s hs
  simp only [frameSymbols, List.mem_append, List.mem_map] at hs
  rcases hs with (hsync | htrcal) | ⟨x, -, rfl⟩
  · simp only [List.mem_cons, List.not_mem_nil, or_false] at hsync
    rcases hsync with rfl | rfl <;> dsimp only <;> omega
  · split at htrcal
    · rename_i hm
      obtain ⟨-, hpulse, -⟩ := hquery hm
      rw [List.mem_singleton.mp htrcal]
      dsimp only
      omega
    · cases htrcal
  · cases x with
    | false =>
      show 0 < t / 2 ∧ 0 < t / 2
      omega
    | true =>
      show 0 < 3 * t / 2 ∧ 0 < t / 2
      omega

/-- Every symbol lasts as long as its interval (43_pie_encoder.md R260); for data-0 an even Tari is needed. -/
theorem frameSymbols_totals (heven : t % 2 = 0) :
    (frameSymbols m b dr t blf).map (fun s => s.1 + s.2) = t :: 3 * t :: frameIntervals m b dr t blf := by
  obtain ⟨-, -, hquery⟩ := htiming
  have hbits : (b.map fun x => (if x then 3 * t / 2 else t / 2, t / 2)).map (fun s => s.1 + s.2) =
      b.map (symbolTotal t) := by
    rw [List.map_map]
    refine List.map_congr_left fun x _ => ?_
    cases x <;> rfl
  have hdata0 : t / 2 + t / 2 = t := by omega
  have hrtcal : 3 * t - t / 2 + t / 2 = 3 * t := by omega
  rw [frameSymbols, List.map_append, List.map_append, hbits, frameIntervals]
  split
  · rename_i hm
    obtain ⟨-, hpulse, -⟩ := hquery hm
    have htrcal : trcCode dr blf - t / 2 + t / 2 = trcCode dr blf := Nat.sub_add_cancel hpulse.le
    simp only [List.map_cons, List.map_nil, hdata0, hrtcal, htrcal, List.cons_append, List.nil_append]
  · simp only [List.map_cons, List.map_nil, hdata0, hrtcal, List.cons_append, List.nil_append]

/-- No duration of a frame is a gap (44_edge_decoder.md R322). -/
theorem frame_gapFree (heven : t % 2 = 0) (htrc : m = .query → trcCode dr blf ≤ 16384000) :
    ∀ u ∈ 819200 :: t :: 3 * t :: frameIntervals m b dr t blf, u ≤ 16384000 := by
  obtain ⟨-, hmax, -⟩ := htiming
  have hbits : ∀ u ∈ b.map (symbolTotal t), u ≤ 16384000 := by
    intro u hu
    obtain ⟨x, -, rfl⟩ := List.mem_map.mp hu
    exact symbolTotal_le 16384000 t x heven (by omega)
  intro u hu
  simp only [frameIntervals, List.mem_cons, List.mem_append] at hu
  rcases hu with rfl | rfl | rfl | htrcal | hu
  · omega
  · omega
  · omega
  · split at htrcal
    · rename_i hm
      rw [List.mem_singleton.mp htrcal]
      exact htrc hm
    · cases htrcal
  · exact hbits u hu

/-- Stage A gives the delimiter, the calibrating pair and the frame's intervals. -/
theorem stageA_frame (ratio hyst ts : Nat) (heven : t % 2 = 0) (hts : 0 < ts)
    (hmod : ∀ p ∈ toPulses m b dr t blf, p % ts = 0) (hband : hyst < ratio) (hsum : ratio + hyst < 2 ^ 16)
    (htrc : m = .query → trcCode dr blf ≤ 16384000) :
    stageA true ratio hyst ts (toSamples ts (toPulses m b dr t blf)) =
      819200 :: t :: 3 * t :: frameIntervals m b dr t blf := by
  rw [toPulses_eq_symbolPulses] at hmod ⊢
  have hsymbol : ∀ s ∈ frameSymbols m b dr t blf, (0 < s.1 ∧ s.1 % ts = 0) ∧ 0 < s.2 ∧ s.2 % ts = 0 := by
    intro s hs
    obtain ⟨hpos, hpos'⟩ := frameSymbols_pos b htiming s hs
    have hphase : ∀ p ∈ [s.1, s.2], p % ts = 0 := fun p hp =>
      hmod p (List.mem_cons_of_mem _ (List.mem_flatMap.mpr ⟨s, hs, hp⟩))
    exact ⟨⟨hpos, hphase _ (by simp)⟩, hpos', hphase _ (by simp)⟩
  have hne : frameSymbols m b dr t blf ≠ [] := by
    rw [frameSymbols, List.cons_append, List.cons_append]
    exact List.cons_ne_nil _ _
  have hsat : (819200 :: t :: 3 * t :: frameIntervals m b dr t blf).map sat32 =
      819200 :: t :: 3 * t :: frameIntervals m b dr t blf := by
    refine (List.map_congr_left fun u hu => ?_).trans (List.map_id _)
    have hle := frame_gapFree b htiming heven htrc u hu
    exact sat32_of_lt u (by omega)
  rw [stageA_symbols ratio hyst ts 819200 _ hts (by decide) (hmod _ List.mem_cons_self) hsymbol hne hband hsum,
    ← hsat, ← frameSymbols_totals b htiming heven, List.map_cons, List.map_map]
  rfl

/-- The delimiter, 12.5 µs, and a data-0 of at most 25 µs are no calibrating pair (44_edge_decoder.md R302). -/
theorem delimiter_uncalibrated : ∀ i x d, ([819200] ++ [t])[i]? = some x → ([819200] ++ [t])[i + 1]? = some d →
    x < 409600 ∨ 1638400 < x ∨ 2 * d + 2 * 0 < 5 * x ∨ 3 * x + 0 < d := by
  obtain ⟨-, hmax, -⟩ := htiming
  intro i x d hx hd
  match i with
  | 0 =>
    cases hx
    cases hd
    omega
  | i + 1 => simp at hd

/-- Behind RTcal a Query has a TRcal in its band, and no other frame a duration in that band
(44_edge_decoder.md R304). -/
theorem frameIntervals_trcal (heven : t % 2 = 0)
    (htrc : m = .query → 33 * t ≤ 10 * trcCode dr blf ∧ trcCode dr blf ≤ 9 * t) :
    (decide (m = .query) = true ∧ (∃ d, frameIntervals m b dr t blf = d :: b.map (symbolTotal t) ∧
        11 * (3 * t) ≤ 10 * d + 10 * 0 ∧ d ≤ 3 * (3 * t) + 0)) ∨
      (decide (m = .query) = false ∧ b.map (symbolTotal t) = frameIntervals m b dr t blf ∧
        ∀ d, (frameIntervals m b dr t blf).head? = some d →
          10 * d + 10 * 0 < 11 * (3 * t) ∨ 3 * (3 * t) + 0 < d) := by
  obtain ⟨hmin, -, -⟩ := htiming
  by_cases hm : m = .query
  · obtain ⟨hlow, hhigh⟩ := htrc hm
    exact .inl ⟨decide_eq_true hm, _, frameIntervals_of_query m b dr t blf hm, by omega, by omega⟩
  · refine .inr ⟨decide_eq_false hm, (frameIntervals_of_not_query m b dr t blf hm).symm, fun d hd => ?_⟩
    rw [frameIntervals_of_not_query m b dr t blf hm] at hd
    obtain ⟨x, -, rfl⟩ := List.mem_map.mp (List.mem_of_head? hd)
    have hout := of_decide_eq_false (inTR_symbolTotal t (by omega) heven x)
    omega

/-- The session over a frame's durations recovers its bits: data-0 and RTcal are the first pair that calibrates
(44_edge_decoder.md R302-R305). -/
theorem fromEdges_frame_bits (cmdEnd : Nat) (heven : t % 2 = 0) (hend : 16384000 ≤ cmdEnd) (hlen : b.length ≤ 64)
    (htrc : m = .query → 33 * t ≤ 10 * trcCode dr blf ∧ trcCode dr blf ≤ 9 * t ∧ trcCode dr blf ≤ 16384000) :
    (fromEdges cmdEnd 0 0 (819200 :: t :: 3 * t :: frameIntervals m b dr t blf)).bits = b := by
  have hgapFree := frame_gapFree b htiming heven fun hm => (htrc hm).2.2
  have hdelimiter := delimiter_uncalibrated htiming
  have hphase := frameIntervals_trcal b htiming heven fun hm => ⟨(htrc hm).1, (htrc hm).2.1⟩
  obtain ⟨hmin, hmax, -⟩ := htiming
  have hthreshold : (b.map (symbolTotal t)).map (fun d => decide (3 * t < 2 * d)) = b := by
    rw [List.map_map]
    exact (List.map_congr_left fun x _ => threshold_symbolTotal t (by omega) heven x).trans (List.map_id b)
  obtain ⟨-, -, -, hbits, -⟩ := dataBitsFollowThreshold cmdEnd 0 0 t (3 * t) [819200] (frameIntervals m b dr t blf)
    hmin hmax (by omega) (by omega) (fun d hd => (hgapFree d hd).trans hend) hdelimiter _ _ _ hphase rfl
  rw [hthreshold, List.take_of_length_le hlen] at hbits
  exact hbits

end

/-- Settles O40: stage A gives the frame's durations, none of them a gap; their session recovers the bits, and those
dispatch to the message. -/
theorem endToEndRecovery : Obligations.EndToEndRecovery := by
  intro m v b t blf ts ratio hyst cmdEnd hb htiming heven hts hmod hband hsum hend htrc
  have hedges := stageA_frame b htiming ratio hyst ts heven hts hmod hband hsum fun hm => (htrc hm).2.2
  have hsplit := splitEdges_of_gapFree _ (frame_gapFree b htiming heven fun hm => (htrc hm).2.2)
  have hbits := fromEdges_frame_bits b htiming cmdEnd heven hend ((toBits_length_le m v b hb).trans (by decide)) htrc
  obtain ⟨v', hdispatch, -, hsame⟩ := messageRoundTrip m v b hb
  rw [closeSub_of_ne_nil _ _ (List.cons_ne_nil _ _)] at hsplit
  exact ⟨_, v', hedges.symm, hsplit, hbits, by rw [hbits]; exact hdispatch, hsame⟩

end Sys2Proof.Machine
end

section
/-! PROOFS. The engine's turn and the acceptance of a command (45_control.md R350, R351). -/

namespace Sys2Proof.Machine

/-- Settles O3: at the engine's turn the step runs what the decoder reads from ENG_CMD, and the decoder of a CMD word
refuses none. -/
theorem stepRunsAcceptedCommand : Obligations.StepRunsAcceptedCommand := by
  intro s i hrst hbusy hturn hdecode
  obtain rfl : decodeCmd s.engCmd = i := Except.ok.inj hdecode
  exact step_engine s hrst ((engineTurn_iff s).mpr ⟨(busy_iff s).mpr hbusy, hturn⟩)

/-- An IDLE core accepts the command written to CMD (45_control.md R350). -/
theorem busWrite_cmd_idle (a : Addr) (w : Word) (s : State) (hr : s.rst = false) (hi : s.engState = .idle)
    (h : locate s.par a = .cmd) : busWrite a w s = accept w s := by
  rw [busWrite_idle a w s hr (busy_of_idle hi), h]
  rfl

/-- Settles O44: the address reaches CMD, where an IDLE core accepts, in the whole of one host step, and a BUSY one
only sets WERR. -/
theorem cmdWriteAcceptsCommand : Obligations.CmdWriteAcceptsCommand := by
  intro s a w ha hr
  have hloc : locate s.par a = .cmd := locate_of_wordAddr s.par a _ ha (by decide)
  refine ⟨fun hi => ⟨Config.engineDelay s.accepted, busWrite_cmd_idle a w s hr hi hloc, fun rest hhost => ?step⟩,
    fun hb => ?busy⟩
  case step =>
    calc step s = .next (hostOp (.write a w) s) := step_idle_host s _ rest hhost hr hi
      _ = .next (busWrite a w { s with host := rest }) := by rw [hostOp_write_of_cons s a w rest hhost]
      _ = .next (accept w { s with host := rest }) := by rw [busWrite_cmd_idle a w { s with host := rest } hr hi hloc]
  case busy =>
    exact busWrite_busy_other a w s hr ((busy_iff s).mpr hb) (by rw [hloc]; exact Loc.noConfusion)

end Sys2Proof.Machine
end

section
/-! PROOFS. The control commands: NOP, the reserved OP codes and SOFT_RESET (45_control.md R352-R354). -/

namespace Sys2Proof.Machine

/-- STATUS of a command's completion while WERR is 0: DONE and the result code. -/
theorem statusWord_complete (e : Err) (s : State) (h : s.werr = false) :
    statusWord (complete e s) = BitVec.ofNat 32 (2 + e.code * 16) := by
  rw [statusWord, busy_complete, complete_done, complete_werr, h, complete_err]
  rfl

theorem decodeCmd_of_op_zero (w : Word) (h : cmdOp w = 0) : decodeCmd w = .nop := by
  rw [decodeCmd, h]
  rfl

/-- Settles O41: NOP is the completion alone. -/
theorem nopOnlyCompletes : Obligations.NopOnlyCompletes := by
  refine ⟨fun s => rfl, decodeCmd_of_op_zero, fun s t hwerr h => ?_⟩
  obtain rfl : complete .none s = t := Host.Outcome.next.inj h
  exact statusWord_complete .none s hwerr

/-- The instructions of the OP codes 8 to 14 (45_control.md R354). -/
def reservedInstrs : List Instr :=
  [.reserved8, .reserved9, .reservedA, .reservedB, .reservedC, .reservedD, .reservedE]

theorem exec_reserved (s : State) (i : Instr) (h : i ∈ reservedInstrs) : exec i s = .next (complete .illegal s) := by
  simp only [reservedInstrs, List.mem_cons, List.not_mem_nil, or_false] at h
  rcases h with rfl | rfl | rfl | rfl | rfl | rfl | rfl <;> rfl

theorem decodeCmd_reserved (w : Word) (hlo : 8 ≤ (cmdOp w).toNat) (hhi : (cmdOp w).toNat ≤ 14) :
    decodeCmd w ∈ reservedInstrs := by
  unfold decodeCmd
  generalize (cmdOp w).toNat = op at hlo hhi ⊢
  interval_cases op <;> simp [reservedInstrs]

/-- Settles O42: every reserved OP code is the completion with Illegal alone. -/
theorem reservedOpsCompleteIllegal : Obligations.ReservedOpsCompleteIllegal := by
  refine ⟨exec_reserved, decodeCmd_reserved, fun s t hwerr h => ?_⟩
  obtain rfl : complete .illegal s = t := Host.Outcome.next.inj h
  exact statusWord_complete .illegal s hwerr

/-- The registers but STATUS depend on the registers' fields alone, not on the flags, the engine or the host. -/
theorem locValue_regAt_congr (s t : State) (n : Nat) (hregs : t.regs = s.regs) (hstatus : regAt n ≠ .status) :
    locValue t (regAt n) = locValue s (regAt n) := by
  cases hl : regAt n with
  | status => exact absurd hl hstatus
  | pulse i | result i | edge i | sample i =>
    obtain ⟨hpulse, hresult, hedge, hsample⟩ := regAt_noBuffer n i
    contradiction
  | _ => simp only [locValue, hregs]

/-- An IDLE core with the reset registers reads as the reset table says, STATUS apart (10_state.md R53). -/
theorem busRead_of_resetRegs (t : State) (hidle : t.engState = .idle) (hregs : t.regs = resetRegs) (p : Nat × Nat)
    (hp : p ∈ resetTable) (hstatus : p.1 ≠ 0x00C) : busRead (BitVec.ofNat 20 p.1) t = BitVec.ofNat 32 p.2 := by
  have haddr : ∀ p ∈ resetTable, p.1 < 0x100 ∧ p.1 % 4 = 0 ∧ (p.1 ≠ 0x00C → regAt p.1 ≠ .status) := by decide
  obtain ⟨hlt, h4, hne⟩ := haddr p hp
  rw [← busRead_reset p hp, busRead_idle _ t (busy_of_idle hidle), busRead_idle _ _ rfl, locate_register _ _ hlt h4,
    locate_register _ _ hlt h4, locValue_regAt_congr State.reset t p.1 hregs (hne hstatus)]

/-- Settles O43: SOFT_RESET completes with the registers of the reset state, and an IDLE core's reads of registers
depend on nothing else. -/
theorem softResetRestoresRegisters : Obligations.SoftResetRestoresRegisters := by
  refine ⟨fun s => rfl, fun s t h => ?_⟩
  obtain rfl : complete .none { s with regs := resetRegs, werr := false, engCmd := 0 } = t := Host.Outcome.next.inj h
  exact ⟨rfl, statusWord_complete .none _ rfl, rfl, busRead_of_resetRegs _ rfl rfl⟩

end Sys2Proof.Machine
end

section
/-! PROOFS. What a command leaves unchanged: every word outside its output set and STATUS (45_control.md R355). -/

namespace Sys2Proof.Machine

/-- Where an address lies: among the registers, or in the window of its buffer (20_memory.md R86). -/
theorem locAddr_window (p : Params) (l : Loc) (a : Nat) (hp : legalParams p = true) (hl : l.configured p)
    (h : locAddr l = some a) :
    a + 4 ≤ 0x1000 ∨ (∃ i, l = .pulse i ∧ 0x1000 ≤ a ∧ a + 4 ≤ 0x4000) ∨
      (∃ i, l = .result i ∧ 0x4000 ≤ a ∧ a + 4 ≤ 0x8000) ∨ (∃ i, l = .edge i ∧ 0x8000 ≤ a ∧ a + 4 ≤ 0x10000) ∨
      ∃ i, l = .sample i ∧ 0x10000 ≤ a := by
  obtain ⟨hpulse, -, hedge, hresult⟩ := legalParams_bounds p hp
  cases l with
  | pulse i =>
    obtain rfl : 0x1000 + 4 * i = a := Option.some.inj h
    have hi : i < p.nPulse := hl
    exact .inr (.inl ⟨i, rfl, by omega⟩)
  | result i =>
    obtain rfl : 0x4000 + 4 * i = a := Option.some.inj h
    have hi : i < 32 * p.nResult := hl
    exact .inr (.inr (.inl ⟨i, rfl, by omega⟩))
  | edge i =>
    obtain rfl : 0x8000 + 4 * i = a := Option.some.inj h
    have hi : i < p.nEdge := hl
    exact .inr (.inr (.inr (.inl ⟨i, rfl, by omega⟩)))
  | sample i =>
    obtain rfl : 0x10000 + 4 * i = a := Option.some.inj h
    exact .inr (.inr (.inr (.inr ⟨i, rfl, by omega⟩)))
  | unmapped => cases h
  | _ =>
    simp only [locAddr, Option.some.injEq] at h
    exact .inl (by omega)

/-- A run of words that misses a word leaves its read alone, at the same draw number. -/
theorem wordRead_wordsWrite_other (draw : Nat) (ws : List Word) (m : Memory) (a b : Nat)
    (h : b + 4 ≤ a ∨ a + 4 * ws.length ≤ b) : wordRead draw (wordsWrite m a ws) b = wordRead draw m b :=
  wordRead_congr draw _ m b fun _ _ => byteAt_wordsWrite_other ws m a _ (by omega)

/-- Words written to a buffer change no location that stands apart from them. -/
theorem locValue_wordsWrite_other (s : State) (base : Nat) (ws : List Word) (l : Loc)
    (h : ∀ a, locAddr l = some a → a + 4 ≤ base ∨ base + 4 * ws.length ≤ a) :
    locValue { s with mem := wordsWrite s.mem base ws } l = locValue s l := by
  cases l with
  | pulse i | result i | edge i => exact wordRead_wordsWrite_other s.draws ws s.mem base _ (h _ rfl)
  | sample i => exact congrArg (sampleMask s.par) (wordRead_wordsWrite_other s.draws ws s.mem base _ (h _ rfl))
  | _ => rfl

/-- The completion shows in STATUS alone (45_control.md R351). -/
theorem locValue_complete (e : Err) (s : State) (d : Nat) (l : Loc) (h : l ≠ .status) :
    locValue { complete e s with draws := d } l = locValue { s with draws := d } l := by
  cases l with
  | status => exact absurd rfl h
  | _ => rfl

/-- `t` holds every word of `s` outside the instruction's output set and STATUS, compared at one draw number (log 5). -/
def KeepsOutside (i : Instr) (s t : State) : Prop :=
  ∀ l : Loc, l.configured s.par → inOutputSet i l = false → l ≠ .status →
    locValue { t with draws := s.draws } l = locValue s l

/-- The instruction answers a state that holds every word outside its output set and STATUS. -/
def AnswersOutside (i : Instr) (s : State) : Prop := ∃ t, exec i s = .next t ∧ KeepsOutside i s t

theorem keepsOutside_complete (i : Instr) (e : Err) (s : State) : KeepsOutside i s (complete e s) :=
  fun l _ _ hstatus => locValue_complete e s s.draws l hstatus

/-- A command keeps what stands outside its output set when its registers are in the set and its words miss every
configured entry outside. -/
theorem keepsOutside_write (i : Instr) (e : Err) (s : State) (r : Regs) (base d : Nat) (ws : List Word)
    (hregs : ∀ (m : Memory) (l : Loc), inOutputSet i l = false →
      locValue { s with regs := r, mem := m } l = locValue { s with mem := m } l)
    (hmem : ∀ (l : Loc) (a : Nat), l.configured s.par → inOutputSet i l = false → locAddr l = some a →
      a + 4 ≤ base ∨ base + 4 * ws.length ≤ a) :
    KeepsOutside i s (complete e { s with regs := r, mem := wordsWrite s.mem base ws, draws := d }) := by
  intro l hconf hout hstatus
  rw [locValue_complete _ _ _ l hstatus]
  exact (hregs _ l hout).trans (locValue_wordsWrite_other s base ws l fun a => hmem l a hconf hout)

/-- A command that writes only registers of its output set keeps what stands outside. -/
theorem keepsOutside_regs (i : Instr) (e : Err) (s : State) (r : Regs)
    (hregs : ∀ l : Loc, inOutputSet i l = false → locValue { s with regs := r } l = locValue s l) :
    KeepsOutside i s (complete e { s with regs := r }) := by
  intro l _ hout hstatus
  rw [locValue_complete _ _ _ l hstatus]
  exact hregs l hout

/-- CRC_REG shows in CRC alone (10_state.md R35). -/
theorem locValue_crcReg_other (s : State) (c : BitVec 5) (l : Loc) (h : l ≠ .crc) :
    locValue { s with regs := { s.regs with crcReg := c } } l = locValue s l := by
  cases l with
  | crc => exact absurd rfl h
  | _ => rfl

section
variable (s : State)

theorem crcInit_answersOutside : AnswersOutside .crcInit s :=
  ⟨_, rfl, keepsOutside_regs _ _ s _ fun l hout => locValue_crcReg_other s _ l (ne_of_beq_false hout)⟩

theorem crcFeed_answersOutside (n : BitVec 6) : AnswersOutside (.crcFeed n) s := by
  rcases execCrcFeed_cases n s with ⟨-, he⟩ | ⟨-, he⟩
  · exact ⟨_, he, keepsOutside_complete _ _ s⟩
  · exact ⟨_, he, keepsOutside_regs _ _ s _ fun l hout => locValue_crcReg_other s _ l (ne_of_beq_false hout)⟩

theorem assemble_answersOutside : AnswersOutside .assemble s := by
  rcases execAssemble_cases s with ⟨e, -, he⟩ | ⟨t, b, -, he⟩
  · exact ⟨_, he, keepsOutside_complete _ _ s⟩
  · refine ⟨_, he, keepsOutside_regs _ _ s _ fun l hout => ?_⟩
    cases l with
    | txType | txLen | txBits => cases hout
    | _ => rfl

theorem parse_answersOutside : AnswersOutside .parse s := by
  rcases execParse_cases s with ⟨-, he⟩ | ⟨e, -, -, he⟩ | ⟨t, v, -, -, he⟩
  · exact ⟨_, he, keepsOutside_complete _ _ s⟩
  · exact ⟨_, he, keepsOutside_complete _ _ s⟩
  · refine ⟨_, he, keepsOutside_regs _ _ s _ fun l hout => ?_⟩
    cases l with
    | rxType | rxField => cases hout
    | _ => rfl

theorem softReset_answersOutside : AnswersOutside .softReset s := by
  refine ⟨_, rfl, fun l _ hout hstatus => ?_⟩
  rw [locValue_complete _ _ _ l hstatus]
  cases l with
  | id | pulse | result | edge | sample | unmapped => rfl
  | status => exact absurd rfl hstatus
  | _ => cases hout

variable (hp : legalParams s.par = true)
include hp

theorem encode_answersOutside : AnswersOutside .encode s := by
  obtain ⟨hpulse, -⟩ := legalParams_bounds s.par hp
  rcases execEncode_cases s with ⟨e, he⟩ | ⟨m, b, p, -, -, -, hle, he⟩
  · exact ⟨_, he, keepsOutside_complete _ _ s⟩
  · refine ⟨_, he, keepsOutside_write _ _ s _ pulseBase s.draws _ (fun m l hout => ?regs) fun l a hconf hout ha => ?mem⟩
    case regs =>
      cases l with
      | txType | txLen | txBits | pulseCnt => cases hout
      | _ => rfl
    case mem =>
      rw [List.length_map, pulseBase]
      rcases locAddr_window s.par l a hp hconf ha with h | ⟨i, rfl, h⟩ | ⟨i, rfl, h⟩ | ⟨i, rfl, h⟩ | ⟨i, rfl, h⟩
      case inr.inl => cases hout
      all_goals omega

theorem edges_answersOutside : AnswersOutside .edges s := by
  obtain ⟨-, -, hedge, -⟩ := legalParams_bounds s.par hp
  rcases execEdges_cases s with ⟨-, he⟩ | ⟨-, -, e, -, he⟩
  · exact ⟨_, he, keepsOutside_complete _ _ s⟩
  · refine ⟨_, he, keepsOutside_write _ _ s _ edgeBase _ _ (fun m l hout => ?regs) fun l a hconf hout ha => ?mem⟩
    case regs =>
      cases l with
      | edgeCnt => cases hout
      | _ => rfl
    case mem =>
      rw [List.length_map, List.length_take, edgeBase]
      rcases locAddr_window s.par l a hp hconf ha with h | ⟨i, rfl, h⟩ | ⟨i, rfl, h⟩ | ⟨i, rfl, h⟩ | ⟨i, rfl, h⟩
      case inr.inr.inr.inl => cases hout
      all_goals omega

theorem decode_answersOutside : AnswersOutside .decode s := by
  obtain ⟨-, -, -, hresult⟩ := legalParams_bounds s.par hp
  rcases execDecode_cases s with ⟨-, he⟩ | ⟨-, subs, -, he⟩
  · exact ⟨_, he, keepsOutside_complete _ _ s⟩
  · refine ⟨_, he, keepsOutside_write _ _ s _ resultBase _ _ (fun m l hout => ?regs) fun l a hconf hout ha => ?mem⟩
    case regs =>
      cases l with
      | resultCnt => cases hout
      | _ => rfl
    case mem =>
      rw [recordsWords_length, List.length_take, resultBase]
      rcases locAddr_window s.par l a hp hconf ha with h | ⟨i, rfl, h⟩ | ⟨i, rfl, h⟩ | ⟨i, rfl, h⟩ | ⟨i, rfl, h⟩
      case inr.inr.inl => cases hout
      all_goals omega

/-- Every command answers a state that holds every word outside its output set and STATUS. -/
theorem command_answersOutside (i : Instr) (hi : isCommand i = true) : AnswersOutside i s := by
  cases i with
  | query | queryAdjust | queryRep | ack | nak => cases hi
  | crcInit => exact crcInit_answersOutside s
  | crcFeed n => exact crcFeed_answersOutside s n
  | assemble => exact assemble_answersOutside s
  | parse => exact parse_answersOutside s
  | encode => exact encode_answersOutside s hp
  | edges => exact edges_answersOutside s hp
  | decode => exact decode_answersOutside s hp
  | softReset => exact softReset_answersOutside s
  | nop | reserved8 | reserved9 | reservedA | reservedB | reservedC | reservedD | reservedE =>
    exact ⟨_, rfl, keepsOutside_complete _ _ s⟩

end

/-- A CMD word is a host command, never a message (30_encoding.md R120). -/
theorem isCommand_decodeCmd (w : Word) : isCommand (decodeCmd w) = true := by
  unfold decodeCmd
  split <;> rfl

/-- Settles O46: the address ranges are the model's output sets, and no command writes outside its own. -/
theorem commandsWriteOnlyOutputSet : Obligations.CommandsWriteOnlyOutputSet := by
  intro w s t a hp hexec hout hstatus
  obtain ⟨t', ht', hkeeps⟩ := command_answersOutside s hp (decodeCmd w) (isCommand_decodeCmd w)
  obtain rfl : t' = t := Host.Outcome.next.inj (ht'.symm.trans hexec)
  refine hkeeps (locate s.par a) (locateAt_configured s.par _) ?outside fun hl => hstatus ?_
  case outside => exact (inOutputSet_locateAt s.par w _ hp (wordAddr_mod a)).trans hout
  exact locateAt_register_inj s.par 0x00C _ (by decide) (by decide) (wordAddr_mod a) hl (by decide)

end Sys2Proof.Machine
end

section
/-! PROOFS. Every instruction completes; a failing one leaves the state it found (60_exceptions.md R372, R373, R376). -/

namespace Sys2Proof.Machine

/-- The instruction completes with a result code: success, or an error that finds the state unwritten, or a Capacity
that is not ENCODE's, where the outputs that fit have been written (60_exceptions.md R376). -/
def CompletesCleanly (i : Instr) (s : State) : Prop :=
  ∃ (e : Err) (u : State), exec i s = .next (complete e u) ∧ (e = .none ∨ u = s ∨ e = .capacity ∧ i ≠ .encode)

section
variable {i : Instr} {s : State}

theorem completesCleanly_of_success (u : State) (h : exec i s = .next (complete .none u)) :
    CompletesCleanly i s := ⟨.none, u, h, .inl rfl⟩

theorem completesCleanly_of_unchanged (e : Err) (h : exec i s = .next (complete e s)) :
    CompletesCleanly i s := ⟨e, s, h, .inr (.inl rfl)⟩

/-- EDGES and DECODE keep the outputs that fit and complete with Capacity when some do not (R294, R320). -/
theorem completesCleanly_of_capacity (p : Prop) [Decidable p] (u : State) (hi : i ≠ .encode)
    (h : exec i s = .next (complete (if p then .capacity else .none) u)) : CompletesCleanly i s := by
  refine ⟨_, u, h, ?_⟩
  split
  · exact .inr (.inr ⟨rfl, hi⟩)
  · exact .inl rfl

end

/-- Every instruction completes cleanly, by the cases of its meaning. -/
theorem exec_completesCleanly (i : Instr) (s : State) : CompletesCleanly i s := by
  cases i with
  | query | queryAdjust | queryRep | ack | nak | nop | crcInit | softReset =>
    exact completesCleanly_of_success _ rfl
  | reserved8 | reserved9 | reservedA | reservedB | reservedC | reservedD | reservedE =>
    exact completesCleanly_of_unchanged .illegal rfl
  | crcFeed n =>
    rcases execCrcFeed_cases n s with ⟨-, h⟩ | ⟨-, h⟩
    · exact completesCleanly_of_unchanged .param h
    · exact completesCleanly_of_success _ h
  | assemble =>
    rcases execAssemble_cases s with ⟨e, -, h⟩ | ⟨t, b, -, h⟩
    · exact completesCleanly_of_unchanged e h
    · exact completesCleanly_of_success _ h
  | parse =>
    rcases execParse_cases s with ⟨-, h⟩ | ⟨e, -, -, h⟩ | ⟨t, v, -, -, h⟩
    · exact completesCleanly_of_unchanged .param h
    · exact completesCleanly_of_unchanged e h
    · exact completesCleanly_of_success _ h
  | encode =>
    rcases execEncode_cases s with ⟨e, h⟩ | ⟨m, b, p, -, -, -, -, h⟩
    · exact completesCleanly_of_unchanged e h
    · exact completesCleanly_of_success _ h
  | edges =>
    rcases execEdges_cases s with ⟨-, h⟩ | ⟨-, -, e, -, h⟩
    · exact completesCleanly_of_unchanged .param h
    · exact completesCleanly_of_capacity _ _ Instr.noConfusion h
  | decode =>
    rcases execDecode_cases s with ⟨-, h⟩ | ⟨-, subs, -, h⟩
    · exact completesCleanly_of_unchanged .param h
    · exact completesCleanly_of_capacity _ _ Instr.noConfusion h

/-- Settles O45: a result code that is neither success nor the Capacity of EDGES or DECODE leaves the state as found. -/
theorem failedCommandsWriteNothing : Obligations.FailedCommandsWriteNothing := by
  intro i s t hexec herr
  obtain ⟨e, u, hcomplete, hcases⟩ := exec_completesCleanly i s
  obtain rfl : complete e u = t := Host.Outcome.next.inj (hcomplete.symm.trans hexec)
  rw [complete_err] at herr
  rcases hcases with rfl | rfl | ⟨rfl, hi⟩
  case inl => simp at herr
  case inr.inl => rfl
  case inr.inr =>
    rcases herr with hlisted | ⟨hencode, -⟩
    · simp at hlisted
    · exact absurd hencode hi

/-- Settles O5: the engine's turn completes an instruction, and every other step is the host's. -/
theorem everyStepAnswersNext : Obligations.EveryStepAnswersNext := by
  intro s
  rcases step_cases s with ⟨-, hheld⟩ | ⟨-, -, hengine⟩ | ⟨-, -, -, hbusy⟩ | ⟨-, -, hidle⟩
  · exact ⟨_, hheld⟩
  · obtain ⟨e, u, hcomplete, -⟩ := exec_completesCleanly (fetch s) s
    exact ⟨_, hengine.trans hcomplete⟩
  · exact ⟨_, hbusy⟩
  · exact ⟨_, hidle⟩

end Sys2Proof.Machine
end

section
/-! PROOFS. The irq output after the operations that move DONE (60_exceptions.md R378). -/

namespace Sys2Proof.Machine

theorem irq_complete (s : State) (e : Err) : (complete e s).irq = s.regs.ie := by
  rw [State.irq, complete_done, complete_regs, Bool.true_and]

theorem irq_of_not_done (s : State) (h : s.done = false) : s.irq = false := by
  rw [State.irq, h, Bool.false_and]

/-- A 1 written to bit 1 of STATUS clears DONE (10_state.md R34). -/
theorem writeStatus_clears_done (s : State) (v : Word) (h : v.getLsbD 1 = true) : (writeStatus v s).done = false := by
  rw [writeStatus_done, h, Bool.not_true, Bool.and_false]

/-- Settles O57: a completion sets DONE, and each of the other three operations clears it. -/
theorem irqFollowsDone : Obligations.IrqFollowsDone :=
  ⟨fun _ => rfl, irq_complete, fun s v h => irq_of_not_done _ (writeStatus_clears_done s v h),
    fun s w => irq_of_not_done _ (accept_done w s), fun s => irq_of_not_done _ (powerOn_done s)⟩

end Sys2Proof.Machine
end

section
/-! PROOFS. Bus writes to a BUSY core (70_reset_and_hazards.md R410). -/

namespace Sys2Proof.Machine

/-- The word at 0x00C, and no other, is STATUS (10_state.md R34). -/
theorem locate_eq_status_iff (p : Params) (a : Addr) : locate p a = .status ↔ wordAddr a = 0x00C :=
  ⟨fun hloc => locateAt_register_inj p 0x00C _ (by decide) (by decide) (wordAddr_mod a) hloc nofun,
    fun ha => locate_of_wordAddr p a 0x00C ha (by decide)⟩

/-- Settles O55: the exempt location, STATUS, is the exempt word address, 0x00C. -/
theorem busyWritesAreIgnored : Obligations.BusyWritesAreIgnored := by
  intro s a v hr hbusy
  have hb : s.busy = true := (busy_iff s).mpr hbusy
  constructor
  · intro ha
    exact busWrite_busy_other a v s hr hb (mt (locate_eq_status_iff s.par a).mp ha)
  · intro ha
    exact busWrite_busy_status a v s hr hb ((locate_eq_status_iff s.par a).mpr ha)

end Sys2Proof.Machine
end
